-- ==== Sys2Proof/Word.lean ====
section
/-! DEFINITION. The 64-bit word, the register numbers and the level numbers of DI-CMD/1 (spec 00_scope.md, 10_state.md). -/

namespace Sys2Proof

/-- A 64-bit machine word, the radix-2^64 limb (00_scope.md R5, section 6). -/
abbrev Word := BitVec 64

/-- A value register V0 to V7, as a 3-bit register field names it (10_state.md R10, 30_encoding.md R51). -/
abbrev Reg := Fin 8

/-- A level index as the 5-bit `k` field of a command names it (00_scope.md R3, R4). -/
abbrev Level := Fin 32

end Sys2Proof
end

