-- ==== Sys2Proof/Config.lean ====
section
/-! DEFINITION. The static parameters of an instance (spec 00_scope.md R4, R5). The spec leaves all three OPEN and
forbids a silent default, so the instance that `State.reset` belongs to has opaque parameters: no proof can see them
(entry 2 of the assumption log). -/

namespace Sys2Proof

/-- SSUB_MODE: what signed subtract computes (00_scope.md R5, 43_sign_wrapper.md R162). -/
inductive SsubMode where
  /-- FLIP_A: B − A, the source as observed. -/
  | flipA
  /-- FLIP_B: A − B, the source as intended. -/
  | flipB
deriving DecidableEq, Repr, Inhabited

/-- The parameters an instance is made with; no command reads or writes them as state (10_state.md R17, R20). -/
structure Params where
  /-- KMAX, the top level (00_scope.md R4). -/
  kmax : Nat
  /-- HAS_DIVW64, whether the optional word divide exists (00_scope.md R5). -/
  hasDivw64 : Bool
  /-- SSUB_MODE (00_scope.md R5). -/
  ssubMode : SsubMode
deriving DecidableEq, Repr

/-- KMAX of the instance that comes out of reset. OPEN in the spec (R4): uninterpreted (DESIGN CHOICE, entry 2, safe). -/
opaque Config.kmax : Nat

/-- HAS_DIVW64 of the instance that comes out of reset. OPEN in the spec (R5): uninterpreted (DESIGN CHOICE, entry 2, safe). -/
opaque Config.hasDivw64 : Bool

/-- SSUB_MODE of the instance that comes out of reset. OPEN in the spec (R5): uninterpreted (DESIGN CHOICE, entry 2, safe). -/
opaque Config.ssubMode : SsubMode

/-- The uninterpreted parameters of the instance that comes out of reset. -/
def Config.params : Params :=
  { kmax := Config.kmax, hasDivw64 := Config.hasDivw64, ssubMode := Config.ssubMode }

end Sys2Proof
end

