-- ==== Sys2Proof/Syntax.lean ====
section
/-! DEFINITION. The command set DI-CMD/1 as syntax (spec 30_encoding.md R48): one constructor per row of the opcode
table, and the command as the host presents it (R45). -/

namespace Sys2Proof

/-- The carry-in select of the `cs` field; the code `11` has no constructor, it is illegal (30_encoding.md R52). -/
inductive CarrySel where
  /-- `00`: cin = 0. -/
  | zero
  /-- `01`: cin = 1. -/
  | one
  /-- `10`: cin = CF. -/
  | cf
deriving DecidableEq, Repr

/-- One command as the host presents it: a header word, then payload words (30_encoding.md R45). -/
structure Command where
  header : Word
  payload : List Word
deriving DecidableEq, Repr

/-- The 35 commands (30_encoding.md R48). Operands are in the order k, cs, rd, rs, rt, then the immediate. -/
inductive Instr where
  -- Word primitives (40_word_primitives.md).
  | adc64 (cs : CarrySel) (rd rs : Reg)
  | sbb64 (cs : CarrySel) (rd rs : Reg)
  | mulw64 (rd rs rt : Reg)
  | rcl64 (cs : CarrySel) (rd : Reg)
  | rcr64 (cs : CarrySel) (rd : Reg)
  | divw64 (rd rs rt : Reg)
  -- Unsigned level commands (42_level_commands.md).
  | add (k : Level) (cs : CarrySel) (rd rs : Reg)
  | sub (k : Level) (cs : CarrySel) (rd rs : Reg)
  | shl1 (k : Level) (cs : CarrySel) (rd : Reg)
  | shr1 (k : Level) (cs : CarrySel) (rd : Reg)
  | mulw (k : Level) (rd rs rt : Reg)
  | divmod (k : Level) (rd rs rt : Reg)
  | cmp (k : Level) (rd rs : Reg)
  | and (k : Level) (rd rs : Reg)
  | or (k : Level) (rd rs : Reg)
  | xor (k : Level) (rd rs : Reg)
  | shln (k : Level) (rd : Reg) (imm : BitVec 32)
  | shrn (k : Level) (rd : Reg) (imm : BitVec 32)
  -- Data commands (42_level_commands.md).
  | ldi (k : Level) (rd : Reg) (sg : Bool) (payload : List Word)
  | lds (k : Level) (rd : Reg) (imm : BitVec 32)
  | lift (k : Level) (rd rs : Reg)
  | copy (k : Level) (rd rs : Reg)
  | lowb (k : Level) (rd rs : Reg)
  -- Sign wrapper commands (43_sign_wrapper.md).
  | sadd (k : Level) (cs : CarrySel) (rd rs : Reg)
  | ssub (k : Level) (cs : CarrySel) (rd rs : Reg)
  | sshl1 (k : Level) (cs : CarrySel) (rd : Reg)
  | sshr1 (k : Level) (cs : CarrySel) (rd : Reg)
  | smul (k : Level) (rd rs : Reg)
  | sdiv (k : Level) (rd rs rt : Reg)
  | scmp (k : Level) (rd rs : Reg)
  | sand (k : Level) (rd rs : Reg)
  | sor (k : Level) (rd rs : Reg)
  | sxor (k : Level) (rd rs : Reg)
  | sshln (k : Level) (rd : Reg) (imm : BitVec 32)
  | sshrn (k : Level) (rd : Reg) (imm : BitVec 32)
deriving DecidableEq, Repr

end Sys2Proof
end

