-- ==== Sys2Proof/Machine/State.lean ====
section
/-! DEFINITION. The state of the machine as plain data (spec 10_state.md, 60_exceptions.md section 1). `Block` is the
whole state of the block (R19); the other fields of `State` are the model's own: the static parameters of the instance
(entry 2), what the host will still present (entry 3) and the status it was answered last (entry 4). -/

namespace Sys2Proof.Machine

/-- The faults a command can end in, as completion statuses (60_exceptions.md R190). None of them stops the machine
(R199, R200). -/
inductive CommandFault where
  /-- Raised by DIVMOD and SDIV when the divisor view is zero (R191). -/
  | divideByZero
  /-- Raised by SADD and SSUB when the selected carry-in is 1 (R192). -/
  | illegalCarry
  /-- Raised by DIVW64 when the high word of the dividend is not below the divisor (R194). -/
  | wordDivideOverflow
  /-- Raised by any command that is not one of the set or not one of the instance (30_encoding.md R57, R195). -/
  | illegalCommand
  /-- Raised when a written register field names the register of another used field (30_encoding.md R58, R195). -/
  | operandAlias
deriving DecidableEq, Repr

/-- The completion status of a command (60_exceptions.md R190). -/
inductive Status where
  | ok
  | fault (f : CommandFault)
deriving DecidableEq, Repr

/-- What the host does next (30_encoding.md R45, 70_reset_and_hazards.md R215, R218). A host that breaks the
one-at-a-time rule has no move (R218). -/
inductive Move where
  /-- Present a command and wait for its status. -/
  | command (c : Command)
  /-- Reset the block between two commands. -/
  | reset
  /-- Present a command and reset the block while it executes. -/
  | resetDuring (c : Command)
deriving DecidableEq, Repr

/-- The whole state of the block: eight magnitude fields, eight sign bits, three flags (10_state.md R10, R13, R16, R19).
A magnitude field is a bit-vector of WMAX = 128·2^KMAX bits, held as the natural number it denotes (00_scope.md
section 5.1; entry 6). -/
structure Block where
  /-- The magnitude fields V[0] to V[7] (R10). -/
  v : Vector Nat 8
  /-- The sign bits N[0] to N[7], `true` for negative (R13). -/
  n : Vector Bool 8
  /-- The carry/borrow flag (R16). -/
  cf : Bool
  /-- The comparison flag "equal" (R16). -/
  eq : Bool
  /-- The comparison flag "less" (R16). -/
  lt : Bool
deriving DecidableEq, Repr

/-- The machine: the block, its static parameters, and its two ends of the command transaction. -/
structure State where
  /-- The block's own state. -/
  block : Block
  /-- The parameters of the instance; nothing changes them (10_state.md R17, R20; entry 2). -/
  params : Params
  /-- What the host will do, in order (entry 3). -/
  host : List Move
  /-- The status answered last, or none when no command has been answered since reset (60_exceptions.md R190; entry 4). -/
  status : Option Status
deriving DecidableEq, Repr

/-- Reasons for the machine to stop: there are none. A fault of the spec is a completion status after which "the block is
ready for the next command exactly as after status OK" (60_exceptions.md R200), so it is a next state (entry 1). Safe:
nothing raises it. -/
inductive Fault
deriving DecidableEq, Repr

/-- Reasons for the model to give no meaning. -/
inductive Refusal where
  /-- An instruction of the table without a meaning in this model, by its mnemonic. Raised by no arm of `exec`: every
  row of the opcode table has its meaning. Safe. -/
  | notModelled (mnemonic : String)
deriving DecidableEq, Repr

/-- The block after reset: every magnitude 0, every sign bit 0, CF = EQ = LT = 0 (10_state.md R22). -/
def Block.reset : Block where
  v := Vector.replicate 8 0
  n := Vector.replicate 8 false
  cf := false
  eq := false
  lt := false

/-- The machine right after reset (10_state.md R22, 70_reset_and_hazards.md R215): the block reset, the parameters
uninterpreted (DESIGN CHOICE, entry 2), no move of the host known (DESIGN CHOICE, entry 3), no status answered yet
(DESIGN CHOICE, entry 4). -/
def State.reset : State where
  block := Block.reset
  params := Config.params
  host := []
  status := none

end Sys2Proof.Machine
end

