-- ==== Sys2Proof/Machine/Flags.lean ====
section
/-! DEFINITION. Writing the three flags (spec 10_state.md R16). Which value a command gives them is computed by the
function it applies; that every other flag keeps its value is said here. -/

namespace Sys2Proof.Machine

/-- CF is written, EQ and LT are not (10_state.md R16). -/
def Block.setCF (b : Block) (c : Bool) : Block := { b with cf := c }

/-- CF after a multi-bit shift: the bit the last single shift moved out, unchanged when there was none
(10_state.md R16, 42_level_commands.md R140). -/
def Block.setShiftOut (b : Block) : Option Bool → Block
  | none => b
  | some c => b.setCF c

/-- EQ and LT are written, CF is not (10_state.md R16). -/
def Block.setCompare (b : Block) (eq lt : Bool) : Block := { b with eq := eq, lt := lt }

end Sys2Proof.Machine
end

