-- ==== Sys2Proof/WellFormed.lean ====
section
/-! DEFINITION. Which terms of `Instr` are instructions at all: the one shape the types do not enforce is the length of
the LDI payload (spec 30_encoding.md R55). Level indices, registers, the carry select and immediates are right by their
types. Whether an INSTANCE has the command (k ≤ KMAX, HAS_DIVW64) is no matter of form: the meanings check it. -/

namespace Sys2Proof

/-- The term is a command of the set: an LDI at level k carries exactly 2^(k+1) payload words (30_encoding.md R55). -/
def Instr.wellFormed : Instr → Bool
  | .ldi k _ _ payload => payload.length == 2 ^ (k.val + 1)
  | .adc64 .. | .sbb64 .. | .mulw64 .. | .rcl64 .. | .rcr64 .. | .divw64 ..
  | .add .. | .sub .. | .shl1 .. | .shr1 .. | .mulw .. | .divmod .. | .cmp .. | .and .. | .or .. | .xor ..
  | .shln .. | .shrn .. | .lds .. | .lift .. | .copy .. | .lowb ..
  | .sadd .. | .ssub .. | .sshl1 .. | .sshr1 .. | .smul .. | .sdiv .. | .scmp ..
  | .sand .. | .sor .. | .sxor .. | .sshln .. | .sshrn .. => true

end Sys2Proof
end

