-- ==== Sys2Proof/Decode.lean ====
section
/-! DEFINITION. The encoding of DI-CMD/1 (spec 30_encoding.md): the header format, the decoder, which is total and
rejects by name, the encoder, and the opcode table as data. The decoder checks what the words alone decide (R47 step 1
but for `k ≤ KMAX` and HAS_DIVW64, which depend on the instance and stand in the meanings; entry 10). -/

namespace Sys2Proof

/-- The ten fields of the one header format, most significant first (30_encoding.md R46). -/
structure Header where
  op : BitVec 8
  k : BitVec 5 := 0
  s : BitVec 1 := 0
  cs : BitVec 2 := 0
  rd : BitVec 3 := 0
  rs : BitVec 3 := 0
  rt : BitVec 3 := 0
  sg : BitVec 1 := 0
  zero : BitVec 6 := 0
  imm32 : BitVec 32 := 0
deriving DecidableEq, Repr

/-- The fields of a header word, each at its bit position (30_encoding.md R46). -/
def Header.ofWord (w : Word) : Header where
  op := w.extractLsb' 56 8
  k := w.extractLsb' 51 5
  s := w.extractLsb' 50 1
  cs := w.extractLsb' 48 2
  rd := w.extractLsb' 45 3
  rs := w.extractLsb' 42 3
  rt := w.extractLsb' 39 3
  sg := w.extractLsb' 38 1
  zero := w.extractLsb' 32 6
  imm32 := w.extractLsb' 0 32

/-- The header word of ten fields, each at its bit position (30_encoding.md R46). -/
def Header.toWord (h : Header) : Word :=
  h.op ++ h.k ++ h.s ++ h.cs ++ h.rd ++ h.rs ++ h.rt ++ h.sg ++ h.zero ++ h.imm32

/-- Why a command is not one of the set: each is IllegalCommand to the host (30_encoding.md R57). -/
inductive DecodeError where
  /-- The pair (op, S) is not assigned (R48, R49). -/
  | unassignedOp
  /-- A field the command does not use, or the `zero` field, is not 0 (R50 to R54, R56). -/
  | unusedFieldNotZero
  /-- `cs` is `11` (R52). -/
  | carrySelectReserved
  /-- The payload has the wrong number of words (R55). -/
  | payloadLength
deriving DecidableEq, Repr

/-- The operations of the opcode table, without operands (30_encoding.md R48). -/
inductive Op where
  | adc64 | sbb64 | mulw64 | rcl64 | rcr64 | divw64
  | add | sub | shl1 | shr1 | mulw | divmod | cmp | and | or | xor | shln | shrn
  | ldi | lds | lift | copy | lowb
  | sadd | ssub | sshl1 | sshr1 | smul | sdiv | scmp | sand | sor | sxor | sshln | sshrn
deriving DecidableEq, Repr

/-- The operation that `op` and `S` select; the empty places of the table are illegal (30_encoding.md R48, R49). -/
def operation? (op : BitVec 8) (s : BitVec 1) : Option Op :=
  match op.toNat, s.toNat with
  | 0x01, 0 => some .adc64
  | 0x02, 0 => some .sbb64
  | 0x03, 0 => some .mulw64
  | 0x04, 0 => some .rcl64
  | 0x05, 0 => some .rcr64
  | 0x06, 0 => some .divw64
  | 0x10, 0 => some .add
  | 0x11, 0 => some .sub
  | 0x12, 0 => some .shl1
  | 0x13, 0 => some .shr1
  | 0x14, 0 => some .mulw
  | 0x15, 0 => some .divmod
  | 0x16, 0 => some .cmp
  | 0x17, 0 => some .and
  | 0x18, 0 => some .or
  | 0x19, 0 => some .xor
  | 0x1a, 0 => some .shln
  | 0x1b, 0 => some .shrn
  | 0x20, 0 => some .ldi
  | 0x21, 0 => some .lds
  | 0x22, 0 => some .lift
  | 0x23, 0 => some .copy
  | 0x24, 0 => some .lowb
  | 0x10, 1 => some .sadd
  | 0x11, 1 => some .ssub
  | 0x12, 1 => some .sshl1
  | 0x13, 1 => some .sshr1
  | 0x14, 1 => some .smul
  | 0x15, 1 => some .sdiv
  | 0x16, 1 => some .scmp
  | 0x17, 1 => some .sand
  | 0x18, 1 => some .sor
  | 0x19, 1 => some .sxor
  | 0x1a, 1 => some .sshln
  | 0x1b, 1 => some .sshrn
  | _, _ => none

/-- Which of the optional fields a command uses; `rd` is used by every command (30_encoding.md R48). -/
structure Uses where
  k : Bool := true
  cs : Bool := false
  rs : Bool := false
  rt : Bool := false
  sg : Bool := false
  imm32 : Bool := false
deriving DecidableEq, Repr

/-- The "operands used" column of the opcode table (30_encoding.md R48). -/
def Op.uses : Op → Uses
  | .adc64 | .sbb64 => { k := false, cs := true, rs := true }
  | .mulw64 | .divw64 => { k := false, rs := true, rt := true }
  | .rcl64 | .rcr64 => { k := false, cs := true }
  | .add | .sub | .sadd | .ssub => { cs := true, rs := true }
  | .shl1 | .shr1 | .sshl1 | .sshr1 => { cs := true }
  | .mulw | .divmod | .sdiv => { rs := true, rt := true }
  | .cmp | .and | .or | .xor | .lift | .copy | .lowb | .smul | .scmp | .sand | .sor | .sxor => { rs := true }
  | .shln | .shrn | .lds | .sshln | .sshrn => { imm32 := true }
  | .ldi => { sg := true }

/-- Every unused field, and the `zero` field, is 0 (30_encoding.md R50 to R54, R56). -/
def Header.unusedAreZero (h : Header) (u : Uses) : Bool :=
  (u.k || h.k == 0) && (u.cs || h.cs == 0) && (u.rs || h.rs == 0) && (u.rt || h.rt == 0) &&
    (u.sg || h.sg == 0) && (u.imm32 || h.imm32 == 0) && h.zero == 0

/-- The number of payload words of an LDI at level k (30_encoding.md R55). -/
def payloadWords (k : Nat) : Nat := 2 ^ (k + 1)

/-- The number of payload words a command has, known from its header alone (30_encoding.md R55, R59). -/
def Op.payloadLength (o : Op) (k : BitVec 5) : Nat :=
  if o = .ldi then payloadWords k.toNat else 0

/-- The carry select of the `cs` field; `11` is illegal (30_encoding.md R52). -/
def carrySel? (cs : BitVec 2) : Option CarrySel :=
  match cs.toNat with
  | 0 => some .zero
  | 1 => some .one
  | 2 => some .cf
  | _ => none

/-- An instruction with a carry select, or the rejection of the reserved code (30_encoding.md R52). -/
def withCarrySel (h : Header) (f : CarrySel → Instr) : Except DecodeError Instr :=
  match carrySel? h.cs with
  | some cs => .ok (f cs)
  | none => .error .carrySelectReserved

/-- The instruction of an operation from the fields of its header and its payload (30_encoding.md R48). -/
def Op.build (o : Op) (h : Header) (payload : List Word) : Except DecodeError Instr :=
  let k : Level := h.k.toFin
  let rd : Reg := h.rd.toFin
  let rs : Reg := h.rs.toFin
  let rt : Reg := h.rt.toFin
  match o with
  | .adc64 => withCarrySel h fun cs => .adc64 cs rd rs
  | .sbb64 => withCarrySel h fun cs => .sbb64 cs rd rs
  | .mulw64 => .ok (.mulw64 rd rs rt)
  | .rcl64 => withCarrySel h fun cs => .rcl64 cs rd
  | .rcr64 => withCarrySel h fun cs => .rcr64 cs rd
  | .divw64 => .ok (.divw64 rd rs rt)
  | .add => withCarrySel h fun cs => .add k cs rd rs
  | .sub => withCarrySel h fun cs => .sub k cs rd rs
  | .shl1 => withCarrySel h fun cs => .shl1 k cs rd
  | .shr1 => withCarrySel h fun cs => .shr1 k cs rd
  | .mulw => .ok (.mulw k rd rs rt)
  | .divmod => .ok (.divmod k rd rs rt)
  | .cmp => .ok (.cmp k rd rs)
  | .and => .ok (.and k rd rs)
  | .or => .ok (.or k rd rs)
  | .xor => .ok (.xor k rd rs)
  | .shln => .ok (.shln k rd h.imm32)
  | .shrn => .ok (.shrn k rd h.imm32)
  | .ldi => .ok (.ldi k rd (h.sg == 1) payload)
  | .lds => .ok (.lds k rd h.imm32)
  | .lift => .ok (.lift k rd rs)
  | .copy => .ok (.copy k rd rs)
  | .lowb => .ok (.lowb k rd rs)
  | .sadd => withCarrySel h fun cs => .sadd k cs rd rs
  | .ssub => withCarrySel h fun cs => .ssub k cs rd rs
  | .sshl1 => withCarrySel h fun cs => .sshl1 k cs rd
  | .sshr1 => withCarrySel h fun cs => .sshr1 k cs rd
  | .smul => .ok (.smul k rd rs)
  | .sdiv => .ok (.sdiv k rd rs rt)
  | .scmp => .ok (.scmp k rd rs)
  | .sand => .ok (.sand k rd rs)
  | .sor => .ok (.sor k rd rs)
  | .sxor => .ok (.sxor k rd rs)
  | .sshln => .ok (.sshln k rd h.imm32)
  | .sshrn => .ok (.sshrn k rd h.imm32)

/-- The decoder: the instruction a command stands for, or the named reason it stands for none (30_encoding.md R47, R57). -/
def decode (c : Command) : Except DecodeError Instr :=
  let h := Header.ofWord c.header
  match operation? h.op h.s with
  | none => .error .unassignedOp
  | some o =>
    if h.unusedAreZero o.uses then
      if c.payload.length = o.payloadLength h.k then o.build h c.payload else .error .payloadLength
    else .error .unusedFieldNotZero

/-- The `cs` code of a carry select (30_encoding.md R52). -/
def CarrySel.bits : CarrySel → BitVec 2
  | .zero => 0
  | .one => 1
  | .cf => 2

/-- The register field of a register (30_encoding.md R51). -/
def regBits (r : Reg) : BitVec 3 := BitVec.ofFin r

/-- The level field of a level (30_encoding.md R50). -/
def levelBits (k : Level) : BitVec 5 := BitVec.ofFin k

/-- The header fields of an instruction, written from the opcode table (30_encoding.md R46, R48). -/
def Instr.header : Instr → Header
  | .adc64 cs rd rs => { op := 0x01, cs := cs.bits, rd := regBits rd, rs := regBits rs }
  | .sbb64 cs rd rs => { op := 0x02, cs := cs.bits, rd := regBits rd, rs := regBits rs }
  | .mulw64 rd rs rt => { op := 0x03, rd := regBits rd, rs := regBits rs, rt := regBits rt }
  | .rcl64 cs rd => { op := 0x04, cs := cs.bits, rd := regBits rd }
  | .rcr64 cs rd => { op := 0x05, cs := cs.bits, rd := regBits rd }
  | .divw64 rd rs rt => { op := 0x06, rd := regBits rd, rs := regBits rs, rt := regBits rt }
  | .add k cs rd rs => { op := 0x10, k := levelBits k, cs := cs.bits, rd := regBits rd, rs := regBits rs }
  | .sub k cs rd rs => { op := 0x11, k := levelBits k, cs := cs.bits, rd := regBits rd, rs := regBits rs }
  | .shl1 k cs rd => { op := 0x12, k := levelBits k, cs := cs.bits, rd := regBits rd }
  | .shr1 k cs rd => { op := 0x13, k := levelBits k, cs := cs.bits, rd := regBits rd }
  | .mulw k rd rs rt => { op := 0x14, k := levelBits k, rd := regBits rd, rs := regBits rs, rt := regBits rt }
  | .divmod k rd rs rt => { op := 0x15, k := levelBits k, rd := regBits rd, rs := regBits rs, rt := regBits rt }
  | .cmp k rd rs => { op := 0x16, k := levelBits k, rd := regBits rd, rs := regBits rs }
  | .and k rd rs => { op := 0x17, k := levelBits k, rd := regBits rd, rs := regBits rs }
  | .or k rd rs => { op := 0x18, k := levelBits k, rd := regBits rd, rs := regBits rs }
  | .xor k rd rs => { op := 0x19, k := levelBits k, rd := regBits rd, rs := regBits rs }
  | .shln k rd imm => { op := 0x1a, k := levelBits k, rd := regBits rd, imm32 := imm }
  | .shrn k rd imm => { op := 0x1b, k := levelBits k, rd := regBits rd, imm32 := imm }
  | .ldi k rd sg _ => { op := 0x20, k := levelBits k, rd := regBits rd, sg := BitVec.ofBool sg }
  | .lds k rd imm => { op := 0x21, k := levelBits k, rd := regBits rd, imm32 := imm }
  | .lift k rd rs => { op := 0x22, k := levelBits k, rd := regBits rd, rs := regBits rs }
  | .copy k rd rs => { op := 0x23, k := levelBits k, rd := regBits rd, rs := regBits rs }
  | .lowb k rd rs => { op := 0x24, k := levelBits k, rd := regBits rd, rs := regBits rs }
  | .sadd k cs rd rs => { op := 0x10, k := levelBits k, s := 1, cs := cs.bits, rd := regBits rd, rs := regBits rs }
  | .ssub k cs rd rs => { op := 0x11, k := levelBits k, s := 1, cs := cs.bits, rd := regBits rd, rs := regBits rs }
  | .sshl1 k cs rd => { op := 0x12, k := levelBits k, s := 1, cs := cs.bits, rd := regBits rd }
  | .sshr1 k cs rd => { op := 0x13, k := levelBits k, s := 1, cs := cs.bits, rd := regBits rd }
  | .smul k rd rs => { op := 0x14, k := levelBits k, s := 1, rd := regBits rd, rs := regBits rs }
  | .sdiv k rd rs rt => { op := 0x15, k := levelBits k, s := 1, rd := regBits rd, rs := regBits rs, rt := regBits rt }
  | .scmp k rd rs => { op := 0x16, k := levelBits k, s := 1, rd := regBits rd, rs := regBits rs }
  | .sand k rd rs => { op := 0x17, k := levelBits k, s := 1, rd := regBits rd, rs := regBits rs }
  | .sor k rd rs => { op := 0x18, k := levelBits k, s := 1, rd := regBits rd, rs := regBits rs }
  | .sxor k rd rs => { op := 0x19, k := levelBits k, s := 1, rd := regBits rd, rs := regBits rs }
  | .sshln k rd imm => { op := 0x1a, k := levelBits k, s := 1, rd := regBits rd, imm32 := imm }
  | .sshrn k rd imm => { op := 0x1b, k := levelBits k, s := 1, rd := regBits rd, imm32 := imm }

/-- The payload words of an instruction: none but for LDI (30_encoding.md R55). -/
def Instr.payload : Instr → List Word
  | .ldi _ _ _ payload => payload
  | .adc64 .. | .sbb64 .. | .mulw64 .. | .rcl64 .. | .rcr64 .. | .divw64 .. | .add .. | .sub .. | .shl1 ..
  | .shr1 .. | .mulw .. | .divmod .. | .cmp .. | .and .. | .or .. | .xor .. | .shln .. | .shrn ..
  | .lds .. | .lift .. | .copy .. | .lowb .. | .sadd .. | .ssub .. | .sshl1 .. | .sshr1 .. | .smul ..
  | .sdiv .. | .scmp .. | .sand .. | .sor .. | .sxor .. | .sshln .. | .sshrn .. => []

/-- The encoder: the words the host presents for an instruction (30_encoding.md R45, R46, R55). -/
def encode (i : Instr) : Command :=
  { header := i.header.toWord, payload := i.payload }

/-- The number of words of a command, from its header alone: one, but for LDI (30_encoding.md R59). -/
def commandLength (header : Word) : Nat :=
  let h := Header.ofWord header
  if h.op = 0x20 then 1 + payloadWords h.k.toNat else 1

/-- The words of a command in the order they are presented (30_encoding.md R45). -/
def Command.words (c : Command) : List Word := c.header :: c.payload

/-- A flat list of words cut into commands by the length rule, with the words left over when the last command is
incomplete (30_encoding.md R59). The fuel is the number of words. -/
def cutWords : Nat → List Word → List Command × List Word
  | 0, ws => ([], ws)
  | _ + 1, [] => ([], [])
  | fuel + 1, w :: ws =>
    let n := commandLength w - 1
    if ws.length < n then ([], w :: ws)
    else
      let (cs, rest) := cutWords fuel (ws.drop n)
      ({ header := w, payload := ws.take n } :: cs, rest)

/-- The operation of an instruction, without its operands. -/
def Instr.operation : Instr → Op
  | .adc64 .. => .adc64
  | .sbb64 .. => .sbb64
  | .mulw64 .. => .mulw64
  | .rcl64 .. => .rcl64
  | .rcr64 .. => .rcr64
  | .divw64 .. => .divw64
  | .add .. => .add
  | .sub .. => .sub
  | .shl1 .. => .shl1
  | .shr1 .. => .shr1
  | .mulw .. => .mulw
  | .divmod .. => .divmod
  | .cmp .. => .cmp
  | .and .. => .and
  | .or .. => .or
  | .xor .. => .xor
  | .shln .. => .shln
  | .shrn .. => .shrn
  | .ldi .. => .ldi
  | .lds .. => .lds
  | .lift .. => .lift
  | .copy .. => .copy
  | .lowb .. => .lowb
  | .sadd .. => .sadd
  | .ssub .. => .ssub
  | .sshl1 .. => .sshl1
  | .sshr1 .. => .sshr1
  | .smul .. => .smul
  | .sdiv .. => .sdiv
  | .scmp .. => .scmp
  | .sand .. => .sand
  | .sor .. => .sor
  | .sxor .. => .sxor
  | .sshln .. => .sshln
  | .sshrn .. => .sshrn

/-- One row of the machine-readable opcode table: a header word `h` selects it when `h &&& mask = pattern`
(30_encoding.md, introduction; opcode_table.json). -/
structure TableRow where
  op : Op
  mnemonic : String
  pattern : Word
  mask : Word
deriving DecidableEq, Repr

/-- The 35 rows of opcode_table.json, in the table's order. -/
def opcodeTable : List TableRow :=
  [
    ⟨.adc64, "ADC64", 0x0100000000000000, 0xFFFC03FFFFFFFFFF⟩,
    ⟨.sbb64, "SBB64", 0x0200000000000000, 0xFFFC03FFFFFFFFFF⟩,
    ⟨.mulw64, "MULW64", 0x0300000000000000, 0xFFFF007FFFFFFFFF⟩,
    ⟨.rcl64, "RCL64", 0x0400000000000000, 0xFFFC1FFFFFFFFFFF⟩,
    ⟨.rcr64, "RCR64", 0x0500000000000000, 0xFFFC1FFFFFFFFFFF⟩,
    ⟨.divw64, "DIVW64", 0x0600000000000000, 0xFFFF007FFFFFFFFF⟩,
    ⟨.add, "ADD", 0x1000000000000000, 0xFF0403FFFFFFFFFF⟩,
    ⟨.sub, "SUB", 0x1100000000000000, 0xFF0403FFFFFFFFFF⟩,
    ⟨.shl1, "SHL1", 0x1200000000000000, 0xFF041FFFFFFFFFFF⟩,
    ⟨.shr1, "SHR1", 0x1300000000000000, 0xFF041FFFFFFFFFFF⟩,
    ⟨.mulw, "MULW", 0x1400000000000000, 0xFF07007FFFFFFFFF⟩,
    ⟨.divmod, "DIVMOD", 0x1500000000000000, 0xFF07007FFFFFFFFF⟩ ]
  ++ [
    ⟨.cmp, "CMP", 0x1600000000000000, 0xFF0703FFFFFFFFFF⟩,
    ⟨.and, "AND", 0x1700000000000000, 0xFF0703FFFFFFFFFF⟩,
    ⟨.or, "OR", 0x1800000000000000, 0xFF0703FFFFFFFFFF⟩,
    ⟨.xor, "XOR", 0x1900000000000000, 0xFF0703FFFFFFFFFF⟩,
    ⟨.shln, "SHLN", 0x1A00000000000000, 0xFF071FFF00000000⟩,
    ⟨.shrn, "SHRN", 0x1B00000000000000, 0xFF071FFF00000000⟩,
    ⟨.ldi, "LDI", 0x2000000000000000, 0xFF071FBFFFFFFFFF⟩,
    ⟨.lds, "LDS", 0x2100000000000000, 0xFF071FFF00000000⟩,
    ⟨.lift, "LIFT", 0x2200000000000000, 0xFF0703FFFFFFFFFF⟩,
    ⟨.copy, "COPY", 0x2300000000000000, 0xFF0703FFFFFFFFFF⟩,
    ⟨.lowb, "LOWB", 0x2400000000000000, 0xFF0703FFFFFFFFFF⟩,
    ⟨.sadd, "SADD", 0x1004000000000000, 0xFF0403FFFFFFFFFF⟩ ]
  ++ [
    ⟨.ssub, "SSUB", 0x1104000000000000, 0xFF0403FFFFFFFFFF⟩,
    ⟨.sshl1, "SSHL1", 0x1204000000000000, 0xFF041FFFFFFFFFFF⟩,
    ⟨.sshr1, "SSHR1", 0x1304000000000000, 0xFF041FFFFFFFFFFF⟩,
    ⟨.smul, "SMUL", 0x1404000000000000, 0xFF0703FFFFFFFFFF⟩,
    ⟨.sdiv, "SDIV", 0x1504000000000000, 0xFF07007FFFFFFFFF⟩,
    ⟨.scmp, "SCMP", 0x1604000000000000, 0xFF0703FFFFFFFFFF⟩,
    ⟨.sand, "SAND", 0x1704000000000000, 0xFF0703FFFFFFFFFF⟩,
    ⟨.sor, "SOR", 0x1804000000000000, 0xFF0703FFFFFFFFFF⟩,
    ⟨.sxor, "SXOR", 0x1904000000000000, 0xFF0703FFFFFFFFFF⟩,
    ⟨.sshln, "SSHLN", 0x1A04000000000000, 0xFF071FFF00000000⟩,
    ⟨.sshrn, "SSHRN", 0x1B04000000000000, 0xFF071FFF00000000⟩ ]

/-- The row a header word selects, as the first step of execution finds it (30_encoding.md R47). -/
def TableRow.selects (r : TableRow) (w : Word) : Bool := w &&& r.mask == r.pattern

/-- The command whose bits are `w`, bit 0 the least significant bit of the header: the payload words follow from bit 64
on. Bits of `w` at and above `nbits` are taken as 0; an LDI gets exactly the payload words of its level, any other
command the whole words that `nbits` reaches beyond the header (none in this table). -/
def tableCommand (nbits w : Nat) : Command :=
  let v := w % 2 ^ nbits
  let header : Word := BitVec.ofNat 64 v
  let h := Header.ofWord header
  let n := if h.op = 0x20 then payloadWords h.k.toNat else (nbits - 64) / 64
  { header := header, payload := (List.range n).map fun j => BitVec.ofNat 64 (v / 2 ^ (64 * (j + 1))) }

/-- The instruction the decoder reads from a row of the opcode table. -/
def decodeTableWord (nbits w : Nat) : Option Instr :=
  match decode (tableCommand nbits w) with
  | .ok i => some i
  | .error _ => none

end Sys2Proof
end

