-- ==== Sys2Proof/Machine/WordPrimitives.lean ====
section
/-! DEFINITION. The word primitives as pure functions on 64-bit words (spec 40_word_primitives.md part 1). -/

namespace Sys2Proof.Machine

/-- `adc64(a, b, cin) → (sum, cout)` (40_word_primitives.md R70). -/
def adc64 (a b : Word) (cin : Bool) : Word × Bool :=
  let t := a.toNat + b.toNat + cin.toNat
  (BitVec.ofNat 64 t, decide (2 ^ 64 ≤ t))

/-- `sbb64(a, b, bin) → (diff, bout)`: the true difference is an integer (40_word_primitives.md R71). -/
def sbb64 (a b : Word) (bin : Bool) : Word × Bool :=
  let t : Int := (a.toNat : Int) - b.toNat - bin.toNat
  (BitVec.ofInt 64 t, decide (t < 0))

/-- `mulw64(a, b) → (lo, hi)`, low part first (40_word_primitives.md R72). -/
def mulw64 (a b : Word) : Word × Word :=
  let p := a.toNat * b.toNat
  (BitVec.ofNat 64 p, BitVec.ofNat 64 (p / 2 ^ 64))

/-- `rcl64(a, cin) → (a', cout)`: the carry enters at bit 0, bit 63 leaves (40_word_primitives.md R73). -/
def rcl64 (a : Word) (cin : Bool) : Word × Bool :=
  (BitVec.ofNat 64 (2 * a.toNat + cin.toNat), a.getLsbD 63)

/-- `rcr64(a, cin) → (a', cout)`: the carry enters at bit 63, bit 0 leaves (40_word_primitives.md R74). -/
def rcr64 (a : Word) (cin : Bool) : Word × Bool :=
  (BitVec.ofNat 64 (a.toNat / 2 + cin.toNat * 2 ^ 63), a.getLsbD 0)

/-- `divw64(hi, lo, c) → (q, r)`, or WordDivideOverflow when `hi ≥ c`, c = 0 included (40_word_primitives.md R75). -/
def divw64 (hi lo c : Word) : Except CommandFault (Word × Word) :=
  if c.toNat ≤ hi.toNat then .error .wordDivideOverflow
  else
    let n := hi.toNat * 2 ^ 64 + lo.toNat
    .ok (BitVec.ofNat 64 (n / c.toNat), BitVec.ofNat 64 (n % c.toNat))

end Sys2Proof.Machine
end

