-- ==== Sys2Proof/Machine/Levels.lean ====
section
/-! DEFINITION. The level functions by their contracts (spec 41_level_functions.md): a level-k value is a natural number
below 2^W(k). The contract is normative and is what the commands compute; how a level builds it from the level below
stands in Machine/Structure.lean (R99; entry 7). Bits are Booleans. -/

namespace Sys2Proof.Machine

/-- W(k) = 128·2^k, the width of level k in bits (00_scope.md R3). -/
def width (k : Nat) : Nat := 128 * 2 ^ k

/-- H(k) = W(k)/2 = 64·2^k, the width of a half of level k (00_scope.md R3). -/
def halfWidth (k : Nat) : Nat := 64 * 2 ^ k

/-- `L_add(k, a, b, cin) → (a', cout)` (41_level_functions.md R92, contract). -/
def lAdd (k a b : Nat) (cin : Bool) : Nat × Bool :=
  let t := a + b + cin.toNat
  (t % 2 ^ width k, decide (2 ^ width k ≤ t))

/-- `L_sub(k, a, b, bin) → (a', bout)`: the true difference is an integer (41_level_functions.md R93, contract). -/
def lSub (k a b : Nat) (bin : Bool) : Nat × Bool :=
  let t : Int := (a : Int) - b - bin.toNat
  ((t % (2 ^ width k : Nat)).toNat, decide (t < 0))

/-- `L_shl1(k, a, cin) → (a', cout)` (41_level_functions.md R94, contract). -/
def lShl1 (k a : Nat) (cin : Bool) : Nat × Bool :=
  ((2 * a) % 2 ^ width k + cin.toNat, a.testBit (width k - 1))

/-- `L_shr1(k, a, cin) → (a', cout)` (41_level_functions.md R95, contract). -/
def lShr1 (k a : Nat) (cin : Bool) : Nat × Bool :=
  (a / 2 + cin.toNat * 2 ^ (width k - 1), a.testBit 0)

/-- `L_mulw(k, a, b) → (low, high)`, low part first (41_level_functions.md R96). -/
def lMulw (k a b : Nat) : Nat × Nat :=
  let p := a * b
  (p % 2 ^ width k, p / 2 ^ width k)

/-- `L_divmod(k, a, b) → (quot, rem)`, or DivideByZero when `b = 0` (41_level_functions.md R98, contract); the results
do not depend on the level. -/
def lDivmod (a b : Nat) : Except CommandFault (Nat × Nat) :=
  if b = 0 then .error .divideByZero else .ok (a / b, a % b)

/-- `L_eq(k, a, b)` (41_level_functions.md R100). -/
def lEq (a b : Nat) : Bool := a == b

/-- `L_lt(k, a, b)` (41_level_functions.md R100). -/
def lLt (a b : Nat) : Bool := decide (a < b)

/-- `L_and(k, a, b)`, bit by bit (41_level_functions.md R101). -/
def lAnd (a b : Nat) : Nat := a &&& b

/-- `L_or(k, a, b)`, bit by bit (41_level_functions.md R102). -/
def lOr (a b : Nat) : Nat := a ||| b

/-- `L_xor(k, a, b)`, bit by bit (41_level_functions.md R103). -/
def lXor (a b : Nat) : Nat := a ^^^ b

/-- `L_shln(k, a, n) → (a', last)` in closed form; `last` is the bit the n-th single shift moves out and does not exist
for n = 0 (41_level_functions.md R104). -/
def lShln (k a n : Nat) : Nat × Option Bool :=
  (if n < width k then (a * 2 ^ n) % 2 ^ width k else 0,
   if n = 0 then none else some (decide (n ≤ width k) && a.testBit (width k - n)))

/-- `L_shrn(k, a, n) → (a', last)` in closed form; `last` is the bit the n-th single shift moves out and does not exist
for n = 0 (41_level_functions.md R104). -/
def lShrn (k a n : Nat) : Nat × Option Bool :=
  (if n < width k then a / 2 ^ n else 0,
   if n = 0 then none else some (decide (n ≤ width k) && a.testBit (n - 1)))

end Sys2Proof.Machine
end

