-- ==== Sys2Proof/Machine/SignWrapper.lean ====
section
/-! DEFINITION. The sign wrapper as pure functions on pairs (magnitude, sign) (spec 43_sign_wrapper.md part 1). -/

namespace Sys2Proof.Machine

/-- A signed value: a magnitude of some level and a sign bit, `true` for negative (43_sign_wrapper.md, 10_state.md R13). -/
structure Signed where
  mag : Nat
  neg : Bool
deriving DecidableEq, Repr

/-- `val(mag, neg)`, the integer a pair denotes (00_scope.md section 5.1). -/
def Signed.val (x : Signed) : Int := if x.neg then -(x.mag : Int) else x.mag

/-- The pair with its sign flipped: `(mag, ¬neg)` (43_sign_wrapper.md R162). -/
def Signed.flip (x : Signed) : Signed := { x with neg := !x.neg }

/-- `S_norm(mag, neg)`: zero is never negative (43_sign_wrapper.md R160). -/
def sNorm (mag : Nat) (neg : Bool) : Signed :=
  if mag = 0 then { mag := 0, neg := false } else { mag := mag, neg := neg }

/-- `S_add` with carry-in 0 (43_sign_wrapper.md R161, the four branches). -/
def sAddBranches (k : Nat) (A B : Signed) : Signed × Bool :=
  if A.neg = B.neg then
    let r := lAdd k A.mag B.mag false
    (sNorm r.1 A.neg, r.2)
  else if B.mag < A.mag then (sNorm (lSub k A.mag B.mag false).1 A.neg, false)
  else if A.mag = B.mag then (sNorm 0 false, false)
  else (sNorm (lSub k B.mag A.mag false).1 B.neg, false)

/-- `S_add(k, A, B, cin) → (A', cout)`, or IllegalCarry (43_sign_wrapper.md R161). -/
def sAdd (k : Nat) (A B : Signed) (cin : Bool) : Except CommandFault (Signed × Bool) :=
  if cin then .error .illegalCarry else .ok (sAddBranches k A B)

/-- `S_sub(k, A, B, bin) → (A', cout)`, or IllegalCarry: SSUB_MODE says whose sign is flipped (43_sign_wrapper.md R162). -/
def sSub (mode : SsubMode) (k : Nat) (A B : Signed) (bin : Bool) : Except CommandFault (Signed × Bool) :=
  if bin then .error .illegalCarry
  else
    match mode with
    | .flipA => sAdd k A.flip B false
    | .flipB => sAdd k A B.flip false

/-- `S_mul(k, A, B) → A'`: the low half, the high half is discarded (43_sign_wrapper.md R163). -/
def sMul (k : Nat) (A B : Signed) : Signed :=
  sNorm (lMulw k A.mag B.mag).1 (A.neg ^^ B.neg)

/-- `S_div(k, A, B) → (A', R)`, or DivideByZero: the remainder has sign 0 (43_sign_wrapper.md R164). -/
def sDiv (A B : Signed) : Except CommandFault (Signed × Signed) :=
  match lDivmod A.mag B.mag with
  | .error f => .error f
  | .ok qr => .ok (sNorm qr.1 (A.neg ^^ B.neg), { mag := qr.2, neg := false })

/-- `S_eq(A, B)` (43_sign_wrapper.md R165). -/
def sEq (A B : Signed) : Bool := A.neg == B.neg && lEq A.mag B.mag

/-- `S_lt(A, B)`, by the four sign cases (43_sign_wrapper.md R165). -/
def sLt (A B : Signed) : Bool :=
  match A.neg, B.neg with
  | true, false => true
  | false, true => false
  | false, false => lLt A.mag B.mag
  | true, true => lLt B.mag A.mag

/-- `S_shl1(k, A, cin)`: on the magnitude, A's sign kept and zero normalised (43_sign_wrapper.md R166). -/
def sShl1 (k : Nat) (A : Signed) (cin : Bool) : Signed × Bool :=
  let r := lShl1 k A.mag cin
  (sNorm r.1 A.neg, r.2)

/-- `S_shr1(k, A, cin)` (43_sign_wrapper.md R166). -/
def sShr1 (k : Nat) (A : Signed) (cin : Bool) : Signed × Bool :=
  let r := lShr1 k A.mag cin
  (sNorm r.1 A.neg, r.2)

/-- `S_shln(k, A, n)` (43_sign_wrapper.md R166). -/
def sShln (k : Nat) (A : Signed) (n : Nat) : Signed × Option Bool :=
  let r := lShln k A.mag n
  (sNorm r.1 A.neg, r.2)

/-- `S_shrn(k, A, n)` (43_sign_wrapper.md R166). -/
def sShrn (k : Nat) (A : Signed) (n : Nat) : Signed × Option Bool :=
  let r := lShrn k A.mag n
  (sNorm r.1 A.neg, r.2)

/-- `S_and(k, A, B)`: B's sign is ignored (43_sign_wrapper.md R166). -/
def sAnd (A B : Signed) : Signed := sNorm (lAnd A.mag B.mag) A.neg

/-- `S_or(k, A, B)`: B's sign is ignored (43_sign_wrapper.md R166). -/
def sOr (A B : Signed) : Signed := sNorm (lOr A.mag B.mag) A.neg

/-- `S_xor(k, A, B)`: B's sign is ignored (43_sign_wrapper.md R166). -/
def sXor (A B : Signed) : Signed := sNorm (lXor A.mag B.mag) A.neg

end Sys2Proof.Machine
end

