-- ==== Sys2Proof/Machine/Operands.lean ====
section
/-! DEFINITION. What a command reads: views, effective signs, the selected carry-in, the LDI immediate; and the two
checks that come before any read, on the instance and on the register fields (spec 10_state.md, 30_encoding.md). -/

namespace Sys2Proof.Machine

/-- The magnitude field V[r] (10_state.md R10). -/
def Block.mag (b : Block) (r : Reg) : Nat := b.v[r.val]'r.isLt

/-- The sign bit N[r] (10_state.md R13). -/
def Block.neg (b : Block) (r : Reg) : Bool := b.n[r.val]'r.isLt

/-- The low `w` bits of V[r]: `Vk[r]` for w = W(k), the level-below view for w = H(k), a byte for w = 8 (10_state.md R11). -/
def Block.view (b : Block) (w : Nat) (r : Reg) : Nat := b.mag r % 2 ^ w

/-- The word view `V64[r]` (10_state.md R11). -/
def Block.word (b : Block) (r : Reg) : Word := BitVec.ofNat 64 (b.view 64 r)

/-- The sign of a view of `w` bits: N[r], forced to 0 when the view is 0. With w = W(k) it is `neg_k(r)`, the effective
sign (10_state.md R14). -/
def Block.effNeg (b : Block) (w : Nat) (r : Reg) : Bool := decide (b.view w r ≠ 0) && b.neg r

/-- A signed operand: the view of `w` bits and its effective sign (43_sign_wrapper.md part 2). -/
def Block.signed (b : Block) (w : Nat) (r : Reg) : Signed := { mag := b.view w r, neg := b.effNeg w r }

/-- The carry-in, borrow-in or shifted-in bit `cs` selects (30_encoding.md R52). -/
def Block.carryIn (b : Block) : CarrySel → Bool
  | .zero => false
  | .one => true
  | .cf => b.cf

/-- The LDI immediate: payload word j is bits 64j+63:64j (30_encoding.md R55, 20_memory.md R33). -/
def payloadValue : List Word → Nat
  | [] => 0
  | w :: ws => w.toNat + 2 ^ 64 * payloadValue ws

/-- The payload of an LDI has exactly 2^(k+1) words (30_encoding.md R55). -/
def payloadLegal (k : Level) (payload : List Word) : Bool := payload.length == payloadWords k.val

/-- The instance has the level: k ≤ KMAX (30_encoding.md R50). -/
def levelLegal (k : Level) (p : Params) : Bool := decide (k.val ≤ p.kmax)

/-- A register field that a command uses, and whether the command writes the register it names (30_encoding.md R58). -/
structure Field where
  reg : Reg
  written : Bool
deriving DecidableEq, Repr

/-- A field that names a written register (30_encoding.md R58). -/
def dst (r : Reg) : Field := { reg := r, written := true }

/-- A field that names a register only read (30_encoding.md R58). -/
def src (r : Reg) : Field := { reg := r, written := false }

/-- Two used fields name the same register and at least one of the two is written (30_encoding.md R58). -/
def aliasClash : List Field → Bool
  | [] => false
  | f :: fs => fs.any (fun g => f.reg == g.reg && (f.written || g.written)) || aliasClash fs

end Sys2Proof.Machine
end

