-- ==== Sys2Proof/Machine/Ops.lean ====
section
/-! DEFINITION. The operations every meaning is made of: writing a view and a sign, ending a command with OK or with a
fault, the order of execution of one command, reset, and the shapes that several commands share (spec 10_state.md,
30_encoding.md R47, 60_exceptions.md R193, R199). -/

namespace Sys2Proof.Machine

/-- V[r] is written whole. -/
def Block.setMag (b : Block) (r : Reg) (x : Nat) : Block := { b with v := b.v.set r.val x r.isLt }

/-- N[r] is written (10_state.md R13). -/
def Block.setNeg (b : Block) (r : Reg) (x : Bool) : Block := { b with n := b.n.set r.val x r.isLt }

/-- The view of `w` bits of V[r] is written, the bits above it are unchanged (10_state.md R11). -/
def Block.setView (b : Block) (w : Nat) (r : Reg) (x : Nat) : Block :=
  b.setMag r (b.mag r / 2 ^ w * 2 ^ w + x % 2 ^ w)

/-- The word view V64[r] is written (10_state.md R11). -/
def Block.setWord (b : Block) (r : Reg) (x : Word) : Block := b.setView 64 r x.toNat

/-- A signed result is written: the view of `w` bits and the sign bit (43_sign_wrapper.md part 2). -/
def Block.setSigned (b : Block) (w : Nat) (r : Reg) (x : Signed) : Block := (b.setView w r x.mag).setNeg r x.neg

/-- A command ends with status OK: its writes take effect all together (30_encoding.md R47 step 5). -/
def State.complete (s : State) (b : Block) : State := { s with block := b, status := some .ok }

/-- A command ends in a fault: the status is answered, no bit of the block changes, nothing is saved and no control is
transferred; the block is then ready for the next command, so there is no return (60_exceptions.md R193, R199, R200). -/
def State.raise (s : State) (f : CommandFault) : State := { s with status := some (.fault f) }

/-- The number the host receives for a status (60_exceptions.md R190, the table of codes). -/
def Status.code : Status → Nat
  | .ok => 0
  | .fault .divideByZero => 1
  | .fault .illegalCarry => 2
  | .fault .wordDivideOverflow => 3
  | .fault .illegalCommand => 4
  | .fault .operandAlias => 5

/-- Execution of one command: first its legality on this instance, then the alias check, then operands, precondition
and result from the block as it was before the command (30_encoding.md R47, 60_exceptions.md R197). -/
def perform (s : State) (legal : Bool) (fields : List Field) (body : Block → Except CommandFault Block) :
    Host.Outcome State Fault Refusal :=
  .next
    (if legal then
      if aliasClash fields then s.raise .operandAlias
      else
        match body s.block with
        | .error f => s.raise f
        | .ok b => s.complete b
    else s.raise .illegalCommand)

/-- Reset: the block is in its reset state and has answered no status; the parameters are the instance's and the host's
further moves are the host's (70_reset_and_hazards.md R215, R216; entry 5). -/
def State.applyReset (s : State) : State := { s with block := Block.reset, status := none }

/-- The host's next move, and the state with that move made (entry 3). -/
def State.takeMove (s : State) : Option (Move × State) :=
  match s.host with
  | [] => none
  | m :: rest => some (m, { s with host := rest })

/-- The state in which the host's next move is to present a command (entry 3). -/
def State.present (s : State) (c : Command) : State := { s with host := .command c :: s.host }

/-! Shapes of commands. -/

/-- ADC64, SBB64: two word views and a carry-in; the result to rd, the bit to CF (40_word_primitives.md R77, R78). -/
def wordCarry2 (f : Word → Word → Bool → Word × Bool) (cs : CarrySel) (rd rs : Reg) (s : State) :
    Host.Outcome State Fault Refusal :=
  perform s true [dst rd, src rs] fun b =>
    let r := f (b.word rd) (b.word rs) (b.carryIn cs)
    .ok ((b.setWord rd r.1).setCF r.2)

/-- RCL64, RCR64: one word view and a carry-in; the result to rd, the bit to CF (40_word_primitives.md R80, R81). -/
def wordCarry1 (f : Word → Bool → Word × Bool) (cs : CarrySel) (rd : Reg) (s : State) :
    Host.Outcome State Fault Refusal :=
  perform s true [dst rd] fun b =>
    let r := f (b.word rd) (b.carryIn cs)
    .ok ((b.setWord rd r.1).setCF r.2)

/-- ADD, SUB: two level views and a carry-in; the result to rd, the bit to CF (42_level_commands.md R130, R131). -/
def levelCarry2 (f : Nat → Nat → Bool → Nat × Bool) (k : Level) (cs : CarrySel) (rd rs : Reg) (s : State) :
    Host.Outcome State Fault Refusal :=
  perform s (levelLegal k s.params) [dst rd, src rs] fun b =>
    let r := f (b.view (width k) rd) (b.view (width k) rs) (b.carryIn cs)
    .ok ((b.setView (width k) rd r.1).setCF r.2)

/-- SHL1, SHR1: one level view and a carry-in; the result to rd, the bit to CF (42_level_commands.md R132, R133). -/
def levelCarry1 (f : Nat → Bool → Nat × Bool) (k : Level) (cs : CarrySel) (rd : Reg) (s : State) :
    Host.Outcome State Fault Refusal :=
  perform s (levelLegal k s.params) [dst rd] fun b =>
    let r := f (b.view (width k) rd) (b.carryIn cs)
    .ok ((b.setView (width k) rd r.1).setCF r.2)

/-- AND, OR, XOR: two level views, the result to rd, no flag (42_level_commands.md R137 to R139). -/
def levelBitwise (f : Nat → Nat → Nat) (k : Level) (rd rs : Reg) (s : State) : Host.Outcome State Fault Refusal :=
  perform s (levelLegal k s.params) [dst rd, src rs] fun b =>
    .ok (b.setView (width k) rd (f (b.view (width k) rd) (b.view (width k) rs)))

/-- SHLN, SHRN: a level view shifted by a count; CF is written when the count is not 0 (42_level_commands.md R140, R141). -/
def levelShift (f : Nat → Nat → Nat × Option Bool) (k : Level) (rd : Reg) (imm : BitVec 32) (s : State) :
    Host.Outcome State Fault Refusal :=
  perform s (levelLegal k s.params) [dst rd] fun b =>
    let r := f (b.view (width k) rd) imm.toNat
    .ok ((b.setView (width k) rd r.1).setShiftOut r.2)

/-- SADD, SSUB: two signed operands and a carry-in that must be 0; the result to rd, the overflow to CF
(43_sign_wrapper.md R170, R171). -/
def signedCarry2 (f : Signed → Signed → Bool → Except CommandFault (Signed × Bool)) (k : Level) (cs : CarrySel)
    (rd rs : Reg) (s : State) : Host.Outcome State Fault Refusal :=
  perform s (levelLegal k s.params) [dst rd, src rs] fun b =>
    match f (b.signed (width k) rd) (b.signed (width k) rs) (b.carryIn cs) with
    | .error e => .error e
    | .ok r => .ok ((b.setSigned (width k) rd r.1).setCF r.2)

/-- SSHL1, SSHR1: one signed operand and a carry-in; the result to rd, the bit to CF (43_sign_wrapper.md R175, R176). -/
def signedCarry1 (f : Signed → Bool → Signed × Bool) (k : Level) (cs : CarrySel) (rd : Reg) (s : State) :
    Host.Outcome State Fault Refusal :=
  perform s (levelLegal k s.params) [dst rd] fun b =>
    let r := f (b.signed (width k) rd) (b.carryIn cs)
    .ok ((b.setSigned (width k) rd r.1).setCF r.2)

/-- SMUL, SAND, SOR, SXOR: two signed operands, the result to rd, no flag (43_sign_wrapper.md R172, R179 to R181). -/
def signedBinary (f : Signed → Signed → Signed) (k : Level) (rd rs : Reg) (s : State) :
    Host.Outcome State Fault Refusal :=
  perform s (levelLegal k s.params) [dst rd, src rs] fun b =>
    .ok (b.setSigned (width k) rd (f (b.signed (width k) rd) (b.signed (width k) rs)))

/-- SSHLN, SSHRN: a signed operand shifted by a count; CF is written when the count is not 0
(43_sign_wrapper.md R177, R178). -/
def signedShift (f : Signed → Nat → Signed × Option Bool) (k : Level) (rd : Reg) (imm : BitVec 32) (s : State) :
    Host.Outcome State Fault Refusal :=
  perform s (levelLegal k s.params) [dst rd] fun b =>
    let r := f (b.signed (width k) rd) imm.toNat
    .ok ((b.setSigned (width k) rd r.1).setShiftOut r.2)

/-- CMP, SCMP: two operands compared, no register written (42_level_commands.md R136, 43_sign_wrapper.md R174). -/
def compareShape (eq lt : Block → Bool) (k : Level) (rd rs : Reg) (s : State) : Host.Outcome State Fault Refusal :=
  perform s (levelLegal k s.params) [src rd, src rs] fun b => .ok (b.setCompare (eq b) (lt b))

/-- LDI, LDS: a value and a sign from the command to rd; `legal` is the form check of the payload
(42_level_commands.md R142, R143). -/
def loadShape (legal : Bool) (k : Level) (rd : Reg) (x : Signed) (s : State) : Host.Outcome State Fault Refusal :=
  perform s (levelLegal k s.params && legal) [dst rd] fun b => .ok (b.setSigned (width k) rd x)

/-- LIFT, COPY, LOWB: a value and a sign from rs to rd (42_level_commands.md R144 to R146). -/
def moveShape (f : Block → Signed) (k : Level) (rd rs : Reg) (s : State) : Host.Outcome State Fault Refusal :=
  perform s (levelLegal k s.params) [dst rd, src rs] fun b => .ok (b.setSigned (width k) rd (f b))

end Sys2Proof.Machine
end

