-- ==== Sys2Proof/Machine/DataCommands.lean ====
section
/-! DEFINITION. The meanings of the data commands (spec 42_level_commands.md section 4). None reads or writes a flag;
each writes the sign bit of rd, normalised on a zero view (10_state.md R15). -/

namespace Sys2Proof.Machine

/-- LDI: the payload and the sign `sg`; a wrong payload length is IllegalCommand (42_level_commands.md R142). -/
def execLdi (k : Level) (rd : Reg) (sg : Bool) (payload : List Word) (s : State) : Host.Outcome State Fault Refusal :=
  loadShape (payloadLegal k payload) k rd (sNorm (payloadValue payload) sg) s

/-- LDS: the small integer, zero-extended, with sign 0 (42_level_commands.md R143). -/
def execLds (k : Level) (rd : Reg) (imm : BitVec 32) (s : State) : Host.Outcome State Fault Refusal :=
  loadShape true k rd { mag := imm.toNat, neg := false } s

/-- LIFT: the H(k)-bit view of rs, zero-extended; its sign is carried over unless that view is zero
(42_level_commands.md R144). -/
def execLift (k : Level) (rd rs : Reg) (s : State) : Host.Outcome State Fault Refusal :=
  moveShape (fun b => b.signed (halfWidth k) rs) k rd rs s

/-- COPY: the level-k view of rs and its effective sign (42_level_commands.md R145). -/
def execCopy (k : Level) (rd rs : Reg) (s : State) : Host.Outcome State Fault Refusal :=
  moveShape (fun b => b.signed (width k) rs) k rd rs s

/-- LOWB: bits 7:0 of rs, zero-extended, with sign 0 (42_level_commands.md R146). -/
def execLowb (k : Level) (rd rs : Reg) (s : State) : Host.Outcome State Fault Refusal :=
  moveShape (fun b => { mag := b.view 8 rs, neg := false }) k rd rs s

end Sys2Proof.Machine
end

