-- ==== Sys2Proof/Machine/LevelCommands.lean ====
section
/-! DEFINITION. The meanings of the unsigned level commands (spec 42_level_commands.md sections 1 to 3). They neither
read nor write a sign bit (R129). -/

namespace Sys2Proof.Machine

/-- ADD (42_level_commands.md R130). -/
def execAdd (k : Level) (cs : CarrySel) (rd rs : Reg) (s : State) : Host.Outcome State Fault Refusal :=
  levelCarry2 (lAdd k) k cs rd rs s

/-- SUB (42_level_commands.md R131). -/
def execSub (k : Level) (cs : CarrySel) (rd rs : Reg) (s : State) : Host.Outcome State Fault Refusal :=
  levelCarry2 (lSub k) k cs rd rs s

/-- SHL1 (42_level_commands.md R132). -/
def execShl1 (k : Level) (cs : CarrySel) (rd : Reg) (s : State) : Host.Outcome State Fault Refusal :=
  levelCarry1 (lShl1 k) k cs rd s

/-- SHR1 (42_level_commands.md R133). -/
def execShr1 (k : Level) (cs : CarrySel) (rd : Reg) (s : State) : Host.Outcome State Fault Refusal :=
  levelCarry1 (lShr1 k) k cs rd s

/-- MULW: low half to rd, high half to rt (42_level_commands.md R134). -/
def execMulw (k : Level) (rd rs rt : Reg) (s : State) : Host.Outcome State Fault Refusal :=
  perform s (levelLegal k s.params) [dst rd, src rs, dst rt] fun b =>
    let r := lMulw k (b.view (width k) rd) (b.view (width k) rs)
    .ok ((b.setView (width k) rd r.1).setView (width k) rt r.2)

/-- DIVMOD: quotient to rd, remainder to rt (42_level_commands.md R135). -/
def execDivmod (k : Level) (rd rs rt : Reg) (s : State) : Host.Outcome State Fault Refusal :=
  perform s (levelLegal k s.params) [dst rd, src rs, dst rt] fun b =>
    match lDivmod (b.view (width k) rd) (b.view (width k) rs) with
    | .error f => .error f
    | .ok r => .ok ((b.setView (width k) rd r.1).setView (width k) rt r.2)

/-- CMP: no register is written (42_level_commands.md R136). -/
def execCmp (k : Level) (rd rs : Reg) (s : State) : Host.Outcome State Fault Refusal :=
  compareShape (fun b => lEq (b.view (width k) rd) (b.view (width k) rs))
    (fun b => lLt (b.view (width k) rd) (b.view (width k) rs)) k rd rs s

/-- AND (42_level_commands.md R137). -/
def execAnd (k : Level) (rd rs : Reg) (s : State) : Host.Outcome State Fault Refusal :=
  levelBitwise lAnd k rd rs s

/-- OR (42_level_commands.md R138). -/
def execOr (k : Level) (rd rs : Reg) (s : State) : Host.Outcome State Fault Refusal :=
  levelBitwise lOr k rd rs s

/-- XOR (42_level_commands.md R139). -/
def execXor (k : Level) (rd rs : Reg) (s : State) : Host.Outcome State Fault Refusal :=
  levelBitwise lXor k rd rs s

/-- SHLN (42_level_commands.md R140). -/
def execShln (k : Level) (rd : Reg) (imm : BitVec 32) (s : State) : Host.Outcome State Fault Refusal :=
  levelShift (lShln k) k rd imm s

/-- SHRN (42_level_commands.md R141). -/
def execShrn (k : Level) (rd : Reg) (imm : BitVec 32) (s : State) : Host.Outcome State Fault Refusal :=
  levelShift (lShrn k) k rd imm s

end Sys2Proof.Machine
end

