-- ==== Sys2Proof/Machine/SignedCommands.lean ====
section
/-! DEFINITION. The meanings of the sign-wrapper commands (spec 43_sign_wrapper.md part 2). Operands are read through the
effective sign (10_state.md R14), and N[rs] is never written. -/

namespace Sys2Proof.Machine

/-- SADD (43_sign_wrapper.md R170). -/
def execSadd (k : Level) (cs : CarrySel) (rd rs : Reg) (s : State) : Host.Outcome State Fault Refusal :=
  signedCarry2 (sAdd k) k cs rd rs s

/-- SSUB, by the instance's SSUB_MODE (43_sign_wrapper.md R171). -/
def execSsub (k : Level) (cs : CarrySel) (rd rs : Reg) (s : State) : Host.Outcome State Fault Refusal :=
  signedCarry2 (sSub s.params.ssubMode k) k cs rd rs s

/-- SMUL (43_sign_wrapper.md R172). -/
def execSmul (k : Level) (rd rs : Reg) (s : State) : Host.Outcome State Fault Refusal :=
  signedBinary (sMul k) k rd rs s

/-- SDIV: quotient to rd, remainder with sign 0 to rt (43_sign_wrapper.md R173). -/
def execSdiv (k : Level) (rd rs rt : Reg) (s : State) : Host.Outcome State Fault Refusal :=
  perform s (levelLegal k s.params) [dst rd, src rs, dst rt] fun b =>
    match sDiv (b.signed (width k) rd) (b.signed (width k) rs) with
    | .error f => .error f
    | .ok r => .ok ((b.setSigned (width k) rd r.1).setSigned (width k) rt r.2)

/-- SCMP: no register is written (43_sign_wrapper.md R174). -/
def execScmp (k : Level) (rd rs : Reg) (s : State) : Host.Outcome State Fault Refusal :=
  compareShape (fun b => sEq (b.signed (width k) rd) (b.signed (width k) rs))
    (fun b => sLt (b.signed (width k) rd) (b.signed (width k) rs)) k rd rs s

/-- SSHL1 (43_sign_wrapper.md R175). -/
def execSshl1 (k : Level) (cs : CarrySel) (rd : Reg) (s : State) : Host.Outcome State Fault Refusal :=
  signedCarry1 (sShl1 k) k cs rd s

/-- SSHR1 (43_sign_wrapper.md R176). -/
def execSshr1 (k : Level) (cs : CarrySel) (rd : Reg) (s : State) : Host.Outcome State Fault Refusal :=
  signedCarry1 (sShr1 k) k cs rd s

/-- SSHLN (43_sign_wrapper.md R177). -/
def execSshln (k : Level) (rd : Reg) (imm : BitVec 32) (s : State) : Host.Outcome State Fault Refusal :=
  signedShift (sShln k) k rd imm s

/-- SSHRN (43_sign_wrapper.md R178). -/
def execSshrn (k : Level) (rd : Reg) (imm : BitVec 32) (s : State) : Host.Outcome State Fault Refusal :=
  signedShift (sShrn k) k rd imm s

/-- SAND (43_sign_wrapper.md R179). -/
def execSand (k : Level) (rd rs : Reg) (s : State) : Host.Outcome State Fault Refusal :=
  signedBinary sAnd k rd rs s

/-- SOR (43_sign_wrapper.md R180). -/
def execSor (k : Level) (rd rs : Reg) (s : State) : Host.Outcome State Fault Refusal :=
  signedBinary sOr k rd rs s

/-- SXOR (43_sign_wrapper.md R181). -/
def execSxor (k : Level) (rd rs : Reg) (s : State) : Host.Outcome State Fault Refusal :=
  signedBinary sXor k rd rs s

end Sys2Proof.Machine
end

