-- ==== Sys2Proof/Machine/WordCommands.lean ====
section
/-! DEFINITION. The meanings of the word-primitive commands (spec 40_word_primitives.md part 2). They work on the word
views, whatever KMAX is, and never touch a sign bit, EQ or LT. -/

namespace Sys2Proof.Machine

/-- ADC64 (40_word_primitives.md R77). -/
def execAdc64 (cs : CarrySel) (rd rs : Reg) (s : State) : Host.Outcome State Fault Refusal :=
  wordCarry2 adc64 cs rd rs s

/-- SBB64 (40_word_primitives.md R78). -/
def execSbb64 (cs : CarrySel) (rd rs : Reg) (s : State) : Host.Outcome State Fault Refusal :=
  wordCarry2 sbb64 cs rd rs s

/-- MULW64: low word to rd, high word to rt (40_word_primitives.md R79). -/
def execMulw64 (rd rs rt : Reg) (s : State) : Host.Outcome State Fault Refusal :=
  perform s true [dst rd, src rs, dst rt] fun b =>
    let r := mulw64 (b.word rd) (b.word rs)
    .ok ((b.setWord rd r.1).setWord rt r.2)

/-- RCL64 (40_word_primitives.md R80). -/
def execRcl64 (cs : CarrySel) (rd : Reg) (s : State) : Host.Outcome State Fault Refusal :=
  wordCarry1 rcl64 cs rd s

/-- RCR64 (40_word_primitives.md R81). -/
def execRcr64 (cs : CarrySel) (rd : Reg) (s : State) : Host.Outcome State Fault Refusal :=
  wordCarry1 rcr64 cs rd s

/-- DIVW64, only where the instance has it: dividend high word in rt and low word in rd, divisor in rs; quotient to rd,
remainder to rt (40_word_primitives.md R82). -/
def execDivw64 (rd rs rt : Reg) (s : State) : Host.Outcome State Fault Refusal :=
  perform s s.params.hasDivw64 [dst rd, src rs, dst rt] fun b =>
    match divw64 (b.word rt) (b.word rd) (b.word rs) with
    | .error f => .error f
    | .ok r => .ok ((b.setWord rd r.1).setWord rt r.2)

end Sys2Proof.Machine
end

