-- ==== Sys2Proof/Machine/Dispatch.lean ====
section
/-! DEFINITION. The meaning of every command of the opcode table, one arm per constructor (spec 30_encoding.md R48). -/

namespace Sys2Proof.Machine

/-- The command's meaning: what the block does with it and the status it answers. -/
def exec (i : Instr) (s : State) : Host.Outcome State Fault Refusal :=
  match i with
  -- Word primitives (40_word_primitives.md R77 to R82).
  | .adc64 cs rd rs => Sys2Proof.Machine.execAdc64 cs rd rs s
  | .sbb64 cs rd rs => Sys2Proof.Machine.execSbb64 cs rd rs s
  | .mulw64 rd rs rt => Sys2Proof.Machine.execMulw64 rd rs rt s
  | .rcl64 cs rd => Sys2Proof.Machine.execRcl64 cs rd s
  | .rcr64 cs rd => Sys2Proof.Machine.execRcr64 cs rd s
  | .divw64 rd rs rt => Sys2Proof.Machine.execDivw64 rd rs rt s
  -- Unsigned level commands (42_level_commands.md R130 to R141).
  | .add k cs rd rs => Sys2Proof.Machine.execAdd k cs rd rs s
  | .sub k cs rd rs => Sys2Proof.Machine.execSub k cs rd rs s
  | .shl1 k cs rd => Sys2Proof.Machine.execShl1 k cs rd s
  | .shr1 k cs rd => Sys2Proof.Machine.execShr1 k cs rd s
  | .mulw k rd rs rt => Sys2Proof.Machine.execMulw k rd rs rt s
  | .divmod k rd rs rt => Sys2Proof.Machine.execDivmod k rd rs rt s
  | .cmp k rd rs => Sys2Proof.Machine.execCmp k rd rs s
  | .and k rd rs => Sys2Proof.Machine.execAnd k rd rs s
  | .or k rd rs => Sys2Proof.Machine.execOr k rd rs s
  | .xor k rd rs => Sys2Proof.Machine.execXor k rd rs s
  | .shln k rd imm => Sys2Proof.Machine.execShln k rd imm s
  | .shrn k rd imm => Sys2Proof.Machine.execShrn k rd imm s
  -- Data commands (42_level_commands.md R142 to R146).
  | .ldi k rd sg payload => Sys2Proof.Machine.execLdi k rd sg payload s
  | .lds k rd imm => Sys2Proof.Machine.execLds k rd imm s
  | .lift k rd rs => Sys2Proof.Machine.execLift k rd rs s
  | .copy k rd rs => Sys2Proof.Machine.execCopy k rd rs s
  | .lowb k rd rs => Sys2Proof.Machine.execLowb k rd rs s
  -- Sign wrapper (43_sign_wrapper.md R170 to R181).
  | .sadd k cs rd rs => Sys2Proof.Machine.execSadd k cs rd rs s
  | .ssub k cs rd rs => Sys2Proof.Machine.execSsub k cs rd rs s
  | .sshl1 k cs rd => Sys2Proof.Machine.execSshl1 k cs rd s
  | .sshr1 k cs rd => Sys2Proof.Machine.execSshr1 k cs rd s
  | .smul k rd rs => Sys2Proof.Machine.execSmul k rd rs s
  | .sdiv k rd rs rt => Sys2Proof.Machine.execSdiv k rd rs rt s
  | .scmp k rd rs => Sys2Proof.Machine.execScmp k rd rs s
  | .sand k rd rs => Sys2Proof.Machine.execSand k rd rs s
  | .sor k rd rs => Sys2Proof.Machine.execSor k rd rs s
  | .sxor k rd rs => Sys2Proof.Machine.execSxor k rd rs s
  | .sshln k rd imm => Sys2Proof.Machine.execSshln k rd imm s
  | .sshrn k rd imm => Sys2Proof.Machine.execSshrn k rd imm s

end Sys2Proof.Machine
end

