-- ==== Sys2Proof/Machine/Step.lean ====
section
/-! DEFINITION. One step: the host makes its next move and the block answers (spec 10_state.md R18, 20_memory.md R36,
30_encoding.md R47, 70_reset_and_hazards.md R215). The block does not fetch; what it executes is what the host presents. -/

namespace Sys2Proof.Machine

/-- The block with a command before it: an undecodable one is IllegalCommand (30_encoding.md R47, R57). -/
def State.execute (s : State) (c : Command) : Host.Outcome State Fault Refusal :=
  match decode c with
  | .ok i => exec i s
  | .error _ => .next (s.raise .illegalCommand)

/-- One step of the machine. With no further move of the host the block idles (entry 3). -/
def step (s : State) : Host.Outcome State Fault Refusal :=
  match s.takeMove with
  | none => .next s
  | some (.command c, s') => s'.execute c
  | some (.reset, s') => .next s'.applyReset
  | some (.resetDuring _, s') => .next s'.applyReset

/-- The state in which the host presents, as its very next move, the command whose bits are `w` (entry 3). -/
def State.withFetchWord (s : State) (nbits w : Nat) : State := s.present (tableCommand nbits w)

end Sys2Proof.Machine
end

