-- ==== Sys2Proof/Machine/Pseudo.lean ====
section
/-! DEFINITION. The pseudo-instructions: the command sequences that stand for the source's operators, and what the host
reads off after a comparison (spec 30_encoding.md R61 to R65). They add nothing to the block. -/

namespace Sys2Proof.Machine

/-- A sequence of instructions executed one after the other, stopping at the first status that is not OK
(70_reset_and_hazards.md R222). After a sequence of none `status` is what it was before (DESIGN CHOICE, entry 17). -/
def execAll : List Instr → State → State
  | [], s => s
  | i :: is, s =>
    match exec i s with
    | .next t => if t.status = some .ok then execAll is t else t
    | .fault _ => s
    | .refused _ => s

/-- `ZERO.k rd` (30_encoding.md R61). -/
def pseudoZero (k : Level) (rd : Reg) : List Instr := [.lds k rd 0]

/-- `c = a + b` (30_encoding.md R62). -/
def pseudoAdd (k : Level) (c a b : Reg) : List Instr := [.copy k c a, .add k .zero c b]

/-- `c = a − b` (30_encoding.md R62). -/
def pseudoSub (k : Level) (c a b : Reg) : List Instr := [.copy k c a, .sub k .zero c b]

/-- `c = a × b`, t receives the high half (30_encoding.md R62). -/
def pseudoMul (k : Level) (c a b t : Reg) : List Instr := [.copy k c a, .mulw k c b t]

/-- `c = a ÷ b`, t receives the remainder (30_encoding.md R62). -/
def pseudoDiv (k : Level) (c a b t : Reg) : List Instr := [.copy k c a, .divmod k c b t]

/-- `c = a mod b`, t receives the quotient (30_encoding.md R62). -/
def pseudoMod (k : Level) (c a b t : Reg) : List Instr := [.copy k t a, .divmod k t b c]

/-- Signed `c = a + b` (30_encoding.md R62). -/
def pseudoSadd (k : Level) (c a b : Reg) : List Instr := [.copy k c a, .sadd k .zero c b]

/-- Signed `c = a − b`, by SSUB_MODE (30_encoding.md R62). -/
def pseudoSsub (k : Level) (c a b : Reg) : List Instr := [.copy k c a, .ssub k .zero c b]

/-- Signed `c = a × b` (30_encoding.md R62). -/
def pseudoSmul (k : Level) (c a b : Reg) : List Instr := [.copy k c a, .smul k c b]

/-- Signed `c = a ÷ b`, t receives the remainder (30_encoding.md R62). -/
def pseudoSdiv (k : Level) (c a b t : Reg) : List Instr := [.copy k c a, .sdiv k c b t]

/-- Signed `c = a mod b`, t receives the quotient (30_encoding.md R62). -/
def pseudoSmod (k : Level) (c a b t : Reg) : List Instr := [.copy k t a, .sdiv k t b c]

/-- `a & n` with a small integer, t a scratch register (30_encoding.md R64). -/
def pseudoAndSmall (k : Level) (a t : Reg) (n : BitVec 32) : List Instr := [.lds k t n, .and k a t]

/-- `a | n` with a small integer (30_encoding.md R64). -/
def pseudoOrSmall (k : Level) (a t : Reg) (n : BitVec 32) : List Instr := [.lds k t n, .or k a t]

/-- `a ^ n` with a small integer (30_encoding.md R64). -/
def pseudoXorSmall (k : Level) (a t : Reg) (n : BitVec 32) : List Instr := [.lds k t n, .xor k a t]

/-- A multi-bit left shift as single shifts (30_encoding.md R65). -/
def pseudoShl (k : Level) (rd : Reg) (n : Nat) : List Instr := List.replicate n (.shl1 k .zero rd)

/-- A multi-bit right shift as single shifts (30_encoding.md R65). -/
def pseudoShr (k : Level) (rd : Reg) (n : Nat) : List Instr := List.replicate n (.shr1 k .zero rd)

/-- The six relations the host reads off the flags after CMP or SCMP (30_encoding.md R63). -/
inductive Relation where
  | eq | ne | lt | le | gt | ge
deriving DecidableEq, Repr

/-- What the host computes from EQ and LT for a relation (30_encoding.md R63). -/
def Block.readOff (b : Block) : Relation → Bool
  | .eq => b.eq
  | .ne => !b.eq
  | .lt => b.lt
  | .le => b.lt || b.eq
  | .gt => !b.lt && !b.eq
  | .ge => !b.lt

end Sys2Proof.Machine
end

