-- ==== Sys2Proof/Machine/Structure.lean ====
section
/-! DEFINITION. How a level builds its operations from the level below: Base128 from the word primitives, the Doubler
from the level under it (spec 41_level_functions.md R92 to R95, R97, R98, R104, the structures). Not architectural
(R99): the commands compute the contracts of Machine/Levels.lean, and the obligations say that the two agree. -/

namespace Sys2Proof.Machine

/-- `adc64` on words given as natural numbers: the `lo_add` of level 0. -/
def wordAdd (a b : Nat) (cin : Bool) : Nat × Bool :=
  let r := adc64 (BitVec.ofNat 64 a) (BitVec.ofNat 64 b) cin
  (r.1.toNat, r.2)

/-- `sbb64` on words given as natural numbers: the `lo_sub` of level 0. -/
def wordSub (a b : Nat) (bin : Bool) : Nat × Bool :=
  let r := sbb64 (BitVec.ofNat 64 a) (BitVec.ofNat 64 b) bin
  (r.1.toNat, r.2)

/-- `mulw64` on words given as natural numbers: the `lo_mulw` of level 0. -/
def wordMul (a b : Nat) : Nat × Nat :=
  let r := mulw64 (BitVec.ofNat 64 a) (BitVec.ofNat 64 b)
  (r.1.toNat, r.2.toNat)

/-- `rcl64` on a word given as a natural number: the `lo_shl1` of level 0. -/
def wordShl1 (a : Nat) (cin : Bool) : Nat × Bool :=
  let r := rcl64 (BitVec.ofNat 64 a) cin
  (r.1.toNat, r.2)

/-- `rcr64` on a word given as a natural number: the `lo_shr1` of level 0. -/
def wordShr1 (a : Nat) (cin : Bool) : Nat × Bool :=
  let r := rcr64 (BitVec.ofNat 64 a) cin
  (r.1.toNat, r.2)

/-- Two calls of the lower routine on halves of `h` bits, the bit threaded from the Lo half to the Hi half
(41_level_functions.md R92, R93). -/
def threadUp2 (h : Nat) (lo : Nat → Nat → Bool → Nat × Bool) (a b : Nat) (cin : Bool) : Nat × Bool :=
  let l := lo (a % 2 ^ h) (b % 2 ^ h) cin
  let u := lo (a / 2 ^ h) (b / 2 ^ h) l.2
  (u.1 * 2 ^ h + l.1, u.2)

/-- Two calls of the lower shift, the Lo half first (41_level_functions.md R94). -/
def threadUp1 (h : Nat) (lo : Nat → Bool → Nat × Bool) (a : Nat) (cin : Bool) : Nat × Bool :=
  let l := lo (a % 2 ^ h) cin
  let u := lo (a / 2 ^ h) l.2
  (u.1 * 2 ^ h + l.1, u.2)

/-- Two calls of the lower shift, the Hi half first (41_level_functions.md R95). -/
def threadDown1 (h : Nat) (lo : Nat → Bool → Nat × Bool) (a : Nat) (cin : Bool) : Nat × Bool :=
  let u := lo (a / 2 ^ h) cin
  let l := lo (a % 2 ^ h) u.2
  (u.1 * 2 ^ h + l.1, l.2)

/-- `L_add`, structure (41_level_functions.md R92). -/
def structAdd : Nat → Nat → Nat → Bool → Nat × Bool
  | 0 => threadUp2 (halfWidth 0) wordAdd
  | k + 1 => threadUp2 (halfWidth (k + 1)) (structAdd k)

/-- `L_sub`, structure (41_level_functions.md R93). -/
def structSub : Nat → Nat → Nat → Bool → Nat × Bool
  | 0 => threadUp2 (halfWidth 0) wordSub
  | k + 1 => threadUp2 (halfWidth (k + 1)) (structSub k)

/-- `L_shl1`, structure (41_level_functions.md R94). -/
def structShl1 : Nat → Nat → Bool → Nat × Bool
  | 0 => threadUp1 (halfWidth 0) wordShl1
  | k + 1 => threadUp1 (halfWidth (k + 1)) (structShl1 k)

/-- `L_shr1`, structure (41_level_functions.md R95). -/
def structShr1 : Nat → Nat → Bool → Nat × Bool
  | 0 => threadDown1 (halfWidth 0) wordShr1
  | k + 1 => threadDown1 (halfWidth (k + 1)) (structShr1 k)

/-- The schoolbook product of two values with halves of `h` bits: four partial products, two columns, the summations in
the order the spec fixes (41_level_functions.md R97; the names are the rule's). -/
def schoolbook (h : Nat) (add : Nat → Nat → Bool → Nat × Bool) (mul : Nat → Nat → Nat × Nat) (A B : Nat) : Nat × Nat :=
  let a := A / 2 ^ h
  let b := A % 2 ^ h
  let c := B / 2 ^ h
  let d := B % 2 ^ h
  let zy := mul b d
  let p1 := mul a d
  let p2 := mul b c
  let p3 := mul a c
  let y1 := add zy.2 p1.1 false
  let x1 := add p1.2 p2.2 y1.2
  let y2 := add y1.1 p2.1 false
  let x2 := add x1.1 p3.1 y2.2
  let w := add p3.2 x1.2.toNat x2.2
  (y2.1 * 2 ^ h + zy.1, w.1 * 2 ^ h + x2.1)

/-- `L_mulw`, structure (41_level_functions.md R97). -/
def structMul : Nat → Nat → Nat → Nat × Nat
  | 0 => schoolbook (halfWidth 0) wordAdd wordMul
  | k + 1 => schoolbook (halfWidth (k + 1)) (structAdd k) (structMul k)

/-- One round of restoring division at level k on (quotient, remainder) (41_level_functions.md R98). -/
def divRound (k b : Nat) (qr : Nat × Nat) : Nat × Nat :=
  let q := structShl1 k qr.1 false
  let r := structShl1 k qr.2 q.2
  if lLt r.1 b then (q.1, r.1) else (q.1 ||| 1, (structSub k r.1 b false).1)

/-- `n` rounds of restoring division (41_level_functions.md R98). -/
def divRounds (k b : Nat) : Nat → Nat × Nat → Nat × Nat
  | 0, qr => qr
  | n + 1, qr => divRounds k b n (divRound k b qr)

/-- `L_divmod`, structure: W(k) rounds from quotient = a, remainder = 0 (41_level_functions.md R98). -/
def structDivmod (k a b : Nat) : Except CommandFault (Nat × Nat) :=
  if b = 0 then .error .divideByZero else .ok (divRounds k b (width k) (a, 0))

/-- Unsigned order by halves of level k: the Hi halves decide, then the Lo halves (41_level_functions.md R100, derived). -/
def lexLt (k a b : Nat) : Bool :=
  let h := halfWidth k
  decide (a / 2 ^ h < b / 2 ^ h) || (a / 2 ^ h == b / 2 ^ h && decide (a % 2 ^ h < b % 2 ^ h))

/-- `n` single left shifts with zeros shifted in, and the bit the last one moved out (41_level_functions.md R104). -/
def shlIter (k : Nat) : Nat → Nat × Option Bool → Nat × Option Bool
  | 0, x => x
  | n + 1, x => shlIter k n ((lShl1 k x.1 false).1, some (lShl1 k x.1 false).2)

/-- `n` single right shifts with zeros shifted in, and the bit the last one moved out (41_level_functions.md R104). -/
def shrIter (k : Nat) : Nat → Nat × Option Bool → Nat × Option Bool
  | 0, x => x
  | n + 1, x => shrIter k n ((lShr1 k x.1 false).1, some (lShr1 k x.1 false).2)

end Sys2Proof.Machine
end

