-- ==== Sys2Proof/Safety.lean ====
section
/-! DEFINITION. The terms the statements use: what a well-sized state is, what a run is, and, written from the spec's own
tables and not from the meanings, which registers, signs and flags a command may touch, on which instance it exists, when
its register fields clash and which fault its own precondition raises. -/

namespace Sys2Proof.Machine

/-- Every magnitude field holds a number of WMAX = W(KMAX) bits (10_state.md R10, R12; entry 6). -/
abbrev Block.fits (b : Block) (p : Params) : Prop := ∀ r : Reg, b.mag r < 2 ^ width p.kmax

/-- The invariant of every state the machine reaches: registers are as wide as the instance makes them. -/
abbrev State.Inv (s : State) : Prop := s.block.fits s.params

/-- No register holds a negative zero over its whole width (41_level_functions.md, 43_sign_wrapper.md R160). -/
abbrev Block.canonical (b : Block) : Prop := ∀ r : Reg, b.neg r = true → b.mag r ≠ 0

/-- What a command may change: the magnitudes of `regs`, only below bit `w`; the signs of `signs`; CF if `cf`; EQ and LT if
`cmp`. Everything else keeps its value (10_state.md R11, R13, R16). -/
def Block.changesOnly (b b' : Block) (w : Nat) (regs signs : List Reg) (cf cmp : Bool) : Prop :=
  (∀ r, r ∉ regs → b'.mag r = b.mag r) ∧
  (∀ r, b'.mag r / 2 ^ w = b.mag r / 2 ^ w) ∧
  (∀ r, r ∉ signs → b'.neg r = b.neg r) ∧
  (cf = false → b'.cf = b.cf) ∧
  (cmp = false → b'.eq = b.eq ∧ b'.lt = b.lt)

/-- A run: commands presented one after the other, ended by the end of the list or by the first status that is not OK
(70_reset_and_hazards.md R222, 60_exceptions.md R200). Its result is the final state, the last status in it. The spec gives the
run of no commands no last status: here `status` stays what it was at the start (DESIGN CHOICE, entry 17). -/
def runCommands : List Command → State → State
  | [], s => s
  | c :: cs, s =>
    match step (s.present c) with
    | .next t => if t.status = some .ok then runCommands cs t else t
    | .fault _ => s
    | .refused _ => s

end Sys2Proof.Machine

namespace Sys2Proof

open Machine

/-- The level of a command; the word primitives have none (30_encoding.md R50). -/
def Instr.level? : Instr → Option Level
  | .adc64 .. | .sbb64 .. | .mulw64 .. | .rcl64 .. | .rcr64 .. | .divw64 .. => none
  | .add k .. | .sub k .. | .shl1 k .. | .shr1 k .. | .mulw k .. | .divmod k .. | .cmp k .. | .and k .. | .or k ..
  | .xor k .. | .shln k .. | .shrn k .. | .ldi k .. | .lds k .. | .lift k .. | .copy k .. | .lowb k ..
  | .sadd k .. | .ssub k .. | .sshl1 k .. | .sshr1 k .. | .smul k .. | .sdiv k .. | .scmp k .. | .sand k ..
  | .sor k .. | .sxor k .. | .sshln k .. | .sshrn k .. => some k

/-- The width of the view a command works on: 64 bits, or W(k) (30_encoding.md section 5). -/
def Instr.viewWidth (i : Instr) : Nat :=
  match i.level? with
  | none => 64
  | some k => width k.val

/-- The register fields a command uses, each with whether its register is written (30_encoding.md R48, R58). -/
def Instr.usedFields : Instr → List (Reg × Bool)
  | .cmp _ rd rs | .scmp _ rd rs => [(rd, false), (rs, false)]
  | .rcl64 _ rd | .rcr64 _ rd | .shl1 _ _ rd | .shr1 _ _ rd | .sshl1 _ _ rd | .sshr1 _ _ rd
  | .shln _ rd _ | .shrn _ rd _ | .sshln _ rd _ | .sshrn _ rd _ | .ldi _ rd _ _ | .lds _ rd _ => [(rd, true)]
  | .adc64 _ rd rs | .sbb64 _ rd rs | .add _ _ rd rs | .sub _ _ rd rs | .sadd _ _ rd rs | .ssub _ _ rd rs
  | .and _ rd rs | .or _ rd rs | .xor _ rd rs | .lift _ rd rs | .copy _ rd rs | .lowb _ rd rs
  | .smul _ rd rs | .sand _ rd rs | .sor _ rd rs | .sxor _ rd rs => [(rd, true), (rs, false)]
  | .mulw64 rd rs rt | .divw64 rd rs rt | .mulw _ rd rs rt | .divmod _ rd rs rt | .sdiv _ rd rs rt =>
    [(rd, true), (rs, false), (rt, true)]

/-- The registers whose magnitude a command writes (30_encoding.md section 5). -/
def Instr.regsWritten (i : Instr) : List Reg := (i.usedFields.filter (fun f => f.2)).map (fun f => f.1)

/-- The registers whose sign bit a command writes (30_encoding.md section 5). -/
def Instr.signsWritten : Instr → List Reg
  | .adc64 .. | .sbb64 .. | .mulw64 .. | .rcl64 .. | .rcr64 .. | .divw64 ..
  | .add .. | .sub .. | .shl1 .. | .shr1 .. | .mulw .. | .divmod .. | .cmp .. | .and .. | .or .. | .xor ..
  | .shln .. | .shrn .. | .scmp .. => []
  | .ldi _ rd _ _ | .lds _ rd _ | .lift _ rd _ | .copy _ rd _ | .lowb _ rd _
  | .sadd _ _ rd _ | .ssub _ _ rd _ | .sshl1 _ _ rd | .sshr1 _ _ rd | .smul _ rd _
  | .sand _ rd _ | .sor _ rd _ | .sxor _ rd _ | .sshln _ rd _ | .sshrn _ rd _ => [rd]
  | .sdiv _ rd _ rt => [rd, rt]

/-- Whether a command writes CF: a multi-bit shift only when its count is not 0 (10_state.md R16). -/
def Instr.writesCF : Instr → Bool
  | .adc64 .. | .sbb64 .. | .rcl64 .. | .rcr64 .. | .add .. | .sub .. | .shl1 .. | .shr1 ..
  | .sadd .. | .ssub .. | .sshl1 .. | .sshr1 .. => true
  | .shln _ _ imm | .shrn _ _ imm | .sshln _ _ imm | .sshrn _ _ imm => imm != 0
  | .mulw64 .. | .divw64 .. | .mulw .. | .divmod .. | .cmp .. | .and .. | .or .. | .xor ..
  | .ldi .. | .lds .. | .lift .. | .copy .. | .lowb ..
  | .smul .. | .sdiv .. | .scmp .. | .sand .. | .sor .. | .sxor .. => false

/-- Whether a command writes EQ and LT (10_state.md R16). -/
def Instr.writesCompare : Instr → Bool
  | .cmp .. | .scmp .. => true
  | .adc64 .. | .sbb64 .. | .mulw64 .. | .rcl64 .. | .rcr64 .. | .divw64 ..
  | .add .. | .sub .. | .shl1 .. | .shr1 .. | .mulw .. | .divmod .. | .and .. | .or .. | .xor ..
  | .shln .. | .shrn .. | .ldi .. | .lds .. | .lift .. | .copy .. | .lowb ..
  | .sadd .. | .ssub .. | .sshl1 .. | .sshr1 .. | .smul .. | .sdiv .. | .sand .. | .sor .. | .sxor ..
  | .sshln .. | .sshrn .. => false

/-- The command has the S bit set (30_encoding.md R48, R49). -/
def Instr.isSigned : Instr → Bool
  | .sadd .. | .ssub .. | .sshl1 .. | .sshr1 .. | .smul .. | .sdiv .. | .scmp .. | .sand .. | .sor .. | .sxor ..
  | .sshln .. | .sshrn .. => true
  | .adc64 .. | .sbb64 .. | .mulw64 .. | .rcl64 .. | .rcr64 .. | .divw64 ..
  | .add .. | .sub .. | .shl1 .. | .shr1 .. | .mulw .. | .divmod .. | .cmp .. | .and .. | .or .. | .xor ..
  | .shln .. | .shrn .. | .ldi .. | .lds .. | .lift .. | .copy .. | .lowb .. => false

/-- The command is a data command, op 0x20 to 0x24 (30_encoding.md R48). -/
def Instr.isData : Instr → Bool
  | .ldi .. | .lds .. | .lift .. | .copy .. | .lowb .. => true
  | .adc64 .. | .sbb64 .. | .mulw64 .. | .rcl64 .. | .rcr64 .. | .divw64 ..
  | .add .. | .sub .. | .shl1 .. | .shr1 .. | .mulw .. | .divmod .. | .cmp .. | .and .. | .or .. | .xor ..
  | .shln .. | .shrn ..
  | .sadd .. | .ssub .. | .sshl1 .. | .sshr1 .. | .smul .. | .sdiv .. | .scmp .. | .sand .. | .sor .. | .sxor ..
  | .sshln .. | .sshrn .. => false

/-- The instance has the command: its level exists, the word divide is present, an LDI payload has its length
(30_encoding.md R50, R55, R57). -/
def Instr.onInstance (i : Instr) (p : Params) : Prop :=
  i.wellFormed = true ∧ (∀ k, i.level? = some k → k.val ≤ p.kmax) ∧ (i.operation = .divw64 → p.hasDivw64 = true)

/-- Two used fields, in different places, name one register and at least one of the two is written (30_encoding.md R58). -/
def Instr.aliased (i : Instr) : Prop :=
  ∃ m n, ∃ (hm : m < i.usedFields.length) (hn : n < i.usedFields.length), m < n ∧
    (i.usedFields[m]).1 = (i.usedFields[n]).1 ∧ ((i.usedFields[m]).2 = true ∨ (i.usedFields[n]).2 = true)

/-- The operation's own precondition fails, with its fault (60_exceptions.md R190). -/
def Instr.ownFault (i : Instr) (b : Block) : Option CommandFault :=
  match i with
  | .divmod k _ rs _ | .sdiv k _ rs _ => if b.view (width k) rs = 0 then some .divideByZero else none
  | .sadd _ cs _ _ | .ssub _ cs _ _ =>
    if cs = .one ∨ (cs = .cf ∧ b.cf = true) then some .illegalCarry else none
  | .divw64 _ rs rt => if b.view 64 rs ≤ b.view 64 rt then some .wordDivideOverflow else none
  | .adc64 .. | .sbb64 .. | .mulw64 .. | .rcl64 .. | .rcr64 ..
  | .add .. | .sub .. | .shl1 .. | .shr1 .. | .mulw .. | .cmp .. | .and .. | .or .. | .xor ..
  | .shln .. | .shrn .. | .ldi .. | .lds .. | .lift .. | .copy .. | .lowb ..
  | .sshl1 .. | .sshr1 .. | .smul .. | .scmp .. | .sand .. | .sor .. | .sxor .. | .sshln .. | .sshrn .. => none

end Sys2Proof
end

