-- ==== Sys2Proof/Certificates/Slice0/Obligations.lean ====
section
/-! DEFINITION. The statements for the provers, from the numbered rules of the spec. `next` states are written out; values
are read back from the block after the command, in the arithmetic of the rules. -/

open Sys2Proof Sys2Proof.Machine

/-! ## The step, reset and the encoding -/

/-- When the words the host presents decode to an instruction, the step is that instruction's meaning on the state with the
host's move made (30_encoding.md R47; 10_state.md section 4, R18). How commands reach the block is the model's (entry 3). -/
def Obligations.StepRunsTheDecodedCommand : Prop :=
  ∀ (s : State) (c : Command) (rest : List Move) (i : Instr),
    s.host = .command c :: rest → decode c = .ok i → step s = exec i { s with host := rest }

/-- Every presented command is answered with exactly one status, whatever its words are; one that does not decode is
IllegalCommand and changes nothing in the block (R190, R57). The move made and the parameters kept are the model's
(entries 2 and 3). -/
def Obligations.EveryPresentedCommandIsAnswered : Prop :=
  ∀ (s : State) (c : Command) (rest : List Move), s.host = .command c :: rest →
    ∃ t, step s = .next t ∧ (∃ st, t.status = some st) ∧ t.host = rest ∧ t.params = s.params ∧
      ((∀ i, decode c ≠ .ok i) → t.status = some (.fault .illegalCommand) ∧ t.block = s.block)

/-- A reset, between commands or during one, puts the block into the reset state, and a command in flight is discarded
without a status (R215). That parameters and further moves are kept is the model's (entries 2, 3 and 5). -/
def Obligations.ResetMoveResetsTheBlock : Prop :=
  ∀ (s : State) (c : Command) (rest : List Move), (s.host = .reset :: rest ∨ s.host = .resetDuring c :: rest) →
    ∃ t, step s = .next t ∧ (∀ r, t.block.mag r = 0 ∧ t.block.neg r = false) ∧
      t.block.cf = false ∧ t.block.eq = false ∧ t.block.lt = false ∧ t.status = none ∧
      t.host = rest ∧ t.params = s.params

/-- After reset every V[i] is 0, every N[i] is 0, and CF = EQ = LT = 0 (R22). -/
def Obligations.ResetStateIsAllZero : Prop :=
  (∀ r, State.reset.block.mag r = 0) ∧ (∀ r, State.reset.block.neg r = false) ∧
    State.reset.block.cf = false ∧ State.reset.block.eq = false ∧ State.reset.block.lt = false

/-- The encoding examples of 30_encoding.md section 7 decode to the commands they stand for. -/
def Obligations.EncodingExamplesDecode : Prop :=
  decode ⟨0x0100040000000000, []⟩ = .ok (.adc64 .zero 0 1) ∧
  decode ⟨0x01024C0000000000, []⟩ = .ok (.adc64 .cf 2 3) ∧
  decode ⟨0x0300050000000000, []⟩ = .ok (.mulw64 0 1 2) ∧
  decode ⟨0x100A700000000000, []⟩ = .ok (.add 1 .cf 3 4) ∧
  decode ⟨0x100C040000000000, []⟩ = .ok (.sadd 1 .zero 0 1) ∧
  decode ⟨0x1A0060000000007F, []⟩ = .ok (.shln 0 3 127) ∧
  decode ⟨0x2000004000000000, [0xA, 0]⟩ = .ok (.ldi 0 0 true [0xA, 0]) ∧
  decode ⟨0x1508050000000000, []⟩ = .ok (.divmod 1 0 1 2)

/-- Decoding the words of a well-formed instruction gives it back, for every instruction and every operand. -/
def Obligations.DecodeOfEncodeIsTheInstruction : Prop :=
  ∀ i : Instr, i.wellFormed = true → decode (encode i) = .ok i

/-- A command that decodes has one meaning and no other words for it: encoding what it decodes to gives its words back, and
that instruction is well-formed. -/
def Obligations.EncodeOfDecodeIsTheCommand : Prop :=
  ∀ (c : Command) (i : Instr), decode c = .ok i → i.wellFormed = true ∧ encode i = c

/-- The decoder and the machine-readable opcode table agree: a command decodes exactly when a row selects its header, `cs` is
not 11 where the row uses it and the payload has its length (the conditions of R57 that the words alone decide; entry 10),
and it decodes to that row's operation. -/
def Obligations.DecodeFollowsTheOpcodeTable : Prop :=
  ∀ c : Command,
    ((∃ i, decode c = .ok i) ↔
      ∃ row ∈ opcodeTable, row.selects c.header = true ∧
        (row.op.uses.cs = true → c.header.extractLsb' 48 2 ≠ 3) ∧
        c.payload.length = (if row.op = .ldi then 2 ^ ((c.header.extractLsb' 51 5).toNat + 1) else 0)) ∧
    (∀ i, decode c = .ok i → ∀ row ∈ opcodeTable, row.selects c.header = true → i.operation = row.op)

/-- A command is one word long, except LDI, which is 1 + 2^(k+1) words long; the length follows from the header alone, and a
flat list of words is cut back into the commands it was made of (R59). -/
def Obligations.FlatWordListIsCutIntoCommands : Prop :=
  (∀ i : Instr, i.wellFormed = true →
    (encode i).words.length = commandLength (encode i).header ∧
    (encode i).words.length =
      (match i with
      | .ldi k _ _ _ => 1 + 2 ^ (k.val + 1)
      | _ => 1)) ∧
  (∀ is : List Instr, (∀ i ∈ is, i.wellFormed = true) →
    cutWords (is.flatMap fun i => (encode i).words).length (is.flatMap fun i => (encode i).words) =
      (is.map encode, []))

/-! ## Faults -/

/-- A command reports at most one fault, the first that applies: IllegalCommand, then OperandAlias, then the operation's own
precondition; with none it is OK (R190, R197, R47). The conditions are those of Safety.lean, from the spec's tables. -/
def Obligations.StatusFollowsThePriority : Prop :=
  ∀ (i : Instr) (s : State), ∃ t, exec i s = .next t ∧
    (¬ i.onInstance s.params → t.status = some (.fault .illegalCommand)) ∧
    (i.onInstance s.params → i.aliased → t.status = some (.fault .operandAlias)) ∧
    (i.onInstance s.params → ¬ i.aliased → ∀ f, i.ownFault s.block = some f → t.status = some (.fault f)) ∧
    (i.onInstance s.params → ¬ i.aliased → i.ownFault s.block = none → t.status = some .ok)

/-- A command whose status is not OK writes nothing: no bit of any V[i], no N[i], no flag (R193). For every instruction, and
for every command the host can present, decodable or not. -/
def Obligations.NoPartialUpdate : Prop :=
  (∀ (i : Instr) (s t : State), exec i s = .next t → t.status ≠ some .ok → t.block = s.block) ∧
  (∀ (c : Command) (s t : State), step (s.present c) = .next t → t.status ≠ some .ok → t.block = s.block)

/-- After a fault the block is ready for the next command exactly as after status OK: a command that faulted has no effect on
what any later command does to the block or on the status it answers (R200). -/
def Obligations.AfterAFaultTheBlockIsReady : Prop :=
  ∀ (s t u v : State) (c d : Command) (f : CommandFault), step (s.present c) = .next t → t.status = some (.fault f) →
    step (t.present d) = .next u → step (s.present d) = .next v → u = v

/-- A run executes its commands one after the other and stops at the first status that is not OK: its state is then the one
that command left, and what comes after is not executed (R200, R222). That `status` after the run of no commands is
what it was at the start is the model's choice (entry 17). -/
def Obligations.RunStopsAtTheFirstFault : Prop :=
  (∀ s : State, runCommands [] s = s) ∧
  (∀ (c : Command) (cs : List Command) (s t : State), step (s.present c) = .next t →
    (t.status ≠ some .ok → runCommands (c :: cs) s = t) ∧
    (t.status = some .ok → runCommands (c :: cs) s = runCommands cs t)) ∧
  (∀ (cs ds : List Command) (s : State),
    ((runCommands cs s).status ≠ some .ok → cs ≠ [] → runCommands (cs ++ ds) s = runCommands cs s) ∧
    ((runCommands cs s).status = some .ok → runCommands (cs ++ ds) s = runCommands ds (runCommands cs s)))

/-! ## Frames and invariants -/

/-- What each command may change, for all 35: the register and flag table of 30_encoding.md section 5. Magnitudes change only
in the registers it writes and only below its view (R11), signs only where the table says, CF, EQ and LT only by the
commands of the flag table; parameters and the host's moves are unchanged (R17; entries 2 and 3). -/
def Obligations.EveryCommandKeepsItsFrame : Prop :=
  ∀ (i : Instr) (s t : State), exec i s = .next t →
    s.block.changesOnly t.block i.viewWidth i.regsWritten i.signsWritten i.writesCF i.writesCompare ∧
    t.params = s.params ∧ t.host = s.host

/-- Every step keeps every magnitude field within WMAX bits and the parameters as they are, from every state that has it
(R10, R12, R17; magnitudes are numbers in the model, entry 6). -/
def Obligations.StepKeepsMagnitudesInWidth : Prop :=
  ∀ s t : State, s.Inv → step s = .next t → t.Inv ∧ t.params = s.params

/-- The state after reset has its magnitude fields within WMAX bits, whatever the instance's KMAX is. -/
def Obligations.ResetMagnitudesAreInWidth : Prop := State.reset.Inv

/-- Every command that writes N[i] writes 0 when the view it writes into register i is zero (R15). -/
def Obligations.SignWritesAreNormalised : Prop :=
  ∀ (i : Instr) (s t : State) (r : Reg), exec i s = .next t → t.status = some .ok → r ∈ i.signsWritten →
    t.block.view i.viewWidth r = 0 → t.block.neg r = false

/-- A state without a negative zero keeps none under the sign wrapper's commands and the data commands (43_sign_wrapper.md
R160, R167 property 9; 42_level_commands.md section 4). -/
def Obligations.SignedAndDataCommandsMakeNoNegativeZero : Prop :=
  ∀ (i : Instr) (s t : State), (i.isSigned = true ∨ i.isData = true) → s.block.canonical → exec i s = .next t →
    t.block.canonical

/-- A command with S = 1 never reads N[i] directly but through the effective sign: the stale signs of registers whose view is
zero change nothing in what it writes or answers (R14). -/
def Obligations.SignedCommandsReadTheEffectiveSign : Prop :=
  ∀ (i : Instr) (s s' t t' : State), i.isSigned = true →
    (∀ r, s.block.mag r = s'.block.mag r) →
    (∀ r, s.block.view i.viewWidth r ≠ 0 → s.block.neg r = s'.block.neg r) →
    s.block.cf = s'.block.cf → s.block.eq = s'.block.eq → s.block.lt = s'.block.lt → s.params = s'.params →
    exec i s = .next t → exec i s' = .next t' →
    t.status = t'.status ∧ (∀ r, t.block.mag r = t'.block.mag r) ∧
      (t.status = some .ok → ∀ r ∈ i.signsWritten, t.block.neg r = t'.block.neg r) ∧
      t.block.cf = t'.block.cf ∧ t.block.eq = t'.block.eq ∧ t.block.lt = t'.block.lt

/-- The word primitives and the unsigned level commands neither read nor write any sign bit (R129 for the level commands,
40_word_primitives.md part 2 for the word primitives). -/
def Obligations.UnsignedCommandsIgnoreSigns : Prop :=
  ∀ (i : Instr) (s s' t t' : State), i.isSigned = false → i.isData = false →
    (∀ r, s.block.mag r = s'.block.mag r) →
    s.block.cf = s'.block.cf → s.block.eq = s'.block.eq → s.block.lt = s'.block.lt → s.params = s'.params →
    exec i s = .next t → exec i s' = .next t' →
    t.status = t'.status ∧ (∀ r, t.block.mag r = t'.block.mag r) ∧
      (∀ r, t.block.neg r = s.block.neg r) ∧
      t.block.cf = t'.block.cf ∧ t.block.eq = t'.block.eq ∧ t.block.lt = t'.block.lt

/-- No command depends on KMAX except through the legality of its level: on two instances that both have the level, with the
other parameters alike, it does the same (R4). -/
def Obligations.KmaxOnlyDecidesWhichLevelsExist : Prop :=
  ∀ (i : Instr) (s t : State) (m : Nat), (∀ k, i.level? = some k → k.val ≤ s.params.kmax ∧ k.val ≤ m) →
    exec i s = .next t →
    exec i { s with params := { s.params with kmax := m } } = .next { t with params := { s.params with kmax := m } }

/-! ## The functions -/

/-- ADC64's and SBB64's functions are exact: t = cout·2^64 + sum and t = diff − bout·2^64 (R70, R71). That subtraction undoes
addition and that addition commutes are the spec's inference: the laws of 40_word_primitives.md part 1, "[derived: from rules
R70 to R74]". -/
def Obligations.WordAddAndSubtractAreExact : Prop :=
  ∀ (a b : Word) (c : Bool),
    (adc64 a b c).1.toNat = (a.toNat + b.toNat + c.toNat) % 2 ^ 64 ∧
    ((sbb64 a b c).1.toNat : Int) = ((a.toNat : Int) - b.toNat - c.toNat) % 2 ^ 64 ∧
    a.toNat + b.toNat + c.toNat = (adc64 a b c).2.toNat * 2 ^ 64 + (adc64 a b c).1.toNat ∧
    ((adc64 a b c).2 = true ↔ 2 ^ 64 ≤ a.toNat + b.toNat + c.toNat) ∧
    ((a.toNat : Int) - b.toNat - c.toNat = (sbb64 a b c).1.toNat - (sbb64 a b c).2.toNat * 2 ^ 64) ∧
    ((sbb64 a b c).2 = true ↔ (a.toNat : Int) - b.toNat - c.toNat < 0) ∧
    sbb64 (adc64 a b c).1 b c = (a, (adc64 a b c).2) ∧
    adc64 a b c = adc64 b a c

/-- The rotates through carry move their bits by one place (R73, R74). That they undo each other and that doubling with carry
is the left rotate through carry are the spec's inference: the laws of 40_word_primitives.md part 1, "[derived: from rules R70
to R74]". -/
def Obligations.RotatesThroughCarryMoveTheirBits : Prop :=
  ∀ (a : Word) (c : Bool),
    (rcl64 a c).1.toNat = a.toNat * 2 % 2 ^ 64 + c.toNat ∧ (rcr64 a c).1.toNat = a.toNat / 2 + c.toNat * 2 ^ 63 ∧
    (∀ i, i < 63 → (rcl64 a c).1.getLsbD (i + 1) = a.getLsbD i) ∧ (rcl64 a c).1.getLsbD 0 = c ∧
    (rcl64 a c).2 = a.getLsbD 63 ∧
    (∀ i, i < 63 → (rcr64 a c).1.getLsbD i = a.getLsbD (i + 1)) ∧ (rcr64 a c).1.getLsbD 63 = c ∧
    (rcr64 a c).2 = a.getLsbD 0 ∧
    rcr64 (rcl64 a c).1 (rcl64 a c).2 = (a, c) ∧ rcl64 (rcr64 a c).1 (rcr64 a c).2 = (a, c) ∧
    adc64 a a c = rcl64 a c

/-- Add and subtract of every level, built from the level below with the bit threaded between the halves, compute the
contracts, and the contracts are exact (R92, R93). That the structure equals the contract is the spec's inference, marked
[derived] in both rules (entry 7). -/
def Obligations.AddAndSubtractStructuresMeetTheirContracts : Prop :=
  ∀ (k a b : Nat) (c : Bool), a < 2 ^ width k → b < 2 ^ width k →
    structAdd k a b c = lAdd k a b c ∧ structSub k a b c = lSub k a b c ∧
    (lAdd k a b c).1 = (a + b + c.toNat) % 2 ^ width k ∧ ((lAdd k a b c).2 = true ↔ 2 ^ width k ≤ a + b + c.toNat) ∧
    ((lSub k a b c).1 : Int) = ((a : Int) - b - c.toNat) % 2 ^ width k ∧
    ((lSub k a b c).2 = true ↔ (a : Int) - b - c.toNat < 0) ∧
    a + b + c.toNat = (lAdd k a b c).2.toNat * 2 ^ width k + (lAdd k a b c).1 ∧
    ((a : Int) - b - c.toNat = (lSub k a b c).1 - (lSub k a b c).2.toNat * 2 ^ width k)

/-- The single shifts of every level, built from the level below, compute the contracts (R94, R95). That the structure equals
the contract is the spec's inference, marked [derived] by induction on k in both rules (entry 7). -/
def Obligations.ShiftStructuresMeetTheirContracts : Prop :=
  ∀ (k a : Nat) (c : Bool), a < 2 ^ width k →
    structShl1 k a c = lShl1 k a c ∧ structShr1 k a c = lShr1 k a c ∧
    lShl1 k a c = (2 * a % 2 ^ width k + c.toNat, a.testBit (width k - 1)) ∧
    lShr1 k a c = (a / 2 + c.toNat * 2 ^ (width k - 1), a.testBit 0)

/-- The schoolbook product of every level, with the summations in their fixed order, is the exact double-width product
(R96, R97). The structure is the spec's reconstruction, and that it equals the contract is the spec's inference, marked
[derived] in R97 (entry 7). -/
def Obligations.SchoolbookMultiplyIsExact : Prop :=
  ∀ (k a b : Nat), a < 2 ^ width k → b < 2 ^ width k →
    structMul k a b = lMulw k a b ∧ lMulw k a b = (a * b % 2 ^ width k, a * b / 2 ^ width k) ∧
    (structMul k a b).2 * 2 ^ width k + (structMul k a b).1 = a * b ∧
    (structMul k a b).2 ≤ 2 ^ width k - 2

/-- Restoring shift-and-subtract division of every level gives quotient and remainder, and DivideByZero for b = 0 (R98). That
the structure equals the contract is the spec's inference, marked [derived] in R98 and in the introduction of
41_level_functions.md (entry 7). -/
def Obligations.RestoringDivisionMeetsItsContract : Prop :=
  ∀ (k a b : Nat), a < 2 ^ width k → b < 2 ^ width k →
    (b = 0 → structDivmod k a b = .error .divideByZero ∧ lDivmod a b = .error .divideByZero) ∧
    (b ≠ 0 → ∃ q r, structDivmod k a b = .ok (q, r) ∧ lDivmod a b = .ok (q, r) ∧
      q = a / b ∧ r = a % b ∧ q * b + r = a ∧ r < b)

/-- A multi-bit shift is n iterations of the single shift with zeros shifted in, result and last bit moved out, and both have
their closed forms (R104). -/
def Obligations.MultiBitShiftIsIteratedSingleShift : Prop :=
  ∀ (k a n : Nat), a < 2 ^ width k →
    lShln k a n = shlIter k n (a, none) ∧ lShrn k a n = shrIter k n (a, none) ∧
    (lShln k a n).1 = a * 2 ^ n % 2 ^ width k ∧ (lShrn k a n).1 = a / 2 ^ n ∧
    (width k ≤ n → (lShln k a n).1 = 0 ∧ (lShrn k a n).1 = 0) ∧
    (n = 0 → (lShln k a n).2 = none ∧ (lShrn k a n).2 = none) ∧
    (1 ≤ n → n ≤ width k →
      (lShln k a n).2 = some (a.testBit (width k - n)) ∧ (lShrn k a n).2 = some (a.testBit (n - 1))) ∧
    (width k < n → (lShln k a n).2 = some false ∧ (lShrn k a n).2 = some false)

/-- Unsigned equality and order are those of the numbers, and exactly one of a < b, a = b, b < a holds (R100). That the order is
the lexicographic order of (Hi, Lo) is the spec's inference: R100, "[derived: from `00_scope.md` section 5.1]". -/
def Obligations.UnsignedOrderIsLexicographic : Prop :=
  ∀ (k a b : Nat), a < 2 ^ width k → b < 2 ^ width k →
    (lEq a b = true ↔ a = b) ∧ (lLt a b = true ↔ a < b) ∧ lLt a b = lexLt k a b ∧
    ((lLt a b = true ∧ lEq a b = false ∧ lLt b a = false) ∨ (lLt a b = false ∧ lEq a b = true ∧ lLt b a = false) ∨
     (lLt a b = false ∧ lEq a b = false ∧ lLt b a = true))

/-- Ladder agreement: an operation one level up on zero-extended operands has the level's result in its low half and accounts
for the overflow in its high half (R106). What that says of each operation is the spec's inference: R106, "[derived: from rules
R92 to R98]". -/
def Obligations.LadderAgreement : Prop :=
  ∀ (k a b : Nat) (c : Bool), a < 2 ^ width k → b < 2 ^ width k →
    ((lAdd (k + 1) a b c).1 % 2 ^ width k = (lAdd k a b c).1 ∧
      (lAdd (k + 1) a b c).1 / 2 ^ width k = (lAdd k a b c).2.toNat ∧ (lAdd (k + 1) a b c).2 = false) ∧
    (lMulw (k + 1) a b = ((lMulw k a b).2 * 2 ^ width k + (lMulw k a b).1, 0)) ∧
    (structDivmod (k + 1) a b = structDivmod k a b) ∧
    ((lSub (k + 1) a b c).1 % 2 ^ width k = (lSub k a b c).1 ∧
      ((lSub k a b c).2 = true →
        (lSub (k + 1) a b c).1 / 2 ^ width k = 2 ^ width k - 1 ∧ (lSub (k + 1) a b c).2 = true))

/-- Signed add: without magnitude overflow the result is the exact sum; with it the magnitude wraps and the sign stays unless
the wrapped magnitude is 0; a carry-in is IllegalCarry; no result is a negative zero (R161). That the carry is 0 when the signs
differ is the spec's inference and choice: R161, "[derived: from `41_level_functions.md` rule R93; decision: see
92_eei_decisions.md D25]". -/
def Obligations.SignedAddIsExactUnlessItOverflows : Prop :=
  ∀ (k : Nat) (A B : Signed), A.mag < 2 ^ width k → B.mag < 2 ^ width k →
    sAdd k A B true = .error .illegalCarry ∧
    ∃ R c, sAdd k A B false = .ok (R, c) ∧ R.mag < 2 ^ width k ∧ (R.mag = 0 → R.neg = false) ∧
      (c = true ↔ A.neg = B.neg ∧ 2 ^ width k ≤ A.mag + B.mag) ∧
      (c = false → R.val = A.val + B.val) ∧
      (c = true → R.mag = A.mag + B.mag - 2 ^ width k ∧ (R.mag ≠ 0 → R.neg = A.neg))

/-- Signed subtract by SSUB_MODE: FLIP_B is A − B and FLIP_A is B − A when nothing overflows; a borrow-in is IllegalCarry
(R162). That the two modes agree in magnitude and carry and are opposite in sign, except that both give +0 for a zero magnitude,
is the spec's inference: R162, "[derived: from rule R161, which is unchanged when both operands' signs are flipped except for
the sign of its result]". That the carry is 0 when the added signs differ is the spec's inference and choice: R161, "[derived:
from `41_level_functions.md` rule R93; decision: see 92_eei_decisions.md D25]". -/
def Obligations.SignedSubtractFollowsItsMode : Prop :=
  ∀ (k : Nat) (A B : Signed), A.mag < 2 ^ width k → B.mag < 2 ^ width k →
    sSub .flipA k A B true = .error .illegalCarry ∧ sSub .flipB k A B true = .error .illegalCarry ∧
    ∃ Ra Rb c, sSub .flipA k A B false = .ok (Ra, c) ∧ sSub .flipB k A B false = .ok (Rb, c) ∧
      (c = false → Ra.val = B.val - A.val ∧ Rb.val = A.val - B.val) ∧
      (c = true ↔ A.neg ≠ B.neg ∧ 2 ^ width k ≤ A.mag + B.mag) ∧
      (c = true → Rb.mag = A.mag + B.mag - 2 ^ width k ∧ (Rb.mag ≠ 0 → Rb.neg = A.neg)) ∧
      Ra.mag = Rb.mag ∧ (Ra.mag ≠ 0 → Ra.neg = !Rb.neg) ∧ (Ra.mag = 0 → Ra.neg = false ∧ Rb.neg = false)

/-- Signed multiply is exact when the product fits and is the product modulo 2^W otherwise, never a negative zero; signed
divide truncates toward zero and returns the remainder of the magnitudes with sign 0 (R163, R164). -/
def Obligations.SignedMultiplyAndDivideOnMagnitudes : Prop :=
  ∀ (k : Nat) (A B : Signed), A.mag < 2 ^ width k → B.mag < 2 ^ width k →
    (A.mag * B.mag < 2 ^ width k → (sMul k A B).val = A.val * B.val) ∧
    (sMul k A B).mag = A.mag * B.mag % 2 ^ width k ∧
    (sMul k A B).neg = (if (sMul k A B).mag = 0 then false else A.neg ^^ B.neg) ∧
    (B.mag = 0 → sDiv A B = .error .divideByZero) ∧
    (B.mag ≠ 0 → ∃ Q R, sDiv A B = .ok (Q, R) ∧ Q.val = Int.tdiv A.val B.val ∧ (Q.mag = 0 → Q.neg = false) ∧
      R.neg = false ∧ R.mag = A.mag % B.mag ∧
      Q.val * B.val + (if A.neg then -(R.mag : Int) else R.mag) = A.val)

/-- For operands that are no negative zero, signed order and equality are those of the integers, so the order is total
(R165). -/
def Obligations.SignedOrderIsTheOrderOfTheIntegers : Prop :=
  ∀ A B : Signed, (A.mag = 0 → A.neg = false) → (B.mag = 0 → B.neg = false) →
    (sLt A B = true ↔ A.val < B.val) ∧ (sEq A B = true ↔ A.val = B.val) ∧
    (sEq A B = true ↔ A.neg = B.neg ∧ A.mag = B.mag) ∧
    ((sLt A B = true ∧ sEq A B = false ∧ sLt B A = false) ∨ (sLt A B = false ∧ sEq A B = true ∧ sLt B A = false) ∨
     (sLt A B = false ∧ sEq A B = false ∧ sLt B A = true))

/-- The laws of the unsigned levels: identity, commutativity and associativity of addition, the products by 1 and 0, the
division identity, shifts as powers of two, and the carry, which the source lists (R105). The consequences of division (a div 1,
a div a, a div b for a < b, and 0 div b) are the spec's inference: R105, "Consequences [derived: from rule R98]". -/
def Obligations.LawsOfTheUnsignedLevels : Prop :=
  ∀ (k a b c : Nat), a < 2 ^ width k → b < 2 ^ width k → c < 2 ^ width k →
    lAdd k a 0 false = (a, false) ∧
    lAdd k a b false = lAdd k b a false ∧
    (lAdd k (lAdd k a b false).1 c false).1 = (lAdd k a (lAdd k b c false).1 false).1 ∧
    lMulw k a 1 = (a, 0) ∧ lMulw k a 0 = (0, 0) ∧
    (b ≠ 0 → ∃ q r, lDivmod a b = .ok (q, r) ∧ q * b + r = a ∧ r < b) ∧
    lDivmod a 1 = .ok (a, 0) ∧ (a ≠ 0 → lDivmod a a = .ok (1, 0)) ∧
    (a < b → lDivmod a b = .ok (0, a)) ∧ (b ≠ 0 → lDivmod 0 b = .ok (0, 0)) ∧
    (∀ n, (lShln k a n).1 = a * 2 ^ n % 2 ^ width k ∧ (lShrn k a n).1 = a / 2 ^ n) ∧
    ((lAdd k a b false).2 = true ↔ 2 ^ width k ≤ a + b)

/-- The laws of the signed operations that the source lists, for operands without a negative zero: v + (−v) = +0, v + 0 = v,
commutativity, associativity without magnitude overflow, the products by 1 and 0, the division identity on magnitudes, and no
result that is a negative zero (R167). That the carry is 0 in the sums whose signs differ, v + (−v) and a negative v + 0 among
them, is the spec's inference and choice: R161, "[derived: from `41_level_functions.md` rule R93; decision: see
92_eei_decisions.md D25]". -/
def Obligations.LawsOfTheSignedOperations : Prop :=
  ∀ (k : Nat) (A B C : Signed), A.mag < 2 ^ width k → B.mag < 2 ^ width k → C.mag < 2 ^ width k →
    (A.mag = 0 → A.neg = false) → (B.mag = 0 → B.neg = false) → (C.mag = 0 → C.neg = false) →
    sAdd k A A.flip false = .ok (⟨0, false⟩, false) ∧ sAdd k A ⟨0, false⟩ false = .ok (A, false) ∧
    sAdd k A B false = sAdd k B A false ∧
    (∀ R S T U, sAdd k A B false = .ok (R, false) → sAdd k R C false = .ok (S, false) →
      sAdd k B C false = .ok (T, false) → sAdd k A T false = .ok (U, false) → S = U) ∧
    sMul k A ⟨1, false⟩ = A ∧ sMul k A ⟨0, false⟩ = ⟨0, false⟩ ∧
    (B.mag ≠ 0 → ∃ Q R, sDiv A B = .ok (Q, R) ∧ Q.mag * B.mag + R.mag = A.mag ∧ R.mag < B.mag ∧ R.neg = false ∧
      (Q.mag = 0 → Q.neg = false)) ∧
    (∀ m R c, sAdd k A B false = .ok (R, c) ∨ sSub m k A B false = .ok (R, c) → R.mag = 0 → R.neg = false) ∧
    (∀ (x : Bool) (n : Nat), ∀ R ∈ [sMul k A B, (sShl1 k A x).1, (sShr1 k A x).1, (sShln k A n).1, (sShrn k A n).1,
      sAnd A B, sOr A B, sXor A B], R.mag = 0 → R.neg = false)

/-! ## Pseudo-instructions -/

/-- `SHLN.k rd, #n` has the same effect as n commands `SHL1.k rd, c=0`, and `SHRN.k rd, #n` as n commands `SHR1.k rd, c=0`, CF
included; with n = 0 it changes nothing (R65). -/
def Obligations.MultiBitShiftCommandIsRepeatedSingleShift : Prop :=
  ∀ (k : Level) (rd : Reg) (imm : BitVec 32) (s t u : State), k.val ≤ s.params.kmax →
    exec (.shln k rd imm) s = .next t → exec (.shrn k rd imm) s = .next u →
    (execAll (pseudoShl k rd imm.toNat) s).block = t.block ∧ (execAll (pseudoShr k rd imm.toNat) s).block = u.block ∧
    (imm = 0 → t.block = s.block ∧ u.block = s.block)

/-- The value-returning operators on three (or four) different registers: `c = a ∘ b` leaves the value in c, and the sources'
magnitudes and signs unchanged, for +, −, ×, ÷ and mod in their unsigned and their signed forms; signed − by SSUB_MODE, a signed
sum or difference that overflows as SADD and SSUB wrap it, signed ÷ truncated, signed mod of the magnitudes (R62). That the
COPY in them carries the sign over is the model's reading (entry 8), and that CF is 0 when the added signs differ is the spec's
inference and choice (43_sign_wrapper.md part 1, marked [derived] and D25 in R161). -/
def Obligations.ValueReturningOperatorsCompute : Prop :=
  ∀ (k : Level) (c a b t : Reg) (s : State), k.val ≤ s.params.kmax → c ≠ a → c ≠ b → a ≠ b → t ≠ a → t ≠ b → t ≠ c →
    let w := width k.val
    let A := s.block.view w a
    let B := s.block.view w b
    let X := s.block.signed w a
    let Y := s.block.signed w b
    let after := fun p => (execAll p s).block
    (after (pseudoAdd k c a b)).view w c = (A + B) % 2 ^ w ∧
    (after (pseudoSub k c a b)).view w c = (A + 2 ^ w - B) % 2 ^ w ∧
    (after (pseudoMul k c a b t)).view w c = A * B % 2 ^ w ∧
    (B ≠ 0 → (after (pseudoDiv k c a b t)).view w c = A / B) ∧
    (B ≠ 0 → (after (pseudoMod k c a b t)).view w c = A % B) ∧
    (∀ R f, sAdd k X Y false = .ok (R, f) →
      (after (pseudoSadd k c a b)).signed w c = R ∧ (after (pseudoSadd k c a b)).cf = f) ∧
    (X.neg ≠ Y.neg ∨ X.mag + Y.mag < 2 ^ w → ((after (pseudoSadd k c a b)).signed w c).val = X.val + Y.val) ∧
    (∀ R f, sSub s.params.ssubMode k X Y false = .ok (R, f) →
      (after (pseudoSsub k c a b)).signed w c = R ∧ (after (pseudoSsub k c a b)).cf = f) ∧
    (X.neg = Y.neg ∨ X.mag + Y.mag < 2 ^ w →
      ((after (pseudoSsub k c a b)).signed w c).val =
        (match s.params.ssubMode with | .flipA => Y.val - X.val | .flipB => X.val - Y.val)) ∧
    (after (pseudoSmul k c a b)).signed w c = sMul k X Y ∧
    (X.mag * Y.mag < 2 ^ w → ((after (pseudoSmul k c a b)).signed w c).val = X.val * Y.val) ∧
    (B ≠ 0 → ((after (pseudoSdiv k c a b t)).signed w c).val = Int.tdiv X.val Y.val) ∧
    (B ≠ 0 → (after (pseudoSmod k c a b t)).view w c = A % B ∧ (after (pseudoSmod k c a b t)).neg c = false) ∧
    (∀ p ∈ [pseudoAdd k c a b, pseudoSub k c a b, pseudoMul k c a b t, pseudoDiv k c a b t, pseudoMod k c a b t,
        pseudoSadd k c a b, pseudoSsub k c a b, pseudoSmul k c a b, pseudoSdiv k c a b t, pseudoSmod k c a b t],
      (after p).mag a = s.block.mag a ∧ (after p).mag b = s.block.mag b ∧
      (after p).neg a = s.block.neg a ∧ (after p).neg b = s.block.neg b)

/-- After CMP.k or SCMP.k the six relations are what the host reads off EQ and LT, on the unsigned views and on the signed
values, and exactly one of LT, EQ and (not LT and not EQ) holds (R63). -/
def Obligations.ComparisonsAreReadOffTheFlags : Prop :=
  ∀ (k : Level) (rd rs : Reg) (s t u : State), k.val ≤ s.params.kmax →
    exec (.cmp k rd rs) s = .next t → exec (.scmp k rd rs) s = .next u →
    let a := s.block.view (width k) rd
    let b := s.block.view (width k) rs
    let x := (s.block.signed (width k) rd).val
    let y := (s.block.signed (width k) rs).val
    ((t.block.readOff .eq = true ↔ a = b) ∧ (t.block.readOff .ne = true ↔ a ≠ b) ∧
      (t.block.readOff .lt = true ↔ a < b) ∧ (t.block.readOff .le = true ↔ a ≤ b) ∧
      (t.block.readOff .gt = true ↔ b < a) ∧ (t.block.readOff .ge = true ↔ b ≤ a)) ∧
    ((u.block.readOff .eq = true ↔ x = y) ∧ (u.block.readOff .ne = true ↔ x ≠ y) ∧
      (u.block.readOff .lt = true ↔ x < y) ∧ (u.block.readOff .le = true ↔ x ≤ y) ∧
      (u.block.readOff .gt = true ↔ y < x) ∧ (u.block.readOff .ge = true ↔ y ≤ x)) ∧
    (∀ b ∈ [t.block, u.block],
      (b.lt = true ∧ b.eq = false) ∨ (b.lt = false ∧ b.eq = true) ∨ (b.lt = false ∧ b.eq = false))

/-- Bitwise operations with a small integer: the integer is zero-extended, so `a & n` clears every bit of a above bit 31 and
`a | n`, `a ^ n` leave those bits alone; `ZERO.k` leaves zero (R61, R64). -/
def Obligations.SmallIntegerBitwiseComputes : Prop :=
  ∀ (k : Level) (a t : Reg) (n : BitVec 32) (s : State), k.val ≤ s.params.kmax → a ≠ t →
    (execAll (pseudoAndSmall k a t n) s).block.view (width k) a = s.block.view (width k) a &&& n.toNat ∧
    (execAll (pseudoOrSmall k a t n) s).block.view (width k) a = s.block.view (width k) a ||| n.toNat ∧
    (execAll (pseudoXorSmall k a t n) s).block.view (width k) a = s.block.view (width k) a ^^^ n.toNat ∧
    (execAll (pseudoZero k a) s).block.view (width k) a = 0 ∧ (execAll (pseudoZero k a) s).block.neg a = false

/-! ## What each command computes, and that it completes

Every statement says that `exec` answers the next state in which the block alone changed and the status is OK, what the
block then holds, and by `changesOnly` that nothing else changed. Aliased fields and a failed precondition are the cases of
`StatusFollowsThePriority` and `NoPartialUpdate`. -/

/-- ADC64 and SBB64 on different registers: the sum or the difference modulo 2^64 in the word view of rd, the carry or the
borrow in CF; the carry-in or borrow-in is 0, 1 or CF as the previous command left it, as `cs` selects (R77, R78, R52). -/
def Obligations.WordAddAndSubtractComplete : Prop :=
  ∀ (cs : CarrySel) (rd rs : Reg) (s : State), rd ≠ rs →
    let A := s.block.view 64 rd
    let B := s.block.view 64 rs
    let c := (match cs with | .zero => 0 | .one => 1 | .cf => s.block.cf.toNat)
    (∃ b, exec (.adc64 cs rd rs) s = .next { s with block := b, status := some .ok } ∧
      b.view 64 rd = (A + B + c) % 2 ^ 64 ∧ (b.cf = true ↔ 2 ^ 64 ≤ A + B + c) ∧
      s.block.changesOnly b 64 [rd] [] true false) ∧
    (∃ b, exec (.sbb64 cs rd rs) s = .next { s with block := b, status := some .ok } ∧
      (b.view 64 rd : Int) = ((A : Int) - B - c) % 2 ^ 64 ∧ (b.cf = true ↔ A < B + c) ∧
      s.block.changesOnly b 64 [rd] [] true false)

/-- MULW64 on three different registers: the exact product, low word in rd and high word in rt, never all ones (R72, R79). -/
def Obligations.WordMultiplyCompletes : Prop :=
  ∀ (rd rs rt : Reg) (s : State), rd ≠ rs → rd ≠ rt → rs ≠ rt →
    ∃ b, exec (.mulw64 rd rs rt) s = .next { s with block := b, status := some .ok } ∧
      b.view 64 rt * 2 ^ 64 + b.view 64 rd = s.block.view 64 rd * s.block.view 64 rs ∧
      b.view 64 rt ≤ 2 ^ 64 - 2 ∧ s.block.changesOnly b 64 [rd, rt] [] false false

/-- RCL64 and RCR64: the word rotated by one place through the selected carry-in, the bit moved out in CF (R80, R81). -/
def Obligations.WordRotatesComplete : Prop :=
  ∀ (cs : CarrySel) (rd : Reg) (s : State),
    let A := s.block.view 64 rd
    let c := (s.block.carryIn cs).toNat
    (∃ b, exec (.rcl64 cs rd) s = .next { s with block := b, status := some .ok } ∧
      b.view 64 rd = A * 2 % 2 ^ 64 + c ∧ b.cf = A.testBit 63 ∧ s.block.changesOnly b 64 [rd] [] true false) ∧
    (∃ b, exec (.rcr64 cs rd) s = .next { s with block := b, status := some .ok } ∧
      b.view 64 rd = A / 2 + c * 2 ^ 63 ∧ b.cf = A.testBit 0 ∧ s.block.changesOnly b 64 [rd] [] true false)

/-- DIVW64 on an instance that has it, on three different registers, with the high word of the dividend below the divisor:
quotient in rd and remainder in rt of the two-word dividend (R82). That the remainder is written to rt is a choice: the source
names the quotient only (R75, decision D4; entry 9). -/
def Obligations.WordDivideCompletes : Prop :=
  ∀ (rd rs rt : Reg) (s : State), s.params.hasDivw64 = true → rd ≠ rs → rd ≠ rt → rs ≠ rt →
    s.block.view 64 rt < s.block.view 64 rs →
    ∃ b, exec (.divw64 rd rs rt) s = .next { s with block := b, status := some .ok } ∧
      b.view 64 rd * s.block.view 64 rs + b.view 64 rt = s.block.view 64 rt * 2 ^ 64 + s.block.view 64 rd ∧
      b.view 64 rt < s.block.view 64 rs ∧ s.block.changesOnly b 64 [rd, rt] [] false false

/-- ADD and SUB at a level of the instance, on different registers: the sum or the difference modulo 2^W in the level view of
rd, the carry or the borrow in CF (R130, R131). -/
def Obligations.LevelAddAndSubtractComplete : Prop :=
  ∀ (k : Level) (cs : CarrySel) (rd rs : Reg) (s : State), k.val ≤ s.params.kmax → rd ≠ rs →
    let w := width k.val
    let A := s.block.view w rd
    let B := s.block.view w rs
    let c := (s.block.carryIn cs).toNat
    (∃ b, exec (.add k cs rd rs) s = .next { s with block := b, status := some .ok } ∧
      b.view w rd = (A + B + c) % 2 ^ w ∧ (b.cf = true ↔ 2 ^ w ≤ A + B + c) ∧
      s.block.changesOnly b w [rd] [] true false) ∧
    (∃ b, exec (.sub k cs rd rs) s = .next { s with block := b, status := some .ok } ∧
      (b.view w rd : Int) = ((A : Int) - B - c) % 2 ^ w ∧ (b.cf = true ↔ A < B + c) ∧
      s.block.changesOnly b w [rd] [] true false)

/-- SHL1 and SHR1 at a level of the instance: the view shifted by one place with the selected carry-in shifted in, the bit moved
out in CF (R132, R133). -/
def Obligations.LevelSingleShiftsComplete : Prop :=
  ∀ (k : Level) (cs : CarrySel) (rd : Reg) (s : State), k.val ≤ s.params.kmax →
    let w := width k.val
    let A := s.block.view w rd
    let c := (s.block.carryIn cs).toNat
    (∃ b, exec (.shl1 k cs rd) s = .next { s with block := b, status := some .ok } ∧
      b.view w rd = 2 * A % 2 ^ w + c ∧ b.cf = A.testBit (w - 1) ∧ s.block.changesOnly b w [rd] [] true false) ∧
    (∃ b, exec (.shr1 k cs rd) s = .next { s with block := b, status := some .ok } ∧
      b.view w rd = A / 2 + c * 2 ^ (w - 1) ∧ b.cf = A.testBit 0 ∧ s.block.changesOnly b w [rd] [] true false)

/-- MULW and DIVMOD at a level of the instance, on three different registers: the exact double-width product, low half in rd
and high half in rt; and, for a divisor view that is not zero, quotient in rd and remainder in rt (R134, R135). -/
def Obligations.LevelMultiplyAndDivideComplete : Prop :=
  ∀ (k : Level) (rd rs rt : Reg) (s : State), k.val ≤ s.params.kmax → rd ≠ rs → rd ≠ rt → rs ≠ rt →
    let w := width k.val
    (∃ b, exec (.mulw k rd rs rt) s = .next { s with block := b, status := some .ok } ∧
      b.view w rt * 2 ^ w + b.view w rd = s.block.view w rd * s.block.view w rs ∧
      s.block.changesOnly b w [rd, rt] [] false false) ∧
    (s.block.view w rs ≠ 0 →
      ∃ b, exec (.divmod k rd rs rt) s = .next { s with block := b, status := some .ok } ∧
        b.view w rd * s.block.view w rs + b.view w rt = s.block.view w rd ∧ b.view w rt < s.block.view w rs ∧
        s.block.changesOnly b w [rd, rt] [] false false)

/-- CMP and SCMP at a level of the instance, on any two registers, the same one twice included: EQ and LT as the
unsigned views and the signed values compare, no register written (R136, R174). -/
def Obligations.ComparisonsComplete : Prop :=
  ∀ (k : Level) (rd rs : Reg) (s : State), k.val ≤ s.params.kmax →
    let w := width k.val
    (∃ b, exec (.cmp k rd rs) s = .next { s with block := b, status := some .ok } ∧
      (b.eq = true ↔ s.block.view w rd = s.block.view w rs) ∧ (b.lt = true ↔ s.block.view w rd < s.block.view w rs) ∧
      s.block.changesOnly b w [] [] false true) ∧
    (∃ b, exec (.scmp k rd rs) s = .next { s with block := b, status := some .ok } ∧
      (b.eq = true ↔ (s.block.signed w rd).val = (s.block.signed w rs).val) ∧
      (b.lt = true ↔ (s.block.signed w rd).val < (s.block.signed w rs).val) ∧
      s.block.changesOnly b w [] [] false true)

/-- AND, OR and XOR at a level of the instance, on different registers: bit by bit, no flag (R137 to R139). -/
def Obligations.LevelBitwiseCompletes : Prop :=
  ∀ (k : Level) (rd rs : Reg) (s : State), k.val ≤ s.params.kmax → rd ≠ rs →
    let w := width k.val
    let A := s.block.view w rd
    let B := s.block.view w rs
    (∃ b, exec (.and k rd rs) s = .next { s with block := b, status := some .ok } ∧
      (∀ j, (b.view w rd).testBit j = (A.testBit j && B.testBit j)) ∧ s.block.changesOnly b w [rd] [] false false) ∧
    (∃ b, exec (.or k rd rs) s = .next { s with block := b, status := some .ok } ∧
      (∀ j, (b.view w rd).testBit j = (A.testBit j || B.testBit j)) ∧ s.block.changesOnly b w [rd] [] false false) ∧
    (∃ b, exec (.xor k rd rs) s = .next { s with block := b, status := some .ok } ∧
      (∀ j, (b.view w rd).testBit j = (A.testBit j ^^ B.testBit j)) ∧ s.block.changesOnly b w [rd] [] false false)

/-- SHLN and SHRN at a level of the instance, for every count: the result, and CF as the bit the last single shift moved out,
0 beyond the width and unchanged for the count 0 (R140, R141). -/
def Obligations.LevelMultiBitShiftsComplete : Prop :=
  ∀ (k : Level) (rd : Reg) (imm : BitVec 32) (s : State), k.val ≤ s.params.kmax →
    let w := width k.val
    let A := s.block.view w rd
    let n := imm.toNat
    (∃ b, exec (.shln k rd imm) s = .next { s with block := b, status := some .ok } ∧
      b.view w rd = A * 2 ^ n % 2 ^ w ∧
      b.cf = (if n = 0 then s.block.cf else if n ≤ w then A.testBit (w - n) else false) ∧
      s.block.changesOnly b w [rd] [] true false) ∧
    (∃ b, exec (.shrn k rd imm) s = .next { s with block := b, status := some .ok } ∧
      b.view w rd = A / 2 ^ n ∧
      b.cf = (if n = 0 then s.block.cf else if n ≤ w then A.testBit (n - 1) else false) ∧
      s.block.changesOnly b w [rd] [] true false)

/-- LDI at a level of the instance with its 2^(k+1) payload words: payload word j is bits 64j+63:64j of the view, and the sign
is `sg` unless the value is zero (R55, R142). -/
def Obligations.LoadImmediateCompletes : Prop :=
  ∀ (k : Level) (rd : Reg) (sg : Bool) (payload : List Word) (s : State),
    k.val ≤ s.params.kmax → payload.length = 2 ^ (k.val + 1) →
    let w := width k.val
    ∃ b, exec (.ldi k rd sg payload) s = .next { s with block := b, status := some .ok } ∧
      (∀ j (h : j < payload.length), b.view w rd / 2 ^ (64 * j) % 2 ^ 64 = (payload[j]).toNat) ∧
      b.neg rd = (if b.view w rd = 0 then false else sg) ∧
      s.block.changesOnly b w [rd] [rd] false false

/-- LDS at a level of the instance, and LOWB between different registers: the small integer and the low byte, zero-extended,
with sign 0 (R143, R146). -/
def Obligations.SmallLoadsComplete : Prop :=
  ∀ (k : Level) (rd rs : Reg) (imm : BitVec 32) (s : State), k.val ≤ s.params.kmax →
    let w := width k.val
    (∃ b, exec (.lds k rd imm) s = .next { s with block := b, status := some .ok } ∧
      b.view w rd = imm.toNat ∧ b.neg rd = false ∧ s.block.changesOnly b w [rd] [rd] false false) ∧
    (rd ≠ rs → ∃ b, exec (.lowb k rd rs) s = .next { s with block := b, status := some .ok } ∧
      b.view w rd = s.block.mag rs % 256 ∧ b.neg rd = false ∧ s.block.changesOnly b w [rd] [rd] false false)

/-- LIFT and COPY at a level of the instance, between different registers: the level-below view zero-extended, and the level
view; the sign is carried over unless the value is zero (R144, R145). That they read the sign of rs is the model's reading of
two rules that disagree, for R13 says that commands with S = 0 never read it (entry 8). -/
def Obligations.LiftAndCopyComplete : Prop :=
  ∀ (k : Level) (rd rs : Reg) (s : State), k.val ≤ s.params.kmax → rd ≠ rs →
    let w := width k.val
    let low := s.block.mag rs % 2 ^ halfWidth k.val
    (∃ b, exec (.lift k rd rs) s = .next { s with block := b, status := some .ok } ∧
      b.view w rd = low ∧ b.neg rd = (if low = 0 then false else s.block.neg rs) ∧
      s.block.changesOnly b w [rd] [rd] false false) ∧
    (∃ b, exec (.copy k rd rs) s = .next { s with block := b, status := some .ok } ∧
      b.view w rd = s.block.view w rs ∧ b.neg rd = (if s.block.view w rs = 0 then false else s.block.neg rs) ∧
      s.block.changesOnly b w [rd] [rd] false false)

/-- SADD at a level of the instance, on different registers, with a selected carry-in of 0: the sum of the signed values when
CF is 0, the wrapped magnitude with A's sign when CF is 1 (R170). That CF is 0 when the signs differ is the spec's inference
and choice (43_sign_wrapper.md part 1, marked [derived] and D25 in R161). -/
def Obligations.SignedAddCompletes : Prop :=
  ∀ (k : Level) (cs : CarrySel) (rd rs : Reg) (s : State), k.val ≤ s.params.kmax → rd ≠ rs → s.block.carryIn cs = false →
    let w := width k.val
    let A := s.block.signed w rd
    let B := s.block.signed w rs
    ∃ b, exec (.sadd k cs rd rs) s = .next { s with block := b, status := some .ok } ∧
      (b.cf = true ↔ A.neg = B.neg ∧ 2 ^ w ≤ A.mag + B.mag) ∧
      (b.cf = false → (b.signed w rd).val = A.val + B.val) ∧
      (b.cf = true → b.view w rd = A.mag + B.mag - 2 ^ w ∧ (b.view w rd ≠ 0 → b.neg rd = A.neg)) ∧
      (b.view w rd = 0 → b.neg rd = false) ∧
      s.block.changesOnly b w [rd] [rd] true false

/-- SSUB at a level of the instance, on different registers, with a selected borrow-in of 0: A − B under FLIP_B and B − A under
FLIP_A when CF is 0; the magnitude overflow goes to CF (R171). That CF is 0 when the added signs differ is the spec's
inference and choice (43_sign_wrapper.md part 1, marked [derived] and D25 in R161). -/
def Obligations.SignedSubtractCompletes : Prop :=
  ∀ (k : Level) (cs : CarrySel) (rd rs : Reg) (s : State), k.val ≤ s.params.kmax → rd ≠ rs → s.block.carryIn cs = false →
    let w := width k.val
    let A := s.block.signed w rd
    let B := s.block.signed w rs
    ∃ b, exec (.ssub k cs rd rs) s = .next { s with block := b, status := some .ok } ∧
      (b.cf = true ↔ A.neg ≠ B.neg ∧ 2 ^ w ≤ A.mag + B.mag) ∧
      (b.cf = false → s.params.ssubMode = .flipB → (b.signed w rd).val = A.val - B.val) ∧
      (b.cf = false → s.params.ssubMode = .flipA → (b.signed w rd).val = B.val - A.val) ∧
      (b.cf = true → b.view w rd = A.mag + B.mag - 2 ^ w ∧
        (b.view w rd ≠ 0 → b.neg rd = (if s.params.ssubMode = .flipB then A.neg else !A.neg))) ∧
      (b.view w rd = 0 → b.neg rd = false) ∧
      s.block.changesOnly b w [rd] [rd] true false

/-- SMUL at a level of the instance, on different registers: the low half of the product of the magnitudes, the sign the
exclusive or of the signs unless it is zero, no flag (R172). -/
def Obligations.SignedMultiplyCompletes : Prop :=
  ∀ (k : Level) (rd rs : Reg) (s : State), k.val ≤ s.params.kmax → rd ≠ rs →
    let w := width k.val
    let A := s.block.signed w rd
    let B := s.block.signed w rs
    ∃ b, exec (.smul k rd rs) s = .next { s with block := b, status := some .ok } ∧
      b.view w rd = A.mag * B.mag % 2 ^ w ∧
      b.neg rd = (if b.view w rd = 0 then false else A.neg ^^ B.neg) ∧
      (A.mag * B.mag < 2 ^ w → (b.signed w rd).val = A.val * B.val) ∧
      s.block.changesOnly b w [rd] [rd] false false

/-- SDIV at a level of the instance, on three different registers, with a divisor magnitude that is not zero: the quotient
truncated toward zero, the remainder of the magnitudes with sign 0 (R173). -/
def Obligations.SignedDivideCompletes : Prop :=
  ∀ (k : Level) (rd rs rt : Reg) (s : State), k.val ≤ s.params.kmax → rd ≠ rs → rd ≠ rt → rs ≠ rt →
    s.block.view (width k) rs ≠ 0 →
    let w := width k.val
    let A := s.block.signed w rd
    let B := s.block.signed w rs
    ∃ b, exec (.sdiv k rd rs rt) s = .next { s with block := b, status := some .ok } ∧
      (b.signed w rd).val = Int.tdiv A.val B.val ∧ (b.view w rd = 0 → b.neg rd = false) ∧
      b.view w rd * B.mag + b.view w rt = A.mag ∧ b.view w rt < B.mag ∧ b.neg rt = false ∧
      s.block.changesOnly b w [rd, rt] [rd, rt] false false

/-- SSHL1 and SSHR1 at a level of the instance: the shift of the magnitude, the effective sign kept unless the result is zero
(R175, R176). -/
def Obligations.SignedSingleShiftsComplete : Prop :=
  ∀ (k : Level) (cs : CarrySel) (rd : Reg) (s : State), k.val ≤ s.params.kmax →
    let w := width k.val
    let A := s.block.signed w rd
    let c := (s.block.carryIn cs).toNat
    (∃ b, exec (.sshl1 k cs rd) s = .next { s with block := b, status := some .ok } ∧
      b.view w rd = 2 * A.mag % 2 ^ w + c ∧ b.cf = A.mag.testBit (w - 1) ∧
      b.neg rd = (if b.view w rd = 0 then false else A.neg) ∧ s.block.changesOnly b w [rd] [rd] true false) ∧
    (∃ b, exec (.sshr1 k cs rd) s = .next { s with block := b, status := some .ok } ∧
      b.view w rd = A.mag / 2 + c * 2 ^ (w - 1) ∧ b.cf = A.mag.testBit 0 ∧
      b.neg rd = (if b.view w rd = 0 then false else A.neg) ∧ s.block.changesOnly b w [rd] [rd] true false)

/-- SSHLN and SSHRN at a level of the instance, for every count: the shift of the magnitude, the effective sign kept unless the
result is zero, also for the count 0; CF as for SHLN and SHRN (R177, R178). -/
def Obligations.SignedMultiBitShiftsComplete : Prop :=
  ∀ (k : Level) (rd : Reg) (imm : BitVec 32) (s : State), k.val ≤ s.params.kmax →
    let w := width k.val
    let A := s.block.signed w rd
    let n := imm.toNat
    (∃ b, exec (.sshln k rd imm) s = .next { s with block := b, status := some .ok } ∧
      b.view w rd = A.mag * 2 ^ n % 2 ^ w ∧ b.neg rd = (if b.view w rd = 0 then false else A.neg) ∧
      b.cf = (if n = 0 then s.block.cf else if n ≤ w then A.mag.testBit (w - n) else false) ∧
      s.block.changesOnly b w [rd] [rd] true false) ∧
    (∃ b, exec (.sshrn k rd imm) s = .next { s with block := b, status := some .ok } ∧
      b.view w rd = A.mag / 2 ^ n ∧ b.neg rd = (if b.view w rd = 0 then false else A.neg) ∧
      b.cf = (if n = 0 then s.block.cf else if n ≤ w then A.mag.testBit (n - 1) else false) ∧
      s.block.changesOnly b w [rd] [rd] true false)

/-- SAND, SOR and SXOR at a level of the instance, on different registers: bit by bit on the magnitudes, A's effective sign
kept unless the result is zero, B's sign not read (R179 to R181). -/
def Obligations.SignedBitwiseCompletes : Prop :=
  ∀ (k : Level) (rd rs : Reg) (s : State), k.val ≤ s.params.kmax → rd ≠ rs →
    let w := width k.val
    let A := s.block.signed w rd
    let B := s.block.view w rs
    (∃ b, exec (.sand k rd rs) s = .next { s with block := b, status := some .ok } ∧
      (∀ j, (b.view w rd).testBit j = (A.mag.testBit j && B.testBit j)) ∧
      b.neg rd = (if b.view w rd = 0 then false else A.neg) ∧ s.block.changesOnly b w [rd] [rd] false false) ∧
    (∃ b, exec (.sor k rd rs) s = .next { s with block := b, status := some .ok } ∧
      (∀ j, (b.view w rd).testBit j = (A.mag.testBit j || B.testBit j)) ∧
      b.neg rd = (if b.view w rd = 0 then false else A.neg) ∧ s.block.changesOnly b w [rd] [rd] false false) ∧
    (∃ b, exec (.sxor k rd rs) s = .next { s with block := b, status := some .ok } ∧
      (∀ j, (b.view w rd).testBit j = (A.mag.testBit j ^^ B.testBit j)) ∧
      b.neg rd = (if b.view w rd = 0 then false else A.neg) ∧ s.block.changesOnly b w [rd] [rd] false false)
end

