-- ==== Sys2Proof/Laws/State.lean ====
section
/-! SUPPORT. The small lemmas of State and Block: what each accessor reads after each update. -/

namespace Sys2Proof.Machine

/-! One register written, one flag written: the accessors. -/

@[simp] theorem mag_setMag (b : Block) (r q : Reg) (x : Nat) :
    (b.setMag r x).mag q = if r = q then x else b.mag q := by
  simp [Block.mag, Block.setMag, Vector.getElem_set, Fin.ext_iff]

@[simp] theorem neg_setMag (b : Block) (r q : Reg) (x : Nat) : (b.setMag r x).neg q = b.neg q := rfl
@[simp] theorem cf_setMag (b : Block) (r : Reg) (x : Nat) : (b.setMag r x).cf = b.cf := rfl
@[simp] theorem eq_setMag (b : Block) (r : Reg) (x : Nat) : (b.setMag r x).eq = b.eq := rfl
@[simp] theorem lt_setMag (b : Block) (r : Reg) (x : Nat) : (b.setMag r x).lt = b.lt := rfl
@[simp] theorem n_setMag (b : Block) (r : Reg) (x : Nat) : (b.setMag r x).n = b.n := rfl

@[simp] theorem neg_setNeg (b : Block) (r q : Reg) (x : Bool) :
    (b.setNeg r x).neg q = if r = q then x else b.neg q := by
  simp [Block.neg, Block.setNeg, Vector.getElem_set, Fin.ext_iff]

@[simp] theorem mag_setNeg (b : Block) (r q : Reg) (x : Bool) : (b.setNeg r x).mag q = b.mag q := rfl
@[simp] theorem cf_setNeg (b : Block) (r : Reg) (x : Bool) : (b.setNeg r x).cf = b.cf := rfl
@[simp] theorem eq_setNeg (b : Block) (r : Reg) (x : Bool) : (b.setNeg r x).eq = b.eq := rfl
@[simp] theorem lt_setNeg (b : Block) (r : Reg) (x : Bool) : (b.setNeg r x).lt = b.lt := rfl
@[simp] theorem v_setNeg (b : Block) (r : Reg) (x : Bool) : (b.setNeg r x).v = b.v := rfl

@[simp] theorem mag_setCF (b : Block) (c : Bool) (q : Reg) : (b.setCF c).mag q = b.mag q := rfl
@[simp] theorem neg_setCF (b : Block) (c : Bool) (q : Reg) : (b.setCF c).neg q = b.neg q := rfl
@[simp] theorem cf_setCF (b : Block) (c : Bool) : (b.setCF c).cf = c := rfl
@[simp] theorem eq_setCF (b : Block) (c : Bool) : (b.setCF c).eq = b.eq := rfl
@[simp] theorem lt_setCF (b : Block) (c : Bool) : (b.setCF c).lt = b.lt := rfl
@[simp] theorem v_setCF (b : Block) (c : Bool) : (b.setCF c).v = b.v := rfl
@[simp] theorem n_setCF (b : Block) (c : Bool) : (b.setCF c).n = b.n := rfl

@[simp] theorem mag_setCompare (b : Block) (e l : Bool) (q : Reg) : (b.setCompare e l).mag q = b.mag q := rfl
@[simp] theorem neg_setCompare (b : Block) (e l : Bool) (q : Reg) : (b.setCompare e l).neg q = b.neg q := rfl
@[simp] theorem cf_setCompare (b : Block) (e l : Bool) : (b.setCompare e l).cf = b.cf := rfl
@[simp] theorem eq_setCompare (b : Block) (e l : Bool) : (b.setCompare e l).eq = e := rfl
@[simp] theorem lt_setCompare (b : Block) (e l : Bool) : (b.setCompare e l).lt = l := rfl
@[simp] theorem v_setCompare (b : Block) (e l : Bool) : (b.setCompare e l).v = b.v := rfl
@[simp] theorem n_setCompare (b : Block) (e l : Bool) : (b.setCompare e l).n = b.n := rfl

@[simp] theorem mag_setShiftOut (b : Block) (c : Option Bool) (q : Reg) : (b.setShiftOut c).mag q = b.mag q := by
  cases c <;> rfl
@[simp] theorem neg_setShiftOut (b : Block) (c : Option Bool) (q : Reg) : (b.setShiftOut c).neg q = b.neg q := by
  cases c <;> rfl
@[simp] theorem cf_setShiftOut (b : Block) (c : Option Bool) : (b.setShiftOut c).cf = c.getD b.cf := by
  cases c <;> rfl
@[simp] theorem eq_setShiftOut (b : Block) (c : Option Bool) : (b.setShiftOut c).eq = b.eq := by cases c <;> rfl
@[simp] theorem lt_setShiftOut (b : Block) (c : Option Bool) : (b.setShiftOut c).lt = b.lt := by cases c <;> rfl
@[simp] theorem n_setShiftOut (b : Block) (c : Option Bool) : (b.setShiftOut c).n = b.n := by cases c <;> rfl

/-! A view written. -/

@[simp] theorem neg_setView (b : Block) (w : Nat) (r q : Reg) (x : Nat) : (b.setView w r x).neg q = b.neg q := rfl
@[simp] theorem cf_setView (b : Block) (w : Nat) (r : Reg) (x : Nat) : (b.setView w r x).cf = b.cf := rfl
@[simp] theorem eq_setView (b : Block) (w : Nat) (r : Reg) (x : Nat) : (b.setView w r x).eq = b.eq := rfl
@[simp] theorem lt_setView (b : Block) (w : Nat) (r : Reg) (x : Nat) : (b.setView w r x).lt = b.lt := rfl
@[simp] theorem n_setView (b : Block) (w : Nat) (r : Reg) (x : Nat) : (b.setView w r x).n = b.n := rfl

theorem mag_setView (b : Block) (w : Nat) (r q : Reg) (x : Nat) :
    (b.setView w r x).mag q = if r = q then b.mag r / 2 ^ w * 2 ^ w + x % 2 ^ w else b.mag q := by
  simp [Block.setView]

@[simp] theorem mag_setView_ne (b : Block) (w : Nat) {r q : Reg} (x : Nat) (h : r ≠ q) :
    (b.setView w r x).mag q = b.mag q := by
  simp [mag_setView, h]

/-- The view just written reads back; the number written is cut to the view. -/
@[simp] theorem view_setView_self (b : Block) (w : Nat) (r : Reg) (x : Nat) :
    (b.setView w r x).view w r = x % 2 ^ w := by
  simp [Block.view, mag_setView, Nat.add_mod, Nat.mul_mod_left]

@[simp] theorem view_setView_ne (b : Block) (w u : Nat) {r q : Reg} (x : Nat) (h : r ≠ q) :
    (b.setView w r x).view u q = b.view u q := by
  simp [Block.view, h]

/-- The bits above a written view are unchanged (10_state.md R11). -/
@[simp] theorem upper_setView (b : Block) (w : Nat) (r q : Reg) (x : Nat) :
    (b.setView w r x).mag q / 2 ^ w = b.mag q / 2 ^ w := by
  by_cases h : r = q
  · subst h
    have hp : 0 < 2 ^ w := Nat.two_pow_pos w
    rw [mag_setView, if_pos rfl, Nat.mul_comm, Nat.mul_add_div hp, Nat.div_eq_of_lt (Nat.mod_lt _ hp), Nat.add_zero]
  · simp [h]

theorem view_lt (b : Block) (w : Nat) (r : Reg) : b.view w r < 2 ^ w := Nat.mod_lt _ (Nat.two_pow_pos w)

/-- A view changed within a wider register keeps the register within its width. -/
theorem mag_setView_lt (b : Block) {w u : Nat} (hw : w ≤ u) (r q : Reg) (x : Nat) (h : b.mag q < 2 ^ u) :
    (b.setView w r x).mag q < 2 ^ u := by
  have hp : 0 < 2 ^ w := Nat.two_pow_pos w
  obtain ⟨d, rfl⟩ := Nat.exists_eq_add_of_le hw
  rw [Nat.pow_add, Nat.mul_comm, ← Nat.div_lt_iff_lt_mul hp] at h ⊢
  rwa [upper_setView]

/-! A view read off the accessors. -/

@[simp] theorem view_setNeg (b : Block) (w : Nat) (r q : Reg) (x : Bool) : (b.setNeg r x).view w q = b.view w q := rfl
@[simp] theorem view_setCF (b : Block) (w : Nat) (c : Bool) (q : Reg) : (b.setCF c).view w q = b.view w q := rfl
@[simp] theorem view_setCompare (b : Block) (w : Nat) (e l : Bool) (q : Reg) :
    (b.setCompare e l).view w q = b.view w q := rfl
@[simp] theorem view_setShiftOut (b : Block) (w : Nat) (c : Option Bool) (q : Reg) :
    (b.setShiftOut c).view w q = b.view w q := by
  simp [Block.view]

/-- The word view as a number is the 64-bit view. -/
@[simp] theorem word_toNat (b : Block) (r : Reg) : (b.word r).toNat = b.view 64 r := by
  rw [Block.word, BitVec.toNat_ofNat, Nat.mod_eq_of_lt (view_lt b 64 r)]

/-! A word written. -/

@[simp] theorem neg_setWord (b : Block) (r q : Reg) (x : Word) : (b.setWord r x).neg q = b.neg q := rfl
@[simp] theorem cf_setWord (b : Block) (r : Reg) (x : Word) : (b.setWord r x).cf = b.cf := rfl
@[simp] theorem eq_setWord (b : Block) (r : Reg) (x : Word) : (b.setWord r x).eq = b.eq := rfl
@[simp] theorem lt_setWord (b : Block) (r : Reg) (x : Word) : (b.setWord r x).lt = b.lt := rfl
@[simp] theorem n_setWord (b : Block) (r : Reg) (x : Word) : (b.setWord r x).n = b.n := rfl

@[simp] theorem mag_setWord_ne (b : Block) {r q : Reg} (x : Word) (h : r ≠ q) :
    (b.setWord r x).mag q = b.mag q := by
  simp [Block.setWord, h]

@[simp] theorem view_setWord_self (b : Block) (r : Reg) (x : Word) : (b.setWord r x).view 64 r = x.toNat := by
  rw [Block.setWord, view_setView_self, Nat.mod_eq_of_lt x.isLt]

@[simp] theorem view_setWord_ne (b : Block) (w : Nat) {r q : Reg} (x : Word) (h : r ≠ q) :
    (b.setWord r x).view w q = b.view w q := by
  simp [Block.setWord, h]

@[simp] theorem upper_setWord (b : Block) (r q : Reg) (x : Word) :
    (b.setWord r x).mag q / 2 ^ 64 = b.mag q / 2 ^ 64 := upper_setView b 64 r q x.toNat

/-! A signed result written. -/

@[simp] theorem cf_setSigned (b : Block) (w : Nat) (r : Reg) (x : Signed) : (b.setSigned w r x).cf = b.cf := rfl
@[simp] theorem eq_setSigned (b : Block) (w : Nat) (r : Reg) (x : Signed) : (b.setSigned w r x).eq = b.eq := rfl
@[simp] theorem lt_setSigned (b : Block) (w : Nat) (r : Reg) (x : Signed) : (b.setSigned w r x).lt = b.lt := rfl

@[simp] theorem mag_setSigned (b : Block) (w : Nat) (r q : Reg) (x : Signed) :
    (b.setSigned w r x).mag q = (b.setView w r x.mag).mag q := rfl

@[simp] theorem view_setSigned (b : Block) (w u : Nat) (r q : Reg) (x : Signed) :
    (b.setSigned w r x).view u q = (b.setView w r x.mag).view u q := rfl

@[simp] theorem neg_setSigned (b : Block) (w : Nat) (r q : Reg) (x : Signed) :
    (b.setSigned w r x).neg q = if r = q then x.neg else b.neg q := by
  simp [Block.setSigned]

/-! The ends of a command, reset, and the host's moves. -/

@[simp] theorem complete_block (s : State) (b : Block) : (s.complete b).block = b := rfl
@[simp] theorem complete_status (s : State) (b : Block) : (s.complete b).status = some .ok := rfl
@[simp] theorem complete_params (s : State) (b : Block) : (s.complete b).params = s.params := rfl
@[simp] theorem complete_host (s : State) (b : Block) : (s.complete b).host = s.host := rfl

@[simp] theorem raise_block (s : State) (f : CommandFault) : (s.raise f).block = s.block := rfl
@[simp] theorem raise_status (s : State) (f : CommandFault) : (s.raise f).status = some (.fault f) := rfl
@[simp] theorem raise_params (s : State) (f : CommandFault) : (s.raise f).params = s.params := rfl
@[simp] theorem raise_host (s : State) (f : CommandFault) : (s.raise f).host = s.host := rfl

@[simp] theorem applyReset_block (s : State) : s.applyReset.block = Block.reset := rfl
@[simp] theorem applyReset_status (s : State) : s.applyReset.status = none := rfl
@[simp] theorem applyReset_params (s : State) : s.applyReset.params = s.params := rfl
@[simp] theorem applyReset_host (s : State) : s.applyReset.host = s.host := rfl

@[simp] theorem present_block (s : State) (c : Command) : (s.present c).block = s.block := rfl
@[simp] theorem present_status (s : State) (c : Command) : (s.present c).status = s.status := rfl
@[simp] theorem present_params (s : State) (c : Command) : (s.present c).params = s.params := rfl
@[simp] theorem present_host (s : State) (c : Command) : (s.present c).host = .command c :: s.host := rfl

@[simp] theorem takeMove_present (s : State) (c : Command) : (s.present c).takeMove = some (.command c, s) := rfl

theorem takeMove_nil {s : State} (h : s.host = []) : s.takeMove = none := by simp [State.takeMove, h]

theorem takeMove_cons {s : State} {m : Move} {rest : List Move} (h : s.host = m :: rest) :
    s.takeMove = some (m, { s with host := rest }) := by simp [State.takeMove, h]

@[simp] theorem mag_reset (r : Reg) : Block.reset.mag r = 0 := by
  simp [Block.mag, Block.reset]

@[simp] theorem neg_reset (r : Reg) : Block.reset.neg r = false := by
  simp [Block.neg, Block.reset]

/-- Two blocks that read alike everywhere are one block. -/
theorem Block.ext_read {b c : Block} (hm : ∀ r, b.mag r = c.mag r) (hn : ∀ r, b.neg r = c.neg r)
    (hc : b.cf = c.cf) (he : b.eq = c.eq) (hl : b.lt = c.lt) : b = c := by
  cases b; cases c
  simp only [Block.mk.injEq] at *
  refine ⟨Vector.ext fun i hi => hm ⟨i, hi⟩, Vector.ext fun i hi => hn ⟨i, hi⟩, hc, he, hl⟩

end Sys2Proof.Machine
end

