-- ==== Sys2Proof/Laws/Ops.lean ====
section
/-! SUPPORT. What the shared operations can do, each said once, so that later proofs cite these lemmas instead of
unfolding `perform`, the shapes of commands or the step. -/

namespace Sys2Proof.Machine

@[simp] theorem aliasClash_one (f : Field) : aliasClash [f] = false := by simp [aliasClash]

@[simp] theorem aliasClash_dst_src (rd rs : Reg) : aliasClash [dst rd, src rs] = decide (rd = rs) := by
  simp [aliasClash, dst, src]
  rfl

@[simp] theorem aliasClash_src_src (rd rs : Reg) : aliasClash [src rd, src rs] = false := by
  simp [aliasClash, src]

@[simp] theorem aliasClash_three (rd rs rt : Reg) :
    aliasClash [dst rd, src rs, dst rt] = decide (rd = rs ∨ rd = rt ∨ rs = rt) := by
  simp only [aliasClash, dst, src, List.any_cons, List.any_nil]
  by_cases h1 : rd = rs <;> by_cases h2 : rd = rt <;> by_cases h3 : rs = rt <;> simp [h1, h2, h3]

/-- A command always answers, in one of four ways and in this order: IllegalCommand, OperandAlias, its own fault, or OK
with the block its body computes (30_encoding.md R47, 60_exceptions.md R197). -/
theorem perform_cases (s : State) (legal : Bool) (fields : List Field) (body : Block → Except CommandFault Block) :
    ∃ t, perform s legal fields body = .next t ∧
      ((legal = false ∧ t = s.raise .illegalCommand) ∨
       (legal = true ∧ aliasClash fields = true ∧ t = s.raise .operandAlias) ∨
       (legal = true ∧ aliasClash fields = false ∧ ∃ f, body s.block = .error f ∧ t = s.raise f) ∨
       (legal = true ∧ aliasClash fields = false ∧ ∃ b, body s.block = .ok b ∧ t = s.complete b)) := by
  refine ⟨_, rfl, ?_⟩
  cases legal
  · simp
  · cases h : aliasClash fields
    · cases hb : body s.block <;> simp
    · simp

/-- On the instance, with fields apart and no fault of its own, the command completes. -/
theorem perform_ok {s : State} {legal : Bool} {fields : List Field} {body : Block → Except CommandFault Block} {b : Block}
    (hl : legal = true) (ha : aliasClash fields = false) (hb : body s.block = .ok b) :
    perform s legal fields body = .next (s.complete b) := by
  simp [perform, hl, ha, hb]

/-- A command that its instance does not have is IllegalCommand. -/
theorem perform_illegal {s : State} {legal : Bool} (fields : List Field) (body : Block → Except CommandFault Block)
    (hl : legal = false) : perform s legal fields body = .next (s.raise .illegalCommand) := by
  simp [perform, hl]

/-- Clashing fields are OperandAlias, whatever the operands are. -/
theorem perform_alias {s : State} {legal : Bool} {fields : List Field} (body : Block → Except CommandFault Block)
    (hl : legal = true) (ha : aliasClash fields = true) : perform s legal fields body = .next (s.raise .operandAlias) := by
  simp [perform, hl, ha]

/-- A failed precondition is the fault it names. -/
theorem perform_fault {s : State} {legal : Bool} {fields : List Field} {body : Block → Except CommandFault Block}
    {f : CommandFault} (hl : legal = true) (ha : aliasClash fields = false) (hb : body s.block = .error f) :
    perform s legal fields body = .next (s.raise f) := by
  simp [perform, hl, ha, hb]

/-! The shapes of commands complete as follows. -/

theorem wordCarry2_ok (f : Word → Word → Bool → Word × Bool) (cs : CarrySel) {rd rs : Reg} (s : State) (h : rd ≠ rs) :
    wordCarry2 f cs rd rs s = .next (s.complete
      ((s.block.setWord rd (f (s.block.word rd) (s.block.word rs) (s.block.carryIn cs)).1).setCF
        (f (s.block.word rd) (s.block.word rs) (s.block.carryIn cs)).2)) :=
  perform_ok rfl (by simp [h]) rfl

theorem wordCarry1_ok (f : Word → Bool → Word × Bool) (cs : CarrySel) (rd : Reg) (s : State) :
    wordCarry1 f cs rd s = .next (s.complete
      ((s.block.setWord rd (f (s.block.word rd) (s.block.carryIn cs)).1).setCF
        (f (s.block.word rd) (s.block.carryIn cs)).2)) :=
  perform_ok rfl (by simp) rfl

theorem levelCarry2_ok (f : Nat → Nat → Bool → Nat × Bool) {k : Level} (cs : CarrySel) {rd rs : Reg} {s : State}
    (hk : k.val ≤ s.params.kmax) (h : rd ≠ rs) :
    levelCarry2 f k cs rd rs s = .next (s.complete
      ((s.block.setView (width k) rd
          (f (s.block.view (width k) rd) (s.block.view (width k) rs) (s.block.carryIn cs)).1).setCF
        (f (s.block.view (width k) rd) (s.block.view (width k) rs) (s.block.carryIn cs)).2)) :=
  perform_ok (by simp [levelLegal, hk]) (by simp [h]) rfl

theorem levelCarry1_ok (f : Nat → Bool → Nat × Bool) {k : Level} (cs : CarrySel) (rd : Reg) {s : State}
    (hk : k.val ≤ s.params.kmax) :
    levelCarry1 f k cs rd s = .next (s.complete
      ((s.block.setView (width k) rd (f (s.block.view (width k) rd) (s.block.carryIn cs)).1).setCF
        (f (s.block.view (width k) rd) (s.block.carryIn cs)).2)) :=
  perform_ok (by simp [levelLegal, hk]) (by simp) rfl

theorem levelBitwise_ok (f : Nat → Nat → Nat) {k : Level} {rd rs : Reg} {s : State}
    (hk : k.val ≤ s.params.kmax) (h : rd ≠ rs) :
    levelBitwise f k rd rs s = .next (s.complete
      (s.block.setView (width k) rd (f (s.block.view (width k) rd) (s.block.view (width k) rs)))) :=
  perform_ok (by simp [levelLegal, hk]) (by simp [h]) rfl

theorem levelShift_ok (f : Nat → Nat → Nat × Option Bool) {k : Level} (rd : Reg) (imm : BitVec 32) {s : State}
    (hk : k.val ≤ s.params.kmax) :
    levelShift f k rd imm s = .next (s.complete
      ((s.block.setView (width k) rd (f (s.block.view (width k) rd) imm.toNat).1).setShiftOut
        (f (s.block.view (width k) rd) imm.toNat).2)) :=
  perform_ok (by simp [levelLegal, hk]) (by simp) rfl

theorem signedCarry2_ok {f : Signed → Signed → Bool → Except CommandFault (Signed × Bool)} {k : Level} {cs : CarrySel}
    {rd rs : Reg} {s : State} {r : Signed × Bool} (hk : k.val ≤ s.params.kmax) (h : rd ≠ rs)
    (hf : f (s.block.signed (width k) rd) (s.block.signed (width k) rs) (s.block.carryIn cs) = .ok r) :
    signedCarry2 f k cs rd rs s = .next (s.complete ((s.block.setSigned (width k) rd r.1).setCF r.2)) :=
  perform_ok (by simp [levelLegal, hk]) (by simp [h]) (by simp [hf])

theorem signedCarry1_ok (f : Signed → Bool → Signed × Bool) {k : Level} (cs : CarrySel) (rd : Reg) {s : State}
    (hk : k.val ≤ s.params.kmax) :
    signedCarry1 f k cs rd s = .next (s.complete
      ((s.block.setSigned (width k) rd (f (s.block.signed (width k) rd) (s.block.carryIn cs)).1).setCF
        (f (s.block.signed (width k) rd) (s.block.carryIn cs)).2)) :=
  perform_ok (by simp [levelLegal, hk]) (by simp) rfl

theorem signedBinary_ok (f : Signed → Signed → Signed) {k : Level} {rd rs : Reg} {s : State}
    (hk : k.val ≤ s.params.kmax) (h : rd ≠ rs) :
    signedBinary f k rd rs s = .next (s.complete
      (s.block.setSigned (width k) rd (f (s.block.signed (width k) rd) (s.block.signed (width k) rs)))) :=
  perform_ok (by simp [levelLegal, hk]) (by simp [h]) rfl

theorem signedShift_ok (f : Signed → Nat → Signed × Option Bool) {k : Level} (rd : Reg) (imm : BitVec 32) {s : State}
    (hk : k.val ≤ s.params.kmax) :
    signedShift f k rd imm s = .next (s.complete
      ((s.block.setSigned (width k) rd (f (s.block.signed (width k) rd) imm.toNat).1).setShiftOut
        (f (s.block.signed (width k) rd) imm.toNat).2)) :=
  perform_ok (by simp [levelLegal, hk]) (by simp) rfl

theorem compareShape_ok (eq lt : Block → Bool) {k : Level} (rd rs : Reg) {s : State} (hk : k.val ≤ s.params.kmax) :
    compareShape eq lt k rd rs s = .next (s.complete (s.block.setCompare (eq s.block) (lt s.block))) :=
  perform_ok (by simp [levelLegal, hk]) (by simp) rfl

theorem loadShape_ok {legal : Bool} {k : Level} (rd : Reg) (x : Signed) {s : State}
    (hk : k.val ≤ s.params.kmax) (hl : legal = true) :
    loadShape legal k rd x s = .next (s.complete (s.block.setSigned (width k) rd x)) :=
  perform_ok (by simp [levelLegal, hk, hl]) (by simp) rfl

theorem moveShape_ok (f : Block → Signed) {k : Level} {rd rs : Reg} {s : State}
    (hk : k.val ≤ s.params.kmax) (h : rd ≠ rs) :
    moveShape f k rd rs s = .next (s.complete (s.block.setSigned (width k) rd (f s.block))) :=
  perform_ok (by simp [levelLegal, hk]) (by simp [h]) rfl

/-! The step. -/

/-- What one step can do: idle, execute the presented command, or reset. -/
theorem step_cases (s : State) :
    (s.host = [] ∧ step s = .next s) ∨
    (∃ c rest, s.host = .command c :: rest ∧ step s = ({ s with host := rest } : State).execute c) ∨
    (∃ rest, (s.host = .reset :: rest ∨ ∃ c, s.host = .resetDuring c :: rest) ∧
      step s = .next ({ s with host := rest } : State).applyReset) := by
  match h : s.host with
  | [] => simp [step, takeMove_nil h]
  | .command c :: rest => simp [step, takeMove_cons h]
  | .reset :: rest => simp [step, takeMove_cons h]
  | .resetDuring c :: rest => simp [step, takeMove_cons h]

theorem step_present (s : State) (c : Command) : step (s.present c) = s.execute c := rfl

theorem execute_of_decode {s : State} {c : Command} {i : Instr} (h : decode c = .ok i) : s.execute c = exec i s := by
  simp [State.execute, h]

theorem execute_of_error {s : State} {c : Command} {e : DecodeError} (h : decode c = .error e) :
    s.execute c = .next (s.raise .illegalCommand) := by
  simp [State.execute, h]

end Sys2Proof.Machine
end

