-- ==== Sys2Proof/Laws/Exec.lean ====
section
/-! SUPPORT. One inversion lemma for all commands: the meaning of every instruction is `perform` with the instruction's
legality, its register fields and its effect on the block, so that a statement over all commands needs one case split on
the effect only. -/

namespace Sys2Proof.Machine

/-- The legality a meaning checks. -/
def legalOf (i : Instr) (p : Params) : Bool :=
  match i with
  | .adc64 .. | .sbb64 .. | .mulw64 .. | .rcl64 .. | .rcr64 .. => true
  | .divw64 .. => p.hasDivw64
  | .ldi k _ _ payload => levelLegal k p && payloadLegal k payload
  | .lds k .. => levelLegal k p && true
  | .add k .. | .sub k .. | .shl1 k .. | .shr1 k .. | .mulw k .. | .divmod k .. | .cmp k .. | .and k .. | .or k ..
  | .xor k .. | .shln k .. | .shrn k .. | .lift k .. | .copy k .. | .lowb k ..
  | .sadd k .. | .ssub k .. | .sshl1 k .. | .sshr1 k .. | .smul k .. | .sdiv k .. | .scmp k .. | .sand k ..
  | .sor k .. | .sxor k .. | .sshln k .. | .sshrn k .. => levelLegal k p

/-- The register fields a meaning checks for aliasing. -/
def fieldsOf (i : Instr) : List Field := i.usedFields.map fun f => { reg := f.1, written := f.2 }

/-- A result with a carry, written to a word view and CF. -/
def putWordCarry (b : Block) (rd : Reg) (r : Word × Bool) : Block := (b.setWord rd r.1).setCF r.2

/-- A result with a carry, written to a view and CF. -/
def putViewCarry (b : Block) (w : Nat) (rd : Reg) (r : Nat × Bool) : Block := (b.setView w rd r.1).setCF r.2

/-- A signed result with a carry, written to a view, its sign and CF. -/
def putSignedCarry (b : Block) (w : Nat) (rd : Reg) (r : Signed × Bool) : Block := (b.setSigned w rd r.1).setCF r.2

/-- The effect of an instruction on the block, or the fault of its own precondition. -/
def effectOf (i : Instr) (p : Params) (b : Block) : Except CommandFault Block :=
  match i with
  | .adc64 cs rd rs => .ok (putWordCarry b rd (adc64 (b.word rd) (b.word rs) (b.carryIn cs)))
  | .sbb64 cs rd rs => .ok (putWordCarry b rd (sbb64 (b.word rd) (b.word rs) (b.carryIn cs)))
  | .mulw64 rd rs rt =>
    .ok ((b.setWord rd (mulw64 (b.word rd) (b.word rs)).1).setWord rt (mulw64 (b.word rd) (b.word rs)).2)
  | .rcl64 cs rd => .ok (putWordCarry b rd (rcl64 (b.word rd) (b.carryIn cs)))
  | .rcr64 cs rd => .ok (putWordCarry b rd (rcr64 (b.word rd) (b.carryIn cs)))
  | .divw64 rd rs rt =>
    match divw64 (b.word rt) (b.word rd) (b.word rs) with
    | .error f => .error f
    | .ok r => .ok ((b.setWord rd r.1).setWord rt r.2)
  | .add k cs rd rs => .ok (putViewCarry b (width k) rd (lAdd k (b.view (width k) rd) (b.view (width k) rs) (b.carryIn cs)))
  | .sub k cs rd rs => .ok (putViewCarry b (width k) rd (lSub k (b.view (width k) rd) (b.view (width k) rs) (b.carryIn cs)))
  | .shl1 k cs rd => .ok (putViewCarry b (width k) rd (lShl1 k (b.view (width k) rd) (b.carryIn cs)))
  | .shr1 k cs rd => .ok (putViewCarry b (width k) rd (lShr1 k (b.view (width k) rd) (b.carryIn cs)))
  | .mulw k rd rs rt =>
    .ok ((b.setView (width k) rd (lMulw k (b.view (width k) rd) (b.view (width k) rs)).1).setView (width k) rt
      (lMulw k (b.view (width k) rd) (b.view (width k) rs)).2)
  | .divmod k rd rs rt =>
    match lDivmod (b.view (width k) rd) (b.view (width k) rs) with
    | .error f => .error f
    | .ok r => .ok ((b.setView (width k) rd r.1).setView (width k) rt r.2)
  | .cmp k rd rs =>
    .ok (b.setCompare (lEq (b.view (width k) rd) (b.view (width k) rs)) (lLt (b.view (width k) rd) (b.view (width k) rs)))
  | .and k rd rs => .ok (b.setView (width k) rd (lAnd (b.view (width k) rd) (b.view (width k) rs)))
  | .or k rd rs => .ok (b.setView (width k) rd (lOr (b.view (width k) rd) (b.view (width k) rs)))
  | .xor k rd rs => .ok (b.setView (width k) rd (lXor (b.view (width k) rd) (b.view (width k) rs)))
  | .shln k rd imm =>
    .ok ((b.setView (width k) rd (lShln k (b.view (width k) rd) imm.toNat).1).setShiftOut
      (lShln k (b.view (width k) rd) imm.toNat).2)
  | .shrn k rd imm =>
    .ok ((b.setView (width k) rd (lShrn k (b.view (width k) rd) imm.toNat).1).setShiftOut
      (lShrn k (b.view (width k) rd) imm.toNat).2)
  | .ldi k rd sg payload => .ok (b.setSigned (width k) rd (sNorm (payloadValue payload) sg))
  | .lds k rd imm => .ok (b.setSigned (width k) rd { mag := imm.toNat, neg := false })
  | .lift k rd rs => .ok (b.setSigned (width k) rd (b.signed (halfWidth k) rs))
  | .copy k rd rs => .ok (b.setSigned (width k) rd (b.signed (width k) rs))
  | .lowb k rd rs => .ok (b.setSigned (width k) rd { mag := b.view 8 rs, neg := false })
  | .sadd k cs rd rs =>
    match sAdd k (b.signed (width k) rd) (b.signed (width k) rs) (b.carryIn cs) with
    | .error f => .error f
    | .ok r => .ok (putSignedCarry b (width k) rd r)
  | .ssub k cs rd rs =>
    match sSub p.ssubMode k (b.signed (width k) rd) (b.signed (width k) rs) (b.carryIn cs) with
    | .error f => .error f
    | .ok r => .ok (putSignedCarry b (width k) rd r)
  | .sshl1 k cs rd => .ok (putSignedCarry b (width k) rd (sShl1 k (b.signed (width k) rd) (b.carryIn cs)))
  | .sshr1 k cs rd => .ok (putSignedCarry b (width k) rd (sShr1 k (b.signed (width k) rd) (b.carryIn cs)))
  | .smul k rd rs => .ok (b.setSigned (width k) rd (sMul k (b.signed (width k) rd) (b.signed (width k) rs)))
  | .sdiv k rd rs rt =>
    match sDiv (b.signed (width k) rd) (b.signed (width k) rs) with
    | .error f => .error f
    | .ok r => .ok ((b.setSigned (width k) rd r.1).setSigned (width k) rt r.2)
  | .scmp k rd rs =>
    .ok (b.setCompare (sEq (b.signed (width k) rd) (b.signed (width k) rs))
      (sLt (b.signed (width k) rd) (b.signed (width k) rs)))
  | .sand k rd rs => .ok (b.setSigned (width k) rd (sAnd (b.signed (width k) rd) (b.signed (width k) rs)))
  | .sor k rd rs => .ok (b.setSigned (width k) rd (sOr (b.signed (width k) rd) (b.signed (width k) rs)))
  | .sxor k rd rs => .ok (b.setSigned (width k) rd (sXor (b.signed (width k) rd) (b.signed (width k) rs)))
  | .sshln k rd imm =>
    .ok ((b.setSigned (width k) rd (sShln k (b.signed (width k) rd) imm.toNat).1).setShiftOut
      (sShln k (b.signed (width k) rd) imm.toNat).2)
  | .sshrn k rd imm =>
    .ok ((b.setSigned (width k) rd (sShrn k (b.signed (width k) rd) imm.toNat).1).setShiftOut
      (sShrn k (b.signed (width k) rd) imm.toNat).2)

/-- Every meaning is `perform` with the instruction's legality, fields and effect. -/
theorem exec_eq_perform (i : Instr) (s : State) :
    exec i s = perform s (legalOf i s.params) (fieldsOf i) (effectOf i s.params) := by
  cases i <;> rfl

/-- The legality a meaning checks is the instance's having the command. -/
theorem legalOf_iff (i : Instr) (p : Params) : legalOf i p = true ↔ i.onInstance p := by
  cases i <;>
    simp [legalOf, Instr.onInstance, Instr.wellFormed, Instr.level?, Instr.operation, levelLegal, payloadLegal,
      payloadWords, and_comm]

/-- The clash a meaning checks is the alias of the rule. -/
theorem aliasClash_iff (i : Instr) : aliasClash (fieldsOf i) = true ↔ i.aliased := by
  constructor
  · intro h
    cases i <;> simp [fieldsOf, Instr.usedFields, aliasClash] at h
    case mulw64 | divw64 | mulw | divmod | sdiv =>
      rcases h with (h | h) | h
      · exact ⟨0, 1, by simp [Instr.usedFields], by simp [Instr.usedFields], by simp, by simp [Instr.usedFields, h]⟩
      · exact ⟨0, 2, by simp [Instr.usedFields], by simp [Instr.usedFields], by simp, by simp [Instr.usedFields, h]⟩
      · exact ⟨1, 2, by simp [Instr.usedFields], by simp [Instr.usedFields], by simp, by simp [Instr.usedFields, h]⟩
    all_goals
      exact ⟨0, 1, by simp [Instr.usedFields], by simp [Instr.usedFields], by simp, by simp [Instr.usedFields, h]⟩
  · rintro ⟨m, n, hm, hn, hmn, hr, hw⟩
    cases i <;> simp only [Instr.usedFields, List.length_cons, List.length_nil] at hm hn <;>
      (have : m = 0 ∨ m = 1 := by omega
       have : n = 1 ∨ n = 2 := by omega
       rcases ‹m = 0 ∨ m = 1› with rfl | rfl <;> rcases ‹n = 1 ∨ n = 2› with rfl | rfl <;>
         first
         | omega
         | (simp [Instr.usedFields] at hr hw; done)
         | (simp [Instr.usedFields] at hr hw; simp [fieldsOf, Instr.usedFields, aliasClash, hr]))

/-- What one command can do, for every command: the four ends of `perform`, in the terms of the rules. -/
theorem exec_cases (i : Instr) (s : State) :
    ∃ t, exec i s = .next t ∧
      ((¬ i.onInstance s.params ∧ t = s.raise .illegalCommand) ∨
       (i.onInstance s.params ∧ i.aliased ∧ t = s.raise .operandAlias) ∨
       (i.onInstance s.params ∧ ¬ i.aliased ∧ ∃ f, effectOf i s.params s.block = .error f ∧ t = s.raise f) ∨
       (i.onInstance s.params ∧ ¬ i.aliased ∧ ∃ b, effectOf i s.params s.block = .ok b ∧ t = s.complete b)) := by
  obtain ⟨t, ht, h⟩ := perform_cases s (legalOf i s.params) (fieldsOf i) (effectOf i s.params)
  refine ⟨t, by rw [exec_eq_perform, ht], ?_⟩
  simpa only [← legalOf_iff, ← aliasClash_iff, Bool.not_eq_true] using h

/-- The effect fails exactly with the fault the rules give the command's own precondition. -/
theorem effectOf_error_iff (i : Instr) (p : Params) (b : Block) (f : CommandFault) :
    effectOf i p b = .error f ↔ i.ownFault b = some f := by
  cases i <;> simp only [effectOf, Instr.ownFault, reduceCtorEq]
  case divw64 rd rs rt =>
    by_cases h : b.view 64 rs ≤ b.view 64 rt <;> simp [divw64, h]
  case divmod k rd rs rt =>
    by_cases h : b.view (width k) rs = 0 <;> simp [lDivmod, h]
  case sdiv k rd rs rt =>
    by_cases h : b.view (width k) rs = 0 <;> simp [sDiv, lDivmod, Block.signed, h]
  case sadd k cs rd rs =>
    cases cs <;> cases h : b.cf <;> simp [sAdd, Block.carryIn, h]
  case ssub k cs rd rs =>
    cases cs <;> cases h : b.cf <;> cases p.ssubMode <;> simp [sSub, sAdd, Block.carryIn, h]

end Sys2Proof.Machine
end

