-- ==== Sys2Proof/Laws/Frames.lean ====
section
/-! SUPPORT. How `changesOnly` grows with each update: a block reached by writing only listed registers, signs and flags
changes only those. -/

namespace Sys2Proof.Machine

variable {b c : Block} {w : Nat} {regs signs : List Reg} {cf cmp : Bool}

theorem changesOnly_refl : b.changesOnly b w regs signs cf cmp := by
  simp [Block.changesOnly]

theorem changesOnly_setView {r : Reg} (h : b.changesOnly c w regs signs cf cmp) (x : Nat) (hr : r ∈ regs) :
    b.changesOnly (c.setView w r x) w regs signs cf cmp := by
  obtain ⟨h1, h2, h3, h4, h5⟩ := h
  refine ⟨fun q hq => ?_, fun q => ?_, h3, h4, h5⟩
  · rw [mag_setView_ne _ _ _ (fun hrq : r = q => hq (hrq ▸ hr)), h1 q hq]
  · rw [upper_setView, h2 q]

theorem changesOnly_setWord {r : Reg} (h : b.changesOnly c 64 regs signs cf cmp) (x : Word) (hr : r ∈ regs) :
    b.changesOnly (c.setWord r x) 64 regs signs cf cmp := changesOnly_setView h x.toNat hr

theorem changesOnly_setNeg {r : Reg} (h : b.changesOnly c w regs signs cf cmp) (x : Bool) (hr : r ∈ signs) :
    b.changesOnly (c.setNeg r x) w regs signs cf cmp := by
  obtain ⟨h1, h2, h3, h4, h5⟩ := h
  refine ⟨h1, h2, fun q hq => ?_, h4, h5⟩
  rw [neg_setNeg, if_neg (fun hrq : r = q => hq (hrq ▸ hr)), h3 q hq]

theorem changesOnly_setSigned {r : Reg} (h : b.changesOnly c w regs signs cf cmp) (x : Signed) (hr : r ∈ regs)
    (hs : r ∈ signs) : b.changesOnly (c.setSigned w r x) w regs signs cf cmp :=
  changesOnly_setNeg (changesOnly_setView h x.mag hr) x.neg hs

theorem changesOnly_setCF (h : b.changesOnly c w regs signs true cmp) (x : Bool) :
    b.changesOnly (c.setCF x) w regs signs true cmp := by
  obtain ⟨h1, h2, h3, _, h5⟩ := h
  exact ⟨h1, h2, h3, fun h => (by cases h), h5⟩

/-- A shift that moves no bit out leaves CF; any other may write it. -/
theorem changesOnly_setShiftOut {x : Option Bool} (h : b.changesOnly c w regs signs cf cmp) (hx : x = none ∨ cf = true) :
    b.changesOnly (c.setShiftOut x) w regs signs cf cmp := by
  rcases hx with rfl | rfl
  · exact h
  · cases x with
    | none => exact h
    | some y => exact changesOnly_setCF h y

theorem changesOnly_setCompare (h : b.changesOnly c w regs signs cf true) (e l : Bool) :
    b.changesOnly (c.setCompare e l) w regs signs cf true := by
  obtain ⟨h1, h2, h3, h4, _⟩ := h
  exact ⟨h1, h2, h3, h4, fun h => (by cases h)⟩

end Sys2Proof.Machine
end

