-- ==== Sys2Proof/Laws/Functions.lean ====
section
/-! SUPPORT. Sizes and signs of what the functions answer: every result fits its level, and a normalised pair is never a
negative zero. -/

namespace Sys2Proof.Machine

theorem width_pos (k : Nat) : 128 ≤ width k := Nat.le_mul_of_pos_right _ (Nat.two_pow_pos _)

theorem width_le {k m : Nat} (h : k ≤ m) : width k ≤ width m :=
  Nat.mul_le_mul_left _ (Nat.pow_le_pow_right (by omega) h)

theorem width_half (k : Nat) : width k = 2 * halfWidth k := by
  simp only [width, halfWidth]
  ring

/-- The half of a level is the width of the level below (00_scope.md R3). -/
theorem halfWidth_succ (k : Nat) : halfWidth (k + 1) = width k := by
  simp only [width, halfWidth, Nat.pow_succ]
  ring

theorem toNat_le_one (c : Bool) : c.toNat ≤ 1 := by cases c <;> simp

/-! The word primitives as numbers. -/

theorem adc64_toNat (a b : Word) (c : Bool) :
    (adc64 a b c).1.toNat = (a.toNat + b.toNat + c.toNat) % 2 ^ 64 := by simp [adc64]

theorem sbb64_toNat (a b : Word) (c : Bool) :
    ((sbb64 a b c).1.toNat : Int) = ((a.toNat : Int) - b.toNat - c.toNat) % 2 ^ 64 := by
  simp [sbb64, BitVec.toNat_ofInt]
  omega

/-! Results fit their level. -/

theorem lAdd_lt (k a b : Nat) (c : Bool) : (lAdd k a b c).1 < 2 ^ width k := Nat.mod_lt _ (Nat.two_pow_pos _)

theorem lSub_eq (k a b : Nat) (c : Bool) : ((lSub k a b c).1 : Int) = ((a : Int) - b - c.toNat) % 2 ^ width k := by
  have h : ((2 ^ width k : Nat) : Int) = 2 ^ width k := by push_cast; rfl
  have h0 : (0 : Int) < 2 ^ width k := by positivity
  simp only [lSub, h]
  exact Int.toNat_of_nonneg (Int.emod_nonneg _ h0.ne')

theorem lSub_lt (k a b : Nat) (c : Bool) : (lSub k a b c).1 < 2 ^ width k := by
  have h0 : (0 : Int) < 2 ^ width k := by positivity
  have h := Int.emod_lt_of_pos ((a : Int) - b - c.toNat) h0
  rw [← lSub_eq k a b c] at h
  exact_mod_cast h

theorem lShl1_lt (k a : Nat) (c : Bool) : (lShl1 k a c).1 < 2 ^ width k := by
  simp only [lShl1]
  obtain ⟨d, hd⟩ : ∃ d, width k = d + 1 := ⟨width k - 1, by have := width_pos k; omega⟩
  rw [hd, Nat.pow_succ, Nat.mul_comm, Nat.mul_mod_mul_right]
  have := Nat.mod_lt a (Nat.two_pow_pos d)
  have := toNat_le_one c
  omega

theorem lShr1_lt (k : Nat) {a : Nat} (c : Bool) (h : a < 2 ^ width k) : (lShr1 k a c).1 < 2 ^ width k := by
  simp only [lShr1]
  obtain ⟨d, hd⟩ : ∃ d, width k = d + 1 := ⟨width k - 1, by have := width_pos k; omega⟩
  rw [hd, Nat.pow_succ] at h ⊢
  simp only [Nat.add_sub_cancel]
  cases c <;> simp <;> omega

theorem lShln_lt (k a n : Nat) : (lShln k a n).1 < 2 ^ width k := by
  simp only [lShln]
  split
  · exact Nat.mod_lt _ (Nat.two_pow_pos _)
  · exact Nat.two_pow_pos _

theorem lShrn_lt (k : Nat) {a : Nat} (n : Nat) (h : a < 2 ^ width k) : (lShrn k a n).1 < 2 ^ width k := by
  simp only [lShrn]
  split
  · exact lt_of_le_of_lt (Nat.div_le_self _ _) h
  · exact Nat.two_pow_pos _

/-- A payload of `n` words is a number below 2^(64·n) (30_encoding.md R55). -/
theorem payloadValue_lt (p : List Word) : payloadValue p < 2 ^ (64 * p.length) := by
  induction p with
  | nil => simp [payloadValue]
  | cons w ws ih =>
    simp only [payloadValue, List.length_cons]
    have := w.isLt
    rw [Nat.mul_add, Nat.pow_add, Nat.mul_comm]
    simp only [Nat.mul_one]
    calc w.toNat + payloadValue ws * 2 ^ 64 < (payloadValue ws + 1) * 2 ^ 64 := by omega
      _ ≤ 2 ^ (64 * ws.length) * 2 ^ 64 := Nat.mul_le_mul_right _ ih

/-- The payload of an LDI fits its level (30_encoding.md R55). -/
theorem payloadValue_lt_level {k : Level} {p : List Word} (h : p.length = 2 ^ (k.val + 1)) :
    payloadValue p < 2 ^ width k := by
  have := payloadValue_lt p
  rw [h] at this
  convert this using 2
  simp only [width, Nat.pow_succ]
  ring

/-! Normalised pairs. -/

@[simp] theorem sNorm_mag (m : Nat) (n : Bool) : (sNorm m n).mag = m := by
  unfold sNorm
  split <;> simp_all

theorem sNorm_neg (m : Nat) (n : Bool) : (sNorm m n).neg = if m = 0 then false else n := by
  unfold sNorm
  split <;> simp_all

/-- A signed operand is never a negative zero (10_state.md R14). -/
theorem signed_neg_of_zero (b : Block) (w : Nat) (r : Reg) (h : (b.signed w r).mag = 0) : (b.signed w r).neg = false := by
  simp only [Block.signed] at h
  simp [Block.signed, Block.effNeg, h]

/-- A signed result that fits its view and is no negative zero reads back as it was written. -/
theorem signed_setSigned_self (b : Block) {w : Nat} (r : Reg) {x : Signed} (h : x.mag < 2 ^ w)
    (hn : x.mag = 0 → x.neg = false) : (b.setSigned w r x).signed w r = x := by
  obtain ⟨m, n⟩ := x
  simp only at h hn
  simp [Block.signed, Block.effNeg, Nat.mod_eq_of_lt h]
  by_cases hm : m = 0 <;> simp [hm, hn]

end Sys2Proof.Machine
end

