-- ==== Sys2Proof/Laws/Header.lean ====
section
/-! SUPPORT. A header word and its ten fields carry the same bits: what the decoder cuts out, the encoder puts back. -/

namespace Sys2Proof

/-- The fields of a header word are the fields it was made of (30_encoding.md R46). -/
theorem ofWord_toWord (h : Header) : Header.ofWord h.toWord = h := by
  obtain ⟨op, k, s, cs, rd, rs, rt, sg, zero, imm⟩ := h
  simp only [Header.ofWord, Header.toWord, Header.mk.injEq]
  refine ⟨?_, ?_, ?_, ?_, ?_, ?_, ?_, ?_, ?_, ?_⟩ <;> ext i hi <;>
    simp only [← BitVec.getLsbD_eq_getElem, BitVec.getLsbD_extractLsb', BitVec.getLsbD_append, hi, decide_true,
      Bool.true_and]
  all_goals repeat (first | rw [if_pos (by omega)] | rw [if_neg (by omega)])
  all_goals (congr 1; omega)

/-- A header word is made of its fields: no bit of it lies outside them (30_encoding.md R46). -/
theorem toWord_ofWord (w : Word) : (Header.ofWord w).toWord = w := by
  simp only [Header.ofWord, Header.toWord]
  ext i hi
  simp only [← BitVec.getLsbD_eq_getElem, BitVec.getLsbD_extractLsb', BitVec.getLsbD_append]
  split_ifs <;> rw [decide_eq_true (by omega), Bool.true_and] <;> congr 1 <;> omega

theorem carryBits_cases (cs : BitVec 2) : cs = 0 ∨ cs = 1 ∨ cs = 2 ∨ cs = 3 := by
  revert cs
  decide

theorem bit_cases (b : BitVec 1) : b = 0 ∨ b = 1 := by
  revert b
  decide

/-- The carry select is read from the code it is written as (30_encoding.md R52). -/
@[simp] theorem carrySel?_bits (cs : CarrySel) : carrySel? cs.bits = some cs := by
  cases cs <;> rfl

/-- A decoded command comes from its operation, with unused fields zero and the payload of its length. -/
theorem decode_ok_iff (c : Command) (i : Instr) :
    decode c = .ok i ↔
      ∃ o, operation? (Header.ofWord c.header).op (Header.ofWord c.header).s = some o ∧
        (Header.ofWord c.header).unusedAreZero o.uses = true ∧
        c.payload.length = o.payloadLength (Header.ofWord c.header).k ∧
        o.build (Header.ofWord c.header) c.payload = .ok i := by
  simp only [decode]
  cases h : operation? (Header.ofWord c.header).op (Header.ofWord c.header).s with
  | none => simp
  | some o =>
    by_cases hu : (Header.ofWord c.header).unusedAreZero o.uses = true <;>
      by_cases hp : c.payload.length = o.payloadLength (Header.ofWord c.header).k <;> simp [hu, hp]

end Sys2Proof
end

