-- ==== Sys2Proof/Laws/PerInstr.lean ====
section
/-! SUPPORT. A family of statements, one per instruction: the header that the encoder writes for it is that of its row of
the opcode table, with every unused field zero (spec 30_encoding.md R48, R50 to R54, R56). -/

namespace Sys2Proof.Laws.HeaderRow

/-- The header fields of an instruction select its own operation, and every field that operation does not use is zero. -/
def Statement (i : Instr) : Prop :=
  operation? i.header.op i.header.s = some i.operation ∧ i.header.unusedAreZero i.operation.uses = true

theorem adc64 (cs : CarrySel) (rd rs : Reg) : Statement (.adc64 cs rd rs) := ⟨rfl, rfl⟩
theorem sbb64 (cs : CarrySel) (rd rs : Reg) : Statement (.sbb64 cs rd rs) := ⟨rfl, rfl⟩
theorem mulw64 (rd rs rt : Reg) : Statement (.mulw64 rd rs rt) := ⟨rfl, rfl⟩
theorem rcl64 (cs : CarrySel) (rd : Reg) : Statement (.rcl64 cs rd) := ⟨rfl, rfl⟩
theorem rcr64 (cs : CarrySel) (rd : Reg) : Statement (.rcr64 cs rd) := ⟨rfl, rfl⟩
theorem divw64 (rd rs rt : Reg) : Statement (.divw64 rd rs rt) := ⟨rfl, rfl⟩
theorem add (k : Level) (cs : CarrySel) (rd rs : Reg) : Statement (.add k cs rd rs) := ⟨rfl, rfl⟩
theorem sub (k : Level) (cs : CarrySel) (rd rs : Reg) : Statement (.sub k cs rd rs) := ⟨rfl, rfl⟩
theorem shl1 (k : Level) (cs : CarrySel) (rd : Reg) : Statement (.shl1 k cs rd) := ⟨rfl, rfl⟩
theorem shr1 (k : Level) (cs : CarrySel) (rd : Reg) : Statement (.shr1 k cs rd) := ⟨rfl, rfl⟩
theorem mulw (k : Level) (rd rs rt : Reg) : Statement (.mulw k rd rs rt) := ⟨rfl, rfl⟩
theorem divmod (k : Level) (rd rs rt : Reg) : Statement (.divmod k rd rs rt) := ⟨rfl, rfl⟩
theorem cmp (k : Level) (rd rs : Reg) : Statement (.cmp k rd rs) := ⟨rfl, rfl⟩
theorem and (k : Level) (rd rs : Reg) : Statement (.and k rd rs) := ⟨rfl, rfl⟩
theorem or (k : Level) (rd rs : Reg) : Statement (.or k rd rs) := ⟨rfl, rfl⟩
theorem xor (k : Level) (rd rs : Reg) : Statement (.xor k rd rs) := ⟨rfl, rfl⟩
theorem shln (k : Level) (rd : Reg) (imm : BitVec 32) : Statement (.shln k rd imm) := ⟨rfl, rfl⟩
theorem shrn (k : Level) (rd : Reg) (imm : BitVec 32) : Statement (.shrn k rd imm) := ⟨rfl, rfl⟩
theorem ldi (k : Level) (rd : Reg) (sg : Bool) (payload : List Word) : Statement (.ldi k rd sg payload) := ⟨rfl, rfl⟩
theorem lds (k : Level) (rd : Reg) (imm : BitVec 32) : Statement (.lds k rd imm) := ⟨rfl, rfl⟩
theorem lift (k : Level) (rd rs : Reg) : Statement (.lift k rd rs) := ⟨rfl, rfl⟩
theorem copy (k : Level) (rd rs : Reg) : Statement (.copy k rd rs) := ⟨rfl, rfl⟩
theorem lowb (k : Level) (rd rs : Reg) : Statement (.lowb k rd rs) := ⟨rfl, rfl⟩
theorem sadd (k : Level) (cs : CarrySel) (rd rs : Reg) : Statement (.sadd k cs rd rs) := ⟨rfl, rfl⟩
theorem ssub (k : Level) (cs : CarrySel) (rd rs : Reg) : Statement (.ssub k cs rd rs) := ⟨rfl, rfl⟩
theorem sshl1 (k : Level) (cs : CarrySel) (rd : Reg) : Statement (.sshl1 k cs rd) := ⟨rfl, rfl⟩
theorem sshr1 (k : Level) (cs : CarrySel) (rd : Reg) : Statement (.sshr1 k cs rd) := ⟨rfl, rfl⟩
theorem smul (k : Level) (rd rs : Reg) : Statement (.smul k rd rs) := ⟨rfl, rfl⟩
theorem sdiv (k : Level) (rd rs rt : Reg) : Statement (.sdiv k rd rs rt) := ⟨rfl, rfl⟩
theorem scmp (k : Level) (rd rs : Reg) : Statement (.scmp k rd rs) := ⟨rfl, rfl⟩
theorem sand (k : Level) (rd rs : Reg) : Statement (.sand k rd rs) := ⟨rfl, rfl⟩
theorem sor (k : Level) (rd rs : Reg) : Statement (.sor k rd rs) := ⟨rfl, rfl⟩
theorem sxor (k : Level) (rd rs : Reg) : Statement (.sxor k rd rs) := ⟨rfl, rfl⟩
theorem sshln (k : Level) (rd : Reg) (imm : BitVec 32) : Statement (.sshln k rd imm) := ⟨rfl, rfl⟩
theorem sshrn (k : Level) (rd : Reg) (imm : BitVec 32) : Statement (.sshrn k rd imm) := ⟨rfl, rfl⟩

end Sys2Proof.Laws.HeaderRow
end

