-- ==== Sys2Proof/Machine/Assembler.lean ====
section
/-! DEFINITION. The assembler text of a command (spec 30_encoding.md R60). Text only: nothing of the block depends on it. -/

namespace Sys2Proof.Machine

/-- The mnemonic of an operation, as the opcode table spells it. -/
def mnemonicOf (o : Op) : String :=
  match opcodeTable.find? (fun r => r.op = o) with
  | some r => r.mnemonic
  | none => ""

/-- A number in decimal. -/
def decText (n : Nat) : String := String.ofList (Nat.toDigits 10 n)

/-- A number in hexadecimal with the spec's upper-case digits. -/
def hexText (n : Nat) : String := "0x" ++ String.ofList ((Nat.toDigits 16 n).map Char.toUpper)

/-- A register as `V0` to `V7`. -/
def regText (r : Reg) : String := "V" ++ decText r.val

/-- The carry-in select: `c=0` is the default and omitted (30_encoding.md R60). -/
def carryText : CarrySel → String
  | .zero => ""
  | .one => ", c=1"
  | .cf => ", c=CF"

/-- The operands of a command in the order `rd[, rs][ -> rt][, #imm][, c=..]` (30_encoding.md R60). -/
def operandText : Instr → String
  | .adc64 cs rd rs | .sbb64 cs rd rs | .add _ cs rd rs | .sub _ cs rd rs | .sadd _ cs rd rs | .ssub _ cs rd rs =>
    regText rd ++ ", " ++ regText rs ++ carryText cs
  | .rcl64 cs rd | .rcr64 cs rd | .shl1 _ cs rd | .shr1 _ cs rd | .sshl1 _ cs rd | .sshr1 _ cs rd =>
    regText rd ++ carryText cs
  | .mulw64 rd rs rt | .divw64 rd rs rt | .mulw _ rd rs rt | .divmod _ rd rs rt | .sdiv _ rd rs rt =>
    regText rd ++ ", " ++ regText rs ++ " -> " ++ regText rt
  | .cmp _ rd rs | .and _ rd rs | .or _ rd rs | .xor _ rd rs | .lift _ rd rs | .copy _ rd rs | .lowb _ rd rs
  | .smul _ rd rs | .scmp _ rd rs | .sand _ rd rs | .sor _ rd rs | .sxor _ rd rs =>
    regText rd ++ ", " ++ regText rs
  | .shln _ rd imm | .shrn _ rd imm | .lds _ rd imm | .sshln _ rd imm | .sshrn _ rd imm =>
    regText rd ++ ", #" ++ decText imm.toNat
  | .ldi _ rd sg payload =>
    regText rd ++ ", #" ++ (if sg then "-" else "") ++ hexText (payloadValue payload)

/-- The level suffix `.k`, omitted for the word primitives (30_encoding.md R60). -/
def levelText (i : Instr) : String :=
  if i.operation.uses.k then "." ++ decText i.header.k.toNat else ""

/-- `MNEMONIC.k rd[, rs][ -> rt][, #imm][, c=0|1|CF]` (30_encoding.md R60). -/
def assemblerText (i : Instr) : String :=
  mnemonicOf i.operation ++ levelText i ++ " " ++ operandText i

end Sys2Proof.Machine
end

