-- ==== Sys2Proof/Tests/Slice0.lean ====
section
/-! SUPPORT. Tests: the smoke test of well-formedness, a word of every command written out field by field from
30_encoding.md R46 and R48, rejections, vectors of 95_test_vectors.md (one command each), and for every statement with
hypotheses a state and operands that meet them. The expected values of the vectors are the spec's. -/

namespace Sys2Proof.Tests

open Sys2Proof Sys2Proof.Machine

/-- A small state: three registers and their signs, with the parameters of 95_test_vectors.md section 0. -/
def regs (v0 v1 v2 : Nat) (n0 n1 n2 cf lt : Bool := false) (mode : SsubMode := .flipB) (div : Bool := true) : State where
  block :=
    { v := #v[v0, v1, v2, 0, 0, 0, 0, 0], n := #v[n0, n1, n2, false, false, false, false, false],
      cf := cf, eq := false, lt := lt }
  params := { kmax := 2, hasDivw64 := div, ssubMode := mode }
  host := []
  status := none

/-- The state after the block was presented one command, by its words. -/
def answer (s : State) (header : Word) (payload : List Word) : State :=
  match step (s.present ⟨header, payload⟩) with
  | .next t => t
  | .fault _ => s
  | .refused _ => s

/-! ## Well-formedness -/

/-- An LDI at level 0 with one payload word is no instruction (30_encoding.md R55). -/
theorem test_wellFormed_refuses_short_payload : (Instr.ldi 0 0 false [5]).wellFormed = false := by decide

/-- An LDI at level 1 with two payload words is no instruction (30_encoding.md R55). -/
theorem test_wellFormed_refuses_wrong_level : (Instr.ldi 1 0 false [5, 0]).wellFormed = false := by decide

theorem test_wellFormed_accepts_ldi : (Instr.ldi 0 0 false [5, 0]).wellFormed = true := by decide

/-! ## Decoding: op, k, S, cs, rd, rs, rt, sg, zero, imm32 (30_encoding.md R46) -/

theorem test_decode_adc64 :
    decode ⟨0b00000001_00000_0_00_110_011_000_0_000000_00000000000000000000000000000000, []⟩ =
      .ok (.adc64 .zero 6 3) := by
  rfl

theorem test_decode_sbb64 :
    decode ⟨0b00000010_00000_0_01_001_100_000_0_000000_00000000000000000000000000000000, []⟩ =
      .ok (.sbb64 .one 1 4) := by
  rfl

theorem test_decode_mulw64 :
    decode ⟨0b00000011_00000_0_00_111_010_100_0_000000_00000000000000000000000000000000, []⟩ =
      .ok (.mulw64 7 2 4) := by
  rfl

theorem test_decode_rcl64 :
    decode ⟨0b00000100_00000_0_00_010_000_000_0_000000_00000000000000000000000000000000, []⟩ =
      .ok (.rcl64 .zero 2) := by
  rfl

theorem test_decode_rcr64 :
    decode ⟨0b00000101_00000_0_01_101_000_000_0_000000_00000000000000000000000000000000, []⟩ =
      .ok (.rcr64 .one 5) := by
  rfl

theorem test_decode_divw64 :
    decode ⟨0b00000110_00000_0_00_110_011_101_0_000000_00000000000000000000000000000000, []⟩ =
      .ok (.divw64 6 3 5) := by
  rfl

theorem test_decode_add :
    decode ⟨0b00010000_10100_0_00_001_100_000_0_000000_00000000000000000000000000000000, []⟩ =
      .ok (.add 20 .zero 1 4) := by
  rfl

theorem test_decode_sub :
    decode ⟨0b00010001_00001_0_01_111_010_000_0_000000_00000000000000000000000000000000, []⟩ =
      .ok (.sub 1 .one 7 2) := by
  rfl

theorem test_decode_shl1 :
    decode ⟨0b00010010_00010_0_10_010_000_000_0_000000_00000000000000000000000000000000, []⟩ =
      .ok (.shl1 2 .cf 2) := by
  rfl

theorem test_decode_shr1 :
    decode ⟨0b00010011_01001_0_00_101_000_000_0_000000_00000000000000000000000000000000, []⟩ =
      .ok (.shr1 9 .zero 5) := by
  rfl

theorem test_decode_mulw :
    decode ⟨0b00010100_10000_0_00_110_011_101_0_000000_00000000000000000000000000000000, []⟩ =
      .ok (.mulw 16 6 3 5) := by
  rfl

theorem test_decode_divmod :
    decode ⟨0b00010101_11111_0_00_001_100_010_0_000000_00000000000000000000000000000000, []⟩ =
      .ok (.divmod 31 1 4 2) := by
  rfl

theorem test_decode_cmp :
    decode ⟨0b00010110_00101_0_00_111_010_000_0_000000_00000000000000000000000000000000, []⟩ =
      .ok (.cmp 5 7 2) := by
  rfl

theorem test_decode_and :
    decode ⟨0b00010111_10100_0_00_010_101_000_0_000000_00000000000000000000000000000000, []⟩ =
      .ok (.and 20 2 5) := by
  rfl

theorem test_decode_or :
    decode ⟨0b00011000_00001_0_00_101_110_000_0_000000_00000000000000000000000000000000, []⟩ =
      .ok (.or 1 5 6) := by
  rfl

theorem test_decode_xor :
    decode ⟨0b00011001_00010_0_00_110_011_000_0_000000_00000000000000000000000000000000, []⟩ =
      .ok (.xor 2 6 3) := by
  rfl

theorem test_decode_shln :
    decode ⟨0b00011010_01001_0_00_001_000_000_0_000000_11111111111111111111111111111111, []⟩ =
      .ok (.shln 9 1 0xFFFFFFFF) := by
  rfl

theorem test_decode_shrn :
    decode ⟨0b00011011_10000_0_00_111_000_000_0_000000_00000000000000000000000000000001, []⟩ =
      .ok (.shrn 16 7 0x1) := by
  rfl

theorem test_decode_ldi :
    decode ⟨0b00100000_00000_0_00_010_000_000_1_000000_00000000000000000000000000000000, [7, 9]⟩ =
      .ok (.ldi 0 2 true [7, 9]) := by
  rfl

theorem test_decode_lds :
    decode ⟨0b00100001_00101_0_00_101_000_000_0_000000_00010010001101001010101111001101, []⟩ =
      .ok (.lds 5 5 0x1234ABCD) := by
  rfl

theorem test_decode_lift :
    decode ⟨0b00100010_10100_0_00_110_011_000_0_000000_00000000000000000000000000000000, []⟩ =
      .ok (.lift 20 6 3) := by
  rfl

theorem test_decode_copy :
    decode ⟨0b00100011_00001_0_00_001_100_000_0_000000_00000000000000000000000000000000, []⟩ =
      .ok (.copy 1 1 4) := by
  rfl

theorem test_decode_lowb :
    decode ⟨0b00100100_00010_0_00_111_010_000_0_000000_00000000000000000000000000000000, []⟩ =
      .ok (.lowb 2 7 2) := by
  rfl

theorem test_decode_sadd :
    decode ⟨0b00010000_01001_1_10_010_101_000_0_000000_00000000000000000000000000000000, []⟩ =
      .ok (.sadd 9 .cf 2 5) := by
  rfl

theorem test_decode_ssub :
    decode ⟨0b00010001_10000_1_00_101_110_000_0_000000_00000000000000000000000000000000, []⟩ =
      .ok (.ssub 16 .zero 5 6) := by
  rfl

theorem test_decode_sshl1 :
    decode ⟨0b00010010_11111_1_01_110_000_000_0_000000_00000000000000000000000000000000, []⟩ =
      .ok (.sshl1 31 .one 6) := by
  rfl

theorem test_decode_sshr1 :
    decode ⟨0b00010011_00101_1_10_001_000_000_0_000000_00000000000000000000000000000000, []⟩ =
      .ok (.sshr1 5 .cf 1) := by
  rfl

theorem test_decode_smul :
    decode ⟨0b00010100_10100_1_00_111_010_000_0_000000_00000000000000000000000000000000, []⟩ =
      .ok (.smul 20 7 2) := by
  rfl

theorem test_decode_sdiv :
    decode ⟨0b00010101_00001_1_00_010_101_001_0_000000_00000000000000000000000000000000, []⟩ =
      .ok (.sdiv 1 2 5 1) := by
  rfl

theorem test_decode_scmp :
    decode ⟨0b00010110_00010_1_00_101_110_000_0_000000_00000000000000000000000000000000, []⟩ =
      .ok (.scmp 2 5 6) := by
  rfl

theorem test_decode_sand :
    decode ⟨0b00010111_01001_1_00_110_011_000_0_000000_00000000000000000000000000000000, []⟩ =
      .ok (.sand 9 6 3) := by
  rfl

theorem test_decode_sor :
    decode ⟨0b00011000_10000_1_00_001_100_000_0_000000_00000000000000000000000000000000, []⟩ =
      .ok (.sor 16 1 4) := by
  rfl

theorem test_decode_sxor :
    decode ⟨0b00011001_11111_1_00_111_010_000_0_000000_00000000000000000000000000000000, []⟩ =
      .ok (.sxor 31 7 2) := by
  rfl

theorem test_decode_sshln :
    decode ⟨0b00011010_00101_1_00_010_000_000_0_000000_00000000000000000000000000000001, []⟩ =
      .ok (.sshln 5 2 0x1) := by
  rfl

theorem test_decode_sshrn :
    decode ⟨0b00011011_10100_1_00_101_000_000_0_000000_10000000000000000000000000000001, []⟩ =
      .ok (.sshrn 20 5 0x80000001) := by
  rfl

/-! ## Rejections, by name (30_encoding.md R57) -/

theorem test_reject_zero_word : decode ⟨0, []⟩ = .error .unassignedOp := by rfl
theorem test_reject_all_ones : decode ⟨0xFFFFFFFFFFFFFFFF, []⟩ = .error .unassignedOp := by rfl
theorem test_reject_adc64_with_s : decode ⟨0x0104040000000000, []⟩ = .error .unassignedOp := by rfl
theorem test_reject_word_primitive_with_k : decode ⟨0x0108040000000000, []⟩ = .error .unusedFieldNotZero := by rfl
theorem test_reject_carry_select_three : decode ⟨0x1003040000000000, []⟩ = .error .carrySelectReserved := by rfl
theorem test_reject_unused_rt : decode ⟨0x1000050000000000, []⟩ = .error .unusedFieldNotZero := by rfl
theorem test_reject_zero_field : decode ⟨0x1000040100000000, []⟩ = .error .unusedFieldNotZero := by rfl
theorem test_reject_short_payload : decode ⟨0x2000000000000000, [5]⟩ = .error .payloadLength := by rfl
theorem test_reject_payload_of_add : decode ⟨0x1000040000000000, [0]⟩ = .error .payloadLength := by rfl

/-! ## The opcode table and the host's form of a word -/

/-- No header word selects two rows: any two rows differ in a bit that both fix. -/
theorem test_opcodeTable_rows_apart :
    opcodeTable.Pairwise (fun a b => a.pattern &&& (a.mask &&& b.mask) ≠ b.pattern &&& (a.mask &&& b.mask)) := by decide

theorem test_opcodeTable_has_35_rows : opcodeTable.length = 35 := by decide

theorem test_decodeTableWord_add : decodeTableWord 64 0x1000040000000000 = some (.add 0 .zero 0 1) := by rfl

/-- The bits the table gives LDI are its header; the payload words above them are zero. -/
theorem test_decodeTableWord_ldi : decodeTableWord 64 0x2000004000000000 = some (.ldi 0 0 true [0, 0]) := by rfl

/-- The command placed where the machine takes its next one is the one the step runs, right after reset. -/
theorem test_withFetchWord_runs :
    step (State.reset.withFetchWord 64 0x0101040000000000) = exec (.adc64 .one 0 1) State.reset := by rfl

/-- 30_encoding.md R60: the text of two commands of section 7. -/
theorem test_assemblerText : assemblerText (.add 1 .cf 3 4) = "ADD.1 V3, V4, c=CF" ∧
    assemblerText (.divmod 1 0 1 2) = "DIVMOD.1 V0, V1 -> V2" := by decide

/-- 60_exceptions.md R190: the codes of the table. -/
theorem test_status_codes :
    Status.ok.code = 0 ∧ (Status.fault .divideByZero).code = 1 ∧ (Status.fault .illegalCarry).code = 2 ∧
    (Status.fault .wordDivideOverflow).code = 3 ∧ (Status.fault .illegalCommand).code = 4 ∧
    (Status.fault .operandAlias).code = 5 := by decide

/-! ## Vectors of 95_test_vectors.md, one command each -/

/-- 95_test_vectors.md W3: `ADC64 V0, V1, c=CF`. -/
theorem test_adc64_W3 :
    let t := answer (regs 5 7 0 (cf := true)) 0x0102040000000000 []
    t.status = some .ok ∧ t.block.mag 0 = 0xD ∧ t.block.cf = false := by
  decide

/-- 95_test_vectors.md W4: `ADC64 V0, V1`. -/
theorem test_adc64_W4 :
    let t := answer (regs 0xAAAAFFFFFFFFFFFFFFFF 1 0) 0x0100040000000000 []
    t.status = some .ok ∧ t.block.mag 0 = 0xAAAA0000000000000000 ∧ t.block.cf = true := by
  decide

/-- 95_test_vectors.md W5: `SBB64 V0, V1`. -/
theorem test_sbb64_W5 :
    let t := answer (regs 0 1 0) 0x0200040000000000 []
    t.status = some .ok ∧ t.block.mag 0 = 0xFFFFFFFFFFFFFFFF ∧ t.block.cf = true := by
  decide

/-- 95_test_vectors.md W12: `MULW64 V0, V1 -> V2`. -/
theorem test_mulw64_W12 :
    let t := answer (regs 0xDEADBEEFCAFEBABE 0x123456789ABCDEF 0) 0x0300050000000000 []
    t.status = some .ok ∧ t.block.mag 0 = 0x7EB689F4EA447D62 ∧ t.block.mag 2 = 0xFD5BDEEEB2A01D := by
  decide

/-- 95_test_vectors.md T1a: `MULW64 V0, V1 -> V2`. -/
theorem test_mulw64_T1a :
    let t := answer (regs 0xFFFFFFFFFFFFFFFF 0xFFFFFFFFFFFFFFFF 0) 0x0300050000000000 []
    t.status = some .ok ∧ t.block.mag 0 = 0x1 ∧ t.block.mag 2 = 0xFFFFFFFFFFFFFFFE := by
  decide

/-- 95_test_vectors.md W14: `RCL64 V0, c=1`. -/
theorem test_rcl64_W14 :
    let t := answer (regs 1 0 0) 0x0401000000000000 []
    t.status = some .ok ∧ t.block.mag 0 = 0x3 ∧ t.block.cf = false := by
  decide

/-- 95_test_vectors.md W13: `RCL64 V0`. -/
theorem test_rcl64_W13 :
    let t := answer (regs 0x8000000000000000 0 0) 0x0400000000000000 []
    t.status = some .ok ∧ t.block.mag 0 = 0x0 ∧ t.block.cf = true := by
  decide

/-- 95_test_vectors.md W16: `RCR64 V0, c=1`. -/
theorem test_rcr64_W16 :
    let t := answer (regs 0 0 0) 0x0501000000000000 []
    t.status = some .ok ∧ t.block.mag 0 = 0x8000000000000000 ∧ t.block.cf = false := by
  decide

/-- 95_test_vectors.md W17: `RCR64 V0, c=CF`. -/
theorem test_rcr64_W17 :
    let t := answer (regs 2 0 0 (cf := true)) 0x0502000000000000 []
    t.status = some .ok ∧ t.block.mag 0 = 0x8000000000000001 ∧ t.block.cf = false := by
  decide

/-- 95_test_vectors.md W18: `DIVW64 V0, V1 -> V2`. -/
theorem test_divw64_W18 :
    let t := answer (regs 0 2 1) 0x0600050000000000 []
    t.status = some .ok ∧ t.block.mag 0 = 0x8000000000000000 ∧ t.block.mag 2 = 0x0 := by
  decide

/-- 95_test_vectors.md L7: `ADD.0 V0, V1`. -/
theorem test_add_L7 :
    let t := answer (regs 0x7FFFFFFFFFFFFFFFFFFFFFFFFFFFFFFFF 1 0) 0x1000040000000000 []
    t.status = some .ok ∧ t.block.mag 0 = 0x700000000000000000000000000000000 ∧ t.block.cf = true := by
  decide

/-- 95_test_vectors.md L2: `ADD.0 V0, V1, c=1`. -/
theorem test_add_L2 :
    let t := answer (regs 0xFFFFFFFFFFFFFFFFFFFFFFFFFFFFFFFF 0 0) 0x1001040000000000 []
    t.status = some .ok ∧ t.block.mag 0 = 0x0 ∧ t.block.cf = true := by
  decide

/-- 95_test_vectors.md L8: `SUB.0 V0, V1`. -/
theorem test_sub_L8 :
    let t := answer (regs 0 1 0) 0x1100040000000000 []
    t.status = some .ok ∧ t.block.mag 0 = 0xFFFFFFFFFFFFFFFFFFFFFFFFFFFFFFFF ∧ t.block.cf = true := by
  decide

/-- 95_test_vectors.md L9: `SUB.0 V0, V1, c=1`. -/
theorem test_sub_L9 :
    let t := answer (regs 0 0 0) 0x1101040000000000 []
    t.status = some .ok ∧ t.block.mag 0 = 0xFFFFFFFFFFFFFFFFFFFFFFFFFFFFFFFF ∧ t.block.cf = true := by
  decide

/-- 95_test_vectors.md L14: `SHL1.1 V0`. -/
theorem test_shl1_L14 :
    let t := answer (regs 0x80000000000000000000000000000000 0 0) 0x1208000000000000 []
    t.status = some .ok ∧ t.block.mag 0 = 0x100000000000000000000000000000000 ∧ t.block.cf = false := by
  decide

/-- 95_test_vectors.md L13: `SHL1.0 V0, c=1`. -/
theorem test_shl1_L13 :
    let t := answer (regs 0 0 0) 0x1201000000000000 []
    t.status = some .ok ∧ t.block.mag 0 = 0x1 ∧ t.block.cf = false := by
  decide

/-- 95_test_vectors.md L16: `SHR1.0 V0`. -/
theorem test_shr1_L16 :
    let t := answer (regs 0x10000000000000000 0 0) 0x1300000000000000 []
    t.status = some .ok ∧ t.block.mag 0 = 0x8000000000000000 ∧ t.block.cf = false := by
  decide

/-- 95_test_vectors.md L16b: `SHR1.0 V0, c=1`. -/
theorem test_shr1_L16b :
    let t := answer (regs 0 0 0) 0x1301000000000000 []
    t.status = some .ok ∧ t.block.mag 0 = 0x80000000000000000000000000000000 ∧ t.block.cf = false := by
  decide

/-- 95_test_vectors.md L21: `MULW.0 V0, V1 -> V2`. -/
theorem test_mulw_L21 :
    let t := answer (regs 0x123456789ABCDEF0FEDCBA987654321 0xFEDCBA98765432100123456789ABCDEF 0) 0x1400050000000000 []
    t.status = some .ok ∧ t.block.mag 0 = 0xAAA6C876160EC6A522236D88FE5618CF ∧ t.block.mag 2 = 0x121FA00AD77D7423213D0003E234949 := by
  decide

/-- 95_test_vectors.md L19: `MULW.0 V0, V1 -> V2`. -/
theorem test_mulw_L19 :
    let t := answer (regs 0x10000000000000000 0x10000000000000000 0) 0x1400050000000000 []
    t.status = some .ok ∧ t.block.mag 0 = 0x0 ∧ t.block.mag 2 = 0x1 := by
  decide

/-- 95_test_vectors.md T3: `DIVMOD.1 V0, V1 -> V2`. -/
theorem test_divmod_T3 :
    let t := answer (regs 0x8000000000000000000000000000000000000000000000000000000000000000 0x10 0xDEAD) 0x1508050000000000 []
    t.status = some .ok ∧ t.block.mag 0 = 0x800000000000000000000000000000000000000000000000000000000000000 ∧ t.block.mag 2 = 0x0 := by
  decide

/-- 95_test_vectors.md L25: `DIVMOD.0 V0, V1 -> V2`. -/
theorem test_divmod_L25 :
    let t := answer (regs 0xFFFFFFFFFFFFFFFFFFFFFFFFFFFFFFFF 0x80000000000000000000000000000000 0) 0x1500050000000000 []
    t.status = some .ok ∧ t.block.mag 0 = 0x1 ∧ t.block.mag 2 = 0x7FFFFFFFFFFFFFFFFFFFFFFFFFFFFFFF := by
  decide

/-- 95_test_vectors.md L34: `CMP.1 V0, V1`. -/
theorem test_cmp_L34 :
    let t := answer (regs 0x100000000000000000000000000000005 7 0) 0x1608040000000000 []
    t.status = some .ok ∧ t.block.eq = false ∧ t.block.lt = false := by
  decide

/-- 95_test_vectors.md L31: `CMP.0 V1, V1`. -/
theorem test_cmp_L31 :
    let t := answer (regs 0 9 0) 0x1600240000000000 []
    t.status = some .ok ∧ t.block.eq = true ∧ t.block.lt = false := by
  decide

/-- 95_test_vectors.md L35: `AND.0 V0, V1`. -/
theorem test_and_L35 :
    let t := answer (regs 0xF0F0 0xFF00 0) 0x1700040000000000 []
    t.status = some .ok ∧ t.block.mag 0 = 0xF000 := by
  decide

/-- 95_test_vectors.md L36: `OR.0 V0, V1`. -/
theorem test_or_L36 :
    let t := answer (regs 0xF0F0 0xFF00 0) 0x1800040000000000 []
    t.status = some .ok ∧ t.block.mag 0 = 0xFFF0 := by
  decide

/-- 95_test_vectors.md L38: `XOR.0 V0, V1`. -/
theorem test_xor_L38 :
    let t := answer (regs 0xF0F0 0xFFFFFFFFFFFFFFFFFFFFFFFFFFFFFFFF 0) 0x1900040000000000 []
    t.status = some .ok ∧ t.block.mag 0 = 0xFFFFFFFFFFFFFFFFFFFFFFFFFFFF0F0F := by
  decide

/-- 95_test_vectors.md L40: `SHLN.0 V0, #128`. -/
theorem test_shln_L40 :
    let t := answer (regs 1 0 0) 0x1A00000000000080 []
    t.status = some .ok ∧ t.block.mag 0 = 0x0 ∧ t.block.cf = true := by
  decide

/-- 95_test_vectors.md L39: `SHLN.0 V0, #0`. -/
theorem test_shln_L39 :
    let t := answer (regs 0x81 0 0 (cf := true)) 0x1A00000000000000 []
    t.status = some .ok ∧ t.block = (regs 0x81 0 0 (cf := true)).block := by
  decide

/-- 95_test_vectors.md L43: `SHRN.0 V0, #4`. -/
theorem test_shrn_L43 :
    let t := answer (regs 0xFF 0 0) 0x1B00000000000004 []
    t.status = some .ok ∧ t.block.mag 0 = 0xF ∧ t.block.cf = true := by
  decide

/-- 95_test_vectors.md L45: `SHRN.0 V0, #128`. -/
theorem test_shrn_L45 :
    let t := answer (regs 0x80000000000000000000000000000000 0 0) 0x1B00000000000080 []
    t.status = some .ok ∧ t.block.mag 0 = 0x0 ∧ t.block.cf = true := by
  decide

/-- 95_test_vectors.md M2: `LDI.0 V0, #-0xA`. -/
theorem test_ldi_M2 :
    let t := answer (regs 0 0 0) 0x2000004000000000 [0x000000000000000A, 0x0000000000000000]
    t.status = some .ok ∧ t.block.mag 0 = 0xA ∧ t.block.neg 0 = true := by
  decide

/-- 95_test_vectors.md M3: `LDI.0 V0, #-0x0`. -/
theorem test_ldi_M3 :
    let t := answer (regs 5 0 0 (n0 := true)) 0x2000004000000000 [0x0000000000000000, 0x0000000000000000]
    t.status = some .ok ∧ t.block.mag 0 = 0x0 ∧ t.block.neg 0 = false := by
  decide

/-- 95_test_vectors.md M6: `LDS.1 V1, #16`. -/
theorem test_lds_M6 :
    let t := answer (regs 0 0x77 0 (n1 := true)) 0x2108200000000010 []
    t.status = some .ok ∧ t.block.mag 1 = 0x10 ∧ t.block.neg 1 = false := by
  decide

/-- 95_test_vectors.md M10: `LIFT.1 V0, V1`. -/
theorem test_lift_M10 :
    let t := answer (regs 0 0x500000000000000000000000000000ABC 0 (n1 := true)) 0x2208040000000000 []
    t.status = some .ok ∧ t.block.mag 0 = 0xABC ∧ t.block.neg 0 = true := by
  decide

/-- 95_test_vectors.md M11: `LIFT.1 V0, V1`. -/
theorem test_lift_M11 :
    let t := answer (regs 3 0x500000000000000000000000000000000 0 (n1 := true)) 0x2208040000000000 []
    t.status = some .ok ∧ t.block.mag 0 = 0x0 := by
  decide

/-- 95_test_vectors.md M12: `COPY.0 V2, V1`. -/
theorem test_copy_M12 :
    let t := answer (regs 0 0xA 0 (n1 := true)) 0x2300440000000000 []
    t.status = some .ok ∧ t.block.mag 2 = 0xA ∧ t.block.neg 2 = true := by
  decide

/-- 95_test_vectors.md M13: `COPY.0 V2, V1`. -/
theorem test_copy_M13 :
    let t := answer (regs 0 0x900000000000000000000000000000004 0xFFFFFFFFFFFFFFFFFFFFFFFFFFFFFFFFFFFFFFFFFFFFFFFFFFFFFFFFFFFFFFFF) 0x2300440000000000 []
    t.status = some .ok ∧ t.block.mag 2 = 0xFFFFFFFFFFFFFFFFFFFFFFFFFFFFFFFF00000000000000000000000000000004 := by
  decide

/-- 95_test_vectors.md M14: `LOWB.0 V0, V1`. -/
theorem test_lowb_M14 :
    let t := answer (regs 1 0x1234 0 (n0 := true) (n1 := true)) 0x2400040000000000 []
    t.status = some .ok ∧ t.block.mag 0 = 0x34 ∧ t.block.neg 0 = false := by
  decide

/-- 95_test_vectors.md S6: `SADD.0 V0, V1`. -/
theorem test_sadd_S6 :
    let t := answer (regs 0xFFFFFFFFFFFFFFFFFFFFFFFFFFFFFFFF 2 0 (n0 := true) (n1 := true)) 0x1004040000000000 []
    t.status = some .ok ∧ t.block.mag 0 = 0x1 ∧ t.block.neg 0 = true ∧ t.block.cf = true := by
  decide

/-- 95_test_vectors.md S8: `SADD.0 V0, V1`. -/
theorem test_sadd_S8 :
    let t := answer (regs 0xFFFFFFFFFFFFFFFFFFFFFFFFFFFFFFFF 1 0 (n0 := true) (n1 := true)) 0x1004040000000000 []
    t.status = some .ok ∧ t.block.mag 0 = 0x0 ∧ t.block.neg 0 = false ∧ t.block.cf = true := by
  decide

/-- 95_test_vectors.md S12: `SSUB.0 V0, V1`. -/
theorem test_ssub_S12 :
    let t := answer (regs 0xA 3 0) 0x1104040000000000 []
    t.status = some .ok ∧ t.block.mag 0 = 0x7 ∧ t.block.neg 0 = false ∧ t.block.cf = false := by
  decide

/-- 95_test_vectors.md S13: `SSUB.0 V0, V1`. -/
theorem test_ssub_S13 :
    let t := answer (regs 0xA 3 0 (mode := .flipA)) 0x1104040000000000 []
    t.status = some .ok ∧ t.block.mag 0 = 0x7 ∧ t.block.neg 0 = true ∧ t.block.cf = false := by
  decide

/-- 95_test_vectors.md S24: `SMUL.0 V0, V1`. -/
theorem test_smul_S24 :
    let t := answer (regs 0xFFFFFFFFFFFFFFFFFFFFFFFFFFFFFFFF 2 0 (n1 := true)) 0x1404040000000000 []
    t.status = some .ok ∧ t.block.mag 0 = 0xFFFFFFFFFFFFFFFFFFFFFFFFFFFFFFFE ∧ t.block.neg 0 = true := by
  decide

/-- 95_test_vectors.md S25: `SMUL.0 V0, V1`. -/
theorem test_smul_S25 :
    let t := answer (regs 0x10000000000000000 0x10000000000000000 0 (n1 := true)) 0x1404040000000000 []
    t.status = some .ok ∧ t.block.mag 0 = 0x0 ∧ t.block.neg 0 = false := by
  decide

/-- 95_test_vectors.md S28: `SDIV.0 V0, V1 -> V2`. -/
theorem test_sdiv_S28 :
    let t := answer (regs 2 3 8 (n0 := true) (n2 := true)) 0x1504050000000000 []
    t.status = some .ok ∧ t.block.mag 0 = 0x0 ∧ t.block.neg 0 = false ∧ t.block.mag 2 = 0x2 ∧ t.block.neg 2 = false := by
  decide

/-- 95_test_vectors.md S27: `SDIV.0 V0, V1 -> V2`. -/
theorem test_sdiv_S27 :
    let t := answer (regs 0xA 3 0 (n0 := true) (n1 := true)) 0x1504050000000000 []
    t.status = some .ok ∧ t.block.mag 0 = 0x3 ∧ t.block.neg 0 = false ∧ t.block.mag 2 = 0x1 ∧ t.block.neg 2 = false := by
  decide

/-- 95_test_vectors.md S31: `SCMP.0 V0, V1`. -/
theorem test_scmp_S31 :
    let t := answer (regs 3 2 0 (n0 := true) (n1 := true)) 0x1604040000000000 []
    t.status = some .ok ∧ t.block.eq = false ∧ t.block.lt = true := by
  decide

/-- 95_test_vectors.md S33: `SCMP.0 V0, V1`. -/
theorem test_scmp_S33 :
    let t := answer (regs 0 0 0 (n0 := true)) 0x1604040000000000 []
    t.status = some .ok ∧ t.block.eq = true ∧ t.block.lt = false := by
  decide

/-- 95_test_vectors.md S35: `SSHL1.0 V0`. -/
theorem test_sshl1_S35 :
    let t := answer (regs 3 0 0 (n0 := true)) 0x1204000000000000 []
    t.status = some .ok ∧ t.block.mag 0 = 0x6 ∧ t.block.neg 0 = true ∧ t.block.cf = false := by
  decide

/-- 95_test_vectors.md S36: `SSHL1.0 V0`. -/
theorem test_sshl1_S36 :
    let t := answer (regs 0x80000000000000000000000000000000 0 0 (n0 := true)) 0x1204000000000000 []
    t.status = some .ok ∧ t.block.mag 0 = 0x0 ∧ t.block.neg 0 = false ∧ t.block.cf = true := by
  decide

/-- 95_test_vectors.md S37: `SSHR1.0 V0`. -/
theorem test_sshr1_S37 :
    let t := answer (regs 7 0 0 (n0 := true)) 0x1304000000000000 []
    t.status = some .ok ∧ t.block.mag 0 = 0x3 ∧ t.block.neg 0 = true ∧ t.block.cf = true := by
  decide

/-- 95_test_vectors.md S38: `SSHR1.0 V0`. -/
theorem test_sshr1_S38 :
    let t := answer (regs 1 0 0 (n0 := true)) 0x1304000000000000 []
    t.status = some .ok ∧ t.block.mag 0 = 0x0 ∧ t.block.neg 0 = false ∧ t.block.cf = true := by
  decide

/-- 95_test_vectors.md S39: `SSHLN.0 V0, #4`. -/
theorem test_sshln_S39 :
    let t := answer (regs 1 0 0 (n0 := true)) 0x1A04000000000004 []
    t.status = some .ok ∧ t.block.mag 0 = 0x10 ∧ t.block.neg 0 = true ∧ t.block.cf = false := by
  decide

/-- 95_test_vectors.md S41: `SSHRN.0 V0, #5`. -/
theorem test_sshrn_S41 :
    let t := answer (regs 0x10 0 0 (n0 := true)) 0x1B04000000000005 []
    t.status = some .ok ∧ t.block.mag 0 = 0x0 ∧ t.block.neg 0 = false ∧ t.block.cf = true := by
  decide

/-- 95_test_vectors.md S40: `SSHRN.0 V0, #4`. -/
theorem test_sshrn_S40 :
    let t := answer (regs 0x10 0 0 (n0 := true)) 0x1B04000000000004 []
    t.status = some .ok ∧ t.block.mag 0 = 0x1 ∧ t.block.neg 0 = true ∧ t.block.cf = false := by
  decide

/-- 95_test_vectors.md S42: `SAND.0 V0, V1`. -/
theorem test_sand_S42 :
    let t := answer (regs 0xFF 0xF 0 (n0 := true)) 0x1704040000000000 []
    t.status = some .ok ∧ t.block.mag 0 = 0xF ∧ t.block.neg 0 = true := by
  decide

/-- 95_test_vectors.md S43: `SAND.0 V0, V1`. -/
theorem test_sand_S43 :
    let t := answer (regs 0xF0 0xF 0 (n0 := true)) 0x1704040000000000 []
    t.status = some .ok ∧ t.block.mag 0 = 0x0 ∧ t.block.neg 0 = false := by
  decide

/-- 95_test_vectors.md S44: `SOR.0 V0, V1`. -/
theorem test_sor_S44 :
    let t := answer (regs 0xF0 0xF 0 (n0 := true) (n1 := true)) 0x1804040000000000 []
    t.status = some .ok ∧ t.block.mag 0 = 0xFF ∧ t.block.neg 0 = true := by
  decide

/-- 95_test_vectors.md S45: `SOR.0 V0, V1`. -/
theorem test_sor_S45 :
    let t := answer (regs 0 0xF 0 (n1 := true)) 0x1804040000000000 []
    t.status = some .ok ∧ t.block.mag 0 = 0xF ∧ t.block.neg 0 = false := by
  decide

/-- 95_test_vectors.md S46: `SXOR.0 V0, V1`. -/
theorem test_sxor_S46 :
    let t := answer (regs 0xFF 0xF 0 (n0 := true)) 0x1904040000000000 []
    t.status = some .ok ∧ t.block.mag 0 = 0xF0 ∧ t.block.neg 0 = true := by
  decide

/-- 95_test_vectors.md S47: `SXOR.0 V0, V1`. -/
theorem test_sxor_S47 :
    let t := answer (regs 0xFF 0xFF 0 (n0 := true)) 0x1904040000000000 []
    t.status = some .ok ∧ t.block.mag 0 = 0x0 ∧ t.block.neg 0 = false := by
  decide

/-! ## Faults: the status, and nothing written (60_exceptions.md R193) -/

/-- 95_test_vectors.md F3: DIVMOD.0 V0, V1 -> V2. -/
theorem test_fault_F3 :
    let s := (regs 0x64 0x100000000000000000000000000000000 9 (cf := true))
    let t := answer s 0x1500050000000000 []
    t.status = some (.fault .divideByZero) ∧ t.block = s.block := by
  decide

/-- 95_test_vectors.md F2: DIVMOD.0 V0, V1 -> V2. -/
theorem test_fault_F2 :
    let s := (regs 0x64 0 9 (cf := true))
    let t := answer s 0x1500050000000000 []
    t.status = some (.fault .divideByZero) ∧ t.block = s.block := by
  decide

/-- 95_test_vectors.md S30: SDIV.0 V0, V1 -> V2. -/
theorem test_fault_S30 :
    let s := (regs 0xA 0 5 (n0 := true))
    let t := answer s 0x1504050000000000 []
    t.status = some (.fault .divideByZero) ∧ t.block = s.block := by
  decide

/-- 95_test_vectors.md S10: SADD.0 V0, V1, c=CF. -/
theorem test_fault_S10 :
    let s := (regs 0xB 0xA 0 (n1 := true) (cf := true))
    let t := answer s 0x1006040000000000 []
    t.status = some (.fault .illegalCarry) ∧ t.block = s.block := by
  decide

/-- 95_test_vectors.md S21: SSUB.0 V0, V1, c=1. -/
theorem test_fault_S21 :
    let s := (regs 0xA 3 0)
    let t := answer s 0x1105040000000000 []
    t.status = some (.fault .illegalCarry) ∧ t.block = s.block := by
  decide

/-- 95_test_vectors.md W22: DIVW64 V0, V1 -> V2. -/
theorem test_fault_W22 :
    let s := (regs 5 0 0)
    let t := answer s 0x0600050000000000 []
    t.status = some (.fault .wordDivideOverflow) ∧ t.block = s.block := by
  decide

/-- 95_test_vectors.md W23: DIVW64 V0, V1 -> V2. -/
theorem test_fault_W23 :
    let s := (regs 0x64 7 0 (div := false))
    let t := answer s 0x0600050000000000 []
    t.status = some (.fault .illegalCommand) ∧ t.block = s.block := by
  decide

/-- 95_test_vectors.md F4: ADD.0 V1, V1. -/
theorem test_fault_F4 :
    let s := (regs 0x64 7 9 (cf := true))
    let t := answer s 0x1000240000000000 []
    t.status = some (.fault .operandAlias) ∧ t.block = s.block := by
  decide

/-- 95_test_vectors.md F9: DIVW64 V0, V1 -> V0. -/
theorem test_fault_F9 :
    let s := (regs 0x64 7 9 (cf := true))
    let t := answer s 0x0600040000000000 []
    t.status = some (.fault .operandAlias) ∧ t.block = s.block := by
  decide

/-- 95_test_vectors.md F10: DIVMOD.0 V0, V0 -> V1. -/
theorem test_fault_F10 :
    let s := (regs 0 7 9 (cf := true))
    let t := answer s 0x1500008000000000 []
    t.status = some (.fault .operandAlias) ∧ t.block = s.block := by
  decide

/-- 95_test_vectors.md F11: all-zero word. -/
theorem test_fault_F11 :
    let s := (regs 0x64 7 9 (cf := true))
    let t := answer s 0x0000000000000000 []
    t.status = some (.fault .illegalCommand) ∧ t.block = s.block := by
  decide

/-- 95_test_vectors.md F14: ADC64 V0, V1 with S = 1. -/
theorem test_fault_F14 :
    let s := (regs 0x64 7 9 (cf := true))
    let t := answer s 0x0104040000000000 []
    t.status = some (.fault .illegalCommand) ∧ t.block = s.block := by
  decide

/-- 95_test_vectors.md F16: ADD.0 V0, V1 with cs = 11. -/
theorem test_fault_F16 :
    let s := (regs 0x64 7 9 (cf := true))
    let t := answer s 0x1003040000000000 []
    t.status = some (.fault .illegalCommand) ∧ t.block = s.block := by
  decide

/-- 95_test_vectors.md F17: SADD.0 V0, V1 with cs = 11. -/
theorem test_fault_F17 :
    let s := (regs 0x64 7 9 (cf := true))
    let t := answer s 0x1007040000000000 []
    t.status = some (.fault .illegalCommand) ∧ t.block = s.block := by
  decide

/-- 95_test_vectors.md F20: ADD.0 V0, V1 with zero field = 1. -/
theorem test_fault_F20 :
    let s := (regs 0x64 7 9 (cf := true))
    let t := answer s 0x1000040100000000 []
    t.status = some (.fault .illegalCommand) ∧ t.block = s.block := by
  decide

/-- 95_test_vectors.md F21: ADD.3 V0, V1 (KMAX = 2). -/
theorem test_fault_F21 :
    let s := (regs 0x64 7 9 (cf := true))
    let t := answer s 0x1018040000000000 []
    t.status = some (.fault .illegalCommand) ∧ t.block = s.block := by
  decide

/-- 95_test_vectors.md F24: LDS.0 V0, #1 with sg = 1. -/
theorem test_fault_F24 :
    let s := (regs 0x64 7 9 (cf := true))
    let t := answer s 0x2100004000000001 []
    t.status = some (.fault .illegalCommand) ∧ t.block = s.block := by
  decide

/-- 95_test_vectors.md F26: LDI.0 V0 with one payload word. -/
theorem test_fault_F26 :
    let s := (regs 0x64 7 9 (cf := true))
    let t := answer s 0x2000000000000000 [0x0000000000000005]
    t.status = some (.fault .illegalCommand) ∧ t.block = s.block := by
  decide

/-- 95_test_vectors.md F28: ADD.0 V0, V1 with a payload word. -/
theorem test_fault_F28 :
    let s := (regs 0x64 7 9 (cf := true))
    let t := answer s 0x1000040000000000 [0x0000000000000000]
    t.status = some (.fault .illegalCommand) ∧ t.block = s.block := by
  decide

/-! ## States and operands that meet the hypotheses of the statements

`witness_<statement>` meets the hypotheses of the statement of that name together; a suffix names the clause it is for. -/

/-- A negative value wider than level 0, a small positive one and a zero. -/
def demo : State := regs (2 ^ 200 + 5) 3 0 (n0 := true)

/-- `ADC64 V0, V1`. -/
def adcWords : Command := ⟨0x0100040000000000, []⟩

/-- `DIVMOD.0 V0, V2 -> V1`: on `demo` a division by zero. -/
def divWords : Command := ⟨0x1500088000000000, []⟩

theorem witness_StepRunsTheDecodedCommand :
    (demo.present adcWords).host = .command adcWords :: [] ∧ decode adcWords = .ok (.adc64 .zero 0 1) := ⟨rfl, rfl⟩

theorem witness_EveryPresentedCommandIsAnswered :
    (demo.present adcWords).host = .command adcWords :: [] := rfl

theorem witness_EveryPresentedCommandIsAnswered_undecodable :
    (demo.present ⟨0, []⟩).host = .command ⟨0, []⟩ :: [] ∧ ∀ i, decode ⟨0, []⟩ ≠ .ok i := by
  refine ⟨rfl, fun i h => ?_⟩
  have h' : decode ⟨0, []⟩ = .error .unassignedOp := rfl
  rw [h'] at h
  cases h

theorem witness_ResetMoveResetsTheBlock :
    ({ demo with host := [.reset] } : State).host = .reset :: [] := rfl

theorem witness_ResetMoveResetsTheBlock_during :
    ({ demo with host := [.resetDuring adcWords, .reset] } : State).host = .resetDuring adcWords :: [.reset] := rfl

theorem witness_DecodeOfEncodeIsTheInstruction : (Instr.sdiv 31 7 6 5).wellFormed = true := by decide

theorem witness_DecodeOfEncodeIsTheInstruction_ldi : (Instr.ldi 1 7 true [1, 2, 3, 4]).wellFormed = true := by decide

theorem witness_EncodeOfDecodeIsTheCommand : decode ⟨0x2000004000000000, [10, 0]⟩ = .ok (.ldi 0 0 true [10, 0]) := by rfl

theorem witness_DecodeFollowsTheOpcodeTable :
    decode adcWords = .ok (.adc64 .zero 0 1) ∧ ∃ row ∈ opcodeTable, row.selects adcWords.header = true :=
  ⟨rfl, by decide⟩

theorem witness_FlatWordListIsCutIntoCommands :
    ∀ i ∈ [Instr.ldi 0 0 true [10, 0], Instr.adc64 .zero 0 1], i.wellFormed = true := by decide

theorem witness_StatusFollowsThePriority_illegal : ¬ (Instr.add 3 .zero 0 1).onInstance demo.params := by
  simp [Instr.onInstance, Instr.wellFormed, Instr.level?, demo, regs]

theorem witness_StatusFollowsThePriority_alias :
    (Instr.add 2 .zero 1 1).onInstance demo.params ∧ (Instr.add 2 .zero 1 1).aliased := by
  refine ⟨by simp [Instr.onInstance, Instr.wellFormed, Instr.level?, Instr.operation, demo, regs], 0, 1, ?_⟩
  simp [Instr.usedFields]

theorem witness_StatusFollowsThePriority_own :
    (Instr.divmod 0 0 2 1).onInstance demo.params ∧ ¬ (Instr.divmod 0 0 2 1).aliased ∧
      (Instr.divmod 0 0 2 1).ownFault demo.block = some .divideByZero := by
  refine ⟨by simp [Instr.onInstance, Instr.wellFormed, Instr.level?, Instr.operation, demo, regs], ?_, by decide⟩
  rintro ⟨m, n, hm, hn, hmn, h, _⟩
  have hn' : n < 3 := hn
  have : m = 0 ∧ n = 1 ∨ m = 0 ∧ n = 2 ∨ m = 1 ∧ n = 2 := by omega
  rcases this with ⟨rfl, rfl⟩ | ⟨rfl, rfl⟩ | ⟨rfl, rfl⟩ <;> simp [Instr.usedFields] at h

theorem witness_StatusFollowsThePriority_ok :
    (Instr.cmp 2 1 1).onInstance demo.params ∧ ¬ (Instr.cmp 2 1 1).aliased ∧
      (Instr.cmp 2 1 1).ownFault demo.block = none := by
  refine ⟨by simp [Instr.onInstance, Instr.wellFormed, Instr.level?, Instr.operation, demo, regs], ?_, rfl⟩
  rintro ⟨m, n, hm, hn, hmn, _, hw⟩
  have hn' : n < 2 := hn
  have : m = 0 ∧ n = 1 := by omega
  rcases this with ⟨rfl, rfl⟩
  simp [Instr.usedFields] at hw

theorem witness_NoPartialUpdate :
    (∃ t, exec (.divmod 0 0 2 1) demo = .next t ∧ t.status ≠ some .ok) ∧
      ∃ t, step (demo.present ⟨0, []⟩) = .next t ∧ t.status ≠ some .ok :=
  ⟨⟨_, rfl, by decide⟩, ⟨_, rfl, by decide⟩⟩

theorem witness_AfterAFaultTheBlockIsReady :
    ∃ t u v, step (demo.present divWords) = .next t ∧ t.status = some (.fault .divideByZero) ∧
      step (t.present adcWords) = .next u ∧ step (demo.present adcWords) = .next v :=
  ⟨_, _, _, rfl, by decide, rfl, rfl⟩

theorem witness_RunStopsAtTheFirstFault : (runCommands [divWords] demo).status ≠ some .ok ∧ [divWords] ≠ [] := by decide

theorem witness_RunStopsAtTheFirstFault_step :
    (∃ t, step (demo.present divWords) = .next t ∧ t.status ≠ some .ok) ∧
      ∃ t, step (demo.present adcWords) = .next t ∧ t.status = some .ok :=
  ⟨⟨_, rfl, by decide⟩, ⟨_, rfl, by decide⟩⟩

theorem witness_RunStopsAtTheFirstFault_goesOn : (runCommands [adcWords] demo).status = some .ok := by decide

theorem witness_EveryCommandKeepsItsFrame : ∃ t, exec (.sdiv 1 0 1 2) demo = .next t ∧ t.status = some .ok :=
  ⟨_, rfl, by decide⟩

theorem witness_StepKeepsMagnitudesInWidth :
    let s : State := { demo with params := ⟨1, true, .flipA⟩ }
    (s.present adcWords).Inv ∧ ∃ t, step (s.present adcWords) = .next t :=
  ⟨by decide, _, rfl⟩

theorem witness_SignWritesAreNormalised :
    ∃ t, exec (.sadd 0 .zero 0 1) (regs 10 10 0 (n1 := true)) = .next t ∧ t.status = some .ok ∧
      (0 : Reg) ∈ (Instr.sadd 0 .zero 0 1).signsWritten ∧ t.block.view (Instr.sadd 0 .zero 0 1).viewWidth 0 = 0 :=
  ⟨_, rfl, by decide, by decide, by decide⟩

theorem witness_SignedAndDataCommandsMakeNoNegativeZero :
    (Instr.smul 0 0 1).isSigned = true ∧ (Instr.lift 1 2 0).isData = true ∧ demo.block.canonical ∧
      (∃ t, exec (.smul 0 0 1) demo = .next t) ∧ ∃ t, exec (.lift 1 2 0) demo = .next t :=
  ⟨rfl, rfl, by decide, ⟨_, rfl⟩, _, rfl⟩

/-- A stale sign over a zero view in V0. -/
theorem witness_SignedCommandsReadTheEffectiveSign :
    let i := Instr.sadd 0 .zero 0 1
    let s := regs (2 ^ 200) 5 0 (n0 := true)
    let s' := regs (2 ^ 200) 5 0
    i.isSigned = true ∧ (∀ r, s.block.mag r = s'.block.mag r) ∧
      (∀ r, s.block.view i.viewWidth r ≠ 0 → s.block.neg r = s'.block.neg r) ∧
      s.block.cf = s'.block.cf ∧ s.block.eq = s'.block.eq ∧ s.block.lt = s'.block.lt ∧ s.params = s'.params ∧
      s.block ≠ s'.block ∧ (∃ t, exec i s = .next t ∧ t.status = some .ok) ∧ ∃ t, exec i s' = .next t :=
  ⟨rfl, by decide, by decide, rfl, rfl, rfl, rfl, by decide, ⟨_, rfl, by decide⟩, _, rfl⟩

theorem witness_UnsignedCommandsIgnoreSigns :
    let i := Instr.add 0 .zero 0 1
    let s := regs 7 5 0 (n0 := true)
    let s' := regs 7 5 0
    i.isSigned = false ∧ i.isData = false ∧ (∀ r, s.block.mag r = s'.block.mag r) ∧
      s.block.cf = s'.block.cf ∧ s.block.eq = s'.block.eq ∧ s.block.lt = s'.block.lt ∧ s.params = s'.params ∧
      s.block ≠ s'.block ∧ (∃ t, exec i s = .next t) ∧ ∃ t, exec i s' = .next t :=
  ⟨rfl, rfl, by decide, rfl, rfl, rfl, rfl, by decide, ⟨_, rfl⟩, _, rfl⟩

/-- Level 1 on instances with KMAX 2 and KMAX 1. -/
theorem witness_KmaxOnlyDecidesWhichLevelsExist :
    (∀ k, (Instr.add 1 .zero 0 1).level? = some k → k.val ≤ demo.params.kmax ∧ k.val ≤ 1) ∧
      ∃ t, exec (.add 1 .zero 0 1) demo = .next t :=
  ⟨by decide, _, rfl⟩

/-! The functions: operands at the ends of their range, and one per clause. -/

theorem witness_AddAndSubtractStructuresMeetTheirContracts :
    2 ^ 128 - 1 < 2 ^ width 0 ∧ 2 ^ 256 - 1 < 2 ^ width 1 := by decide

theorem witness_ShiftStructuresMeetTheirContracts : 2 ^ 128 - 1 < 2 ^ width 0 := by decide

theorem witness_SchoolbookMultiplyIsExact : 2 ^ 256 - 1 < 2 ^ width 1 ∧ 2 ^ 256 - 2 < 2 ^ width 1 := by decide

theorem witness_RestoringDivisionMeetsItsContract : 2 ^ 128 - 1 < 2 ^ width 0 ∧ 1 < 2 ^ width 0 ∧ 1 ≠ 0 := by decide

theorem witness_RestoringDivisionMeetsItsContract_zero : 5 < 2 ^ width 0 ∧ 0 < 2 ^ width 0 := by decide

/-- The counts 0, 1, W, and W + 1 of the clauses, at level 0. -/
theorem witness_MultiBitShiftIsIteratedSingleShift :
    2 ^ 128 - 1 < 2 ^ width 0 ∧ 1 ≤ 1 ∧ 1 ≤ width 0 ∧ width 0 ≤ 128 ∧ 128 ≤ width 0 ∧ width 0 < 129 := by decide

theorem witness_UnsignedOrderIsLexicographic : 2 ^ 64 + 5 < 2 ^ width 0 ∧ 2 ^ 65 + 1 < 2 ^ width 0 := by decide

theorem witness_LadderAgreement : 0 < 2 ^ width 0 ∧ 1 < 2 ^ width 0 ∧ (lSub 0 0 1 false).2 = true := by decide

theorem witness_SignedAddIsExactUnlessItOverflows :
    ∃ R, sAdd 0 ⟨2 ^ 128 - 1, false⟩ ⟨1, true⟩ false = .ok (R, false) ∧ 2 ^ 128 - 1 < 2 ^ width 0 ∧ R.mag ≠ 0 :=
  ⟨_, rfl, by decide, by decide⟩

theorem witness_SignedAddIsExactUnlessItOverflows_overflow :
    (∃ R, sAdd 0 ⟨2 ^ 128 - 1, true⟩ ⟨1, true⟩ false = .ok (R, true) ∧ R.mag = 0) ∧
      ∃ R, sAdd 0 ⟨2 ^ 128 - 1, true⟩ ⟨2, true⟩ false = .ok (R, true) ∧ R.mag ≠ 0 :=
  ⟨⟨_, rfl, by decide⟩, ⟨_, rfl, by decide⟩⟩

theorem witness_SignedSubtractFollowsItsMode :
    ∃ Ra Rb, sSub .flipA 0 ⟨5, false⟩ ⟨7, false⟩ false = .ok (Ra, false) ∧
      sSub .flipB 0 ⟨5, false⟩ ⟨7, false⟩ false = .ok (Rb, false) ∧ 7 < 2 ^ width 0 ∧ Ra.mag ≠ 0 :=
  ⟨_, _, rfl, rfl, by decide, by decide⟩

theorem witness_SignedSubtractFollowsItsMode_overflow :
    ∃ Ra Rb, sSub .flipA 0 ⟨2 ^ 128 - 1, false⟩ ⟨2, true⟩ false = .ok (Ra, true) ∧
      sSub .flipB 0 ⟨2 ^ 128 - 1, false⟩ ⟨2, true⟩ false = .ok (Rb, true) ∧ Rb.mag ≠ 0 :=
  ⟨_, _, rfl, rfl, by decide⟩

theorem witness_SignedSubtractFollowsItsMode_zero :
    ∃ Ra Rb, sSub .flipA 0 ⟨9, true⟩ ⟨9, true⟩ false = .ok (Ra, false) ∧
      sSub .flipB 0 ⟨9, true⟩ ⟨9, true⟩ false = .ok (Rb, false) ∧ Ra.mag = 0 :=
  ⟨_, _, rfl, rfl, by decide⟩

theorem witness_SignedMultiplyAndDivideOnMagnitudes :
    2 ^ 64 < 2 ^ width 0 ∧ (2 ^ 64 - 1) * 2 ^ 64 < 2 ^ width 0 ∧ 2 ^ 64 ≠ 0 := by decide

/-- The product that does not fit and has a zero low half, and the zero divisor. -/
theorem witness_SignedMultiplyAndDivideOnMagnitudes_corners :
    2 ^ 64 < 2 ^ width 0 ∧ (sMul 0 ⟨2 ^ 64, false⟩ ⟨2 ^ 64, true⟩).mag = 0 ∧ (⟨0, false⟩ : Signed).mag = 0 := by decide

theorem witness_SignedOrderIsTheOrderOfTheIntegers :
    let A : Signed := ⟨0, false⟩
    let B : Signed := ⟨3, true⟩
    (A.mag = 0 → A.neg = false) ∧ (B.mag = 0 → B.neg = false) := by decide

theorem witness_LawsOfTheUnsignedLevels :
    0 < 2 ^ width 0 ∧ 7 < 2 ^ width 0 ∧ 2 ^ 128 - 1 < 2 ^ width 0 ∧ 7 ≠ 0 ∧ 7 < 2 ^ 128 - 1 := by decide

/-- Three operands whose sums do not overflow. -/
theorem witness_LawsOfTheSignedOperations :
    let A : Signed := ⟨2 ^ 127, true⟩
    let B : Signed := ⟨5, false⟩
    let C : Signed := ⟨0, false⟩
    A.mag < 2 ^ width 0 ∧ B.mag < 2 ^ width 0 ∧ C.mag < 2 ^ width 0 ∧ (A.mag = 0 → A.neg = false) ∧
      (B.mag = 0 → B.neg = false) ∧ (C.mag = 0 → C.neg = false) ∧ B.mag ≠ 0 ∧
      ∃ R S T U, sAdd 0 A B false = .ok (R, false) ∧ sAdd 0 R C false = .ok (S, false) ∧
        sAdd 0 B C false = .ok (T, false) ∧ sAdd 0 A T false = .ok (U, false) :=
  ⟨by decide, by decide, by decide, by decide, by decide, by decide, by decide, _, _, _, _, rfl, rfl, rfl, rfl⟩

/-! Pseudo-instructions. -/

theorem witness_MultiBitShiftCommandIsRepeatedSingleShift :
    (0 : Level).val ≤ demo.params.kmax ∧ (∃ t, exec (.shln 0 0 129) demo = .next t) ∧
      ∃ t, exec (.shrn 0 0 129) demo = .next t :=
  ⟨by decide, ⟨_, rfl⟩, _, rfl⟩

theorem witness_MultiBitShiftCommandIsRepeatedSingleShift_zero :
    (2 : Level).val ≤ demo.params.kmax ∧ (∃ t, exec (.shln 2 0 0) demo = .next t) ∧
      ∃ t, exec (.shrn 2 0 0) demo = .next t :=
  ⟨by decide, ⟨_, rfl⟩, _, rfl⟩

theorem witness_ValueReturningOperatorsCompute :
    let c : Reg := 2
    let a : Reg := 0
    let b : Reg := 1
    let t : Reg := 3
    (1 : Level).val ≤ demo.params.kmax ∧ c ≠ a ∧ c ≠ b ∧ a ≠ b ∧ t ≠ a ∧ t ≠ b ∧ t ≠ c ∧
      demo.block.view (width 1) b ≠ 0 := by decide

/-- Signed sums and differences that fit, and a product that fits, at level 1. -/
theorem witness_ValueReturningOperatorsCompute_signed :
    let X := demo.block.signed (width 1) 0
    let Y := demo.block.signed (width 1) 1
    (X.neg ≠ Y.neg ∨ X.mag + Y.mag < 2 ^ width 1) ∧ (X.neg = Y.neg ∨ X.mag + Y.mag < 2 ^ width 1) ∧
      X.mag * Y.mag < 2 ^ width 1 ∧ (∃ R, sAdd 1 X Y false = .ok (R, false)) ∧
      ∃ R, sSub demo.params.ssubMode 1 X Y false = .ok (R, false) :=
  ⟨by decide, by decide, by decide, ⟨_, rfl⟩, _, rfl⟩

/-- A signed sum that overflows its magnitude, in which the two carry clauses still speak. -/
theorem witness_ValueReturningOperatorsCompute_overflow :
    ∃ R, sAdd 0 ((regs (2 ^ 128 - 1) 2 0).block.signed (width 0) 0) ((regs (2 ^ 128 - 1) 2 0).block.signed (width 0) 1)
      false = .ok (R, true) := ⟨_, rfl⟩

theorem witness_ComparisonsAreReadOffTheFlags :
    (1 : Level).val ≤ demo.params.kmax ∧ (∃ t, exec (.cmp 1 0 1) demo = .next t) ∧
      ∃ t, exec (.scmp 1 0 1) demo = .next t :=
  ⟨by decide, ⟨_, rfl⟩, _, rfl⟩

theorem witness_SmallIntegerBitwiseComputes : (2 : Level).val ≤ demo.params.kmax ∧ (0 : Reg) ≠ 3 := by decide

/-! What each command computes. -/

theorem witness_WordAddAndSubtractComplete : (0 : Reg) ≠ 1 := by decide

theorem witness_WordMultiplyCompletes : (0 : Reg) ≠ 1 ∧ (0 : Reg) ≠ 2 ∧ (1 : Reg) ≠ 2 := by decide

/-- The largest dividend that divides: its high word is one below the divisor. -/
theorem witness_WordDivideCompletes :
    let s := regs (2 ^ 64 - 1) (2 ^ 64 - 1) (2 ^ 64 - 2)
    s.params.hasDivw64 = true ∧ (0 : Reg) ≠ 1 ∧ (0 : Reg) ≠ 2 ∧ (1 : Reg) ≠ 2 ∧
      s.block.view 64 2 < s.block.view 64 1 := by decide

theorem witness_LevelAddAndSubtractComplete : (2 : Level).val ≤ demo.params.kmax ∧ (0 : Reg) ≠ 1 := by decide

theorem witness_LevelSingleShiftsComplete : (2 : Level).val ≤ demo.params.kmax := by decide

theorem witness_LevelMultiplyAndDivideComplete :
    (0 : Level).val ≤ demo.params.kmax ∧ (0 : Reg) ≠ 1 ∧ (0 : Reg) ≠ 2 ∧ (1 : Reg) ≠ 2 ∧
      demo.block.view (width 0) 1 ≠ 0 := by decide

theorem witness_ComparisonsComplete : (2 : Level).val ≤ demo.params.kmax := by decide

theorem witness_LevelBitwiseCompletes : (2 : Level).val ≤ demo.params.kmax ∧ (0 : Reg) ≠ 1 := by decide

/-- The counts 0, 1, W and W + 1 that the cases of CF meet at, at level 0. -/
theorem witness_LevelMultiBitShiftsComplete :
    (0 : Level).val ≤ demo.params.kmax ∧ (0 : BitVec 32).toNat = 0 ∧ (1 : BitVec 32).toNat ≤ width 0 ∧
      (128 : BitVec 32).toNat = width 0 ∧ ¬ (129 : BitVec 32).toNat ≤ width 0 := by decide

theorem witness_LoadImmediateCompletes :
    (0 : Level).val ≤ demo.params.kmax ∧ ([10, 0] : List Word).length = 2 ^ ((0 : Level).val + 1) ∧
      0 < ([10, 0] : List Word).length := by decide

theorem witness_LoadImmediateCompletes_top :
    (2 : Level).val ≤ demo.params.kmax ∧ ([0, 1, 2, 3, 4, 5, 6, 7] : List Word).length = 2 ^ ((2 : Level).val + 1) := by
  decide

theorem witness_SmallLoadsComplete : (2 : Level).val ≤ demo.params.kmax ∧ (0 : Reg) ≠ 1 := by decide

theorem witness_LiftAndCopyComplete : (2 : Level).val ≤ demo.params.kmax ∧ (2 : Reg) ≠ 0 := by decide

theorem witness_SignedAddCompletes :
    (0 : Level).val ≤ demo.params.kmax ∧ (0 : Reg) ≠ 1 ∧ demo.block.carryIn .cf = false := by decide

/-- An addition that overflows its magnitude. -/
theorem witness_SignedAddCompletes_overflow :
    let s := regs (2 ^ 128 - 1) 2 0 (n0 := true) (n1 := true)
    (0 : Level).val ≤ s.params.kmax ∧ (0 : Reg) ≠ 1 ∧ s.block.carryIn .zero = false ∧
      (answer s 0x1004040000000000 []).block.cf = true := by decide

theorem witness_SignedSubtractCompletes :
    (0 : Level).val ≤ demo.params.kmax ∧ (0 : Reg) ≠ 1 ∧ demo.block.carryIn .zero = false ∧
      demo.params.ssubMode = .flipB := by decide

theorem witness_SignedSubtractCompletes_flipA :
    let s := regs 5 7 0 (mode := .flipA)
    (0 : Level).val ≤ s.params.kmax ∧ (0 : Reg) ≠ 1 ∧ s.block.carryIn .zero = false ∧ s.params.ssubMode = .flipA ∧
      (answer s 0x1104040000000000 []).block.cf = false := by decide

/-- A subtraction that overflows its magnitude. -/
theorem witness_SignedSubtractCompletes_overflow :
    let s := regs (2 ^ 128 - 1) 2 0 (n1 := true)
    (0 : Level).val ≤ s.params.kmax ∧ (0 : Reg) ≠ 1 ∧ s.block.carryIn .zero = false ∧
      (answer s 0x1104040000000000 []).block.cf = true := by decide

theorem witness_SignedMultiplyCompletes :
    (1 : Level).val ≤ demo.params.kmax ∧ (0 : Reg) ≠ 1 ∧
      (demo.block.signed (width 1) 0).mag * (demo.block.signed (width 1) 1).mag < 2 ^ width 1 := by decide

theorem witness_SignedDivideCompletes :
    (1 : Level).val ≤ demo.params.kmax ∧ (0 : Reg) ≠ 1 ∧ (0 : Reg) ≠ 2 ∧ (1 : Reg) ≠ 2 ∧
      demo.block.view (width 1) 1 ≠ 0 := by decide

theorem witness_SignedSingleShiftsComplete : (0 : Level).val ≤ demo.params.kmax := by decide

/-- The counts 0, 1, W and W + 1 that the cases of CF meet at, at level 0. -/
theorem witness_SignedMultiBitShiftsComplete :
    (0 : Level).val ≤ demo.params.kmax ∧ (0 : BitVec 32).toNat = 0 ∧ (1 : BitVec 32).toNat ≤ width 0 ∧
      (128 : BitVec 32).toNat = width 0 ∧ ¬ (129 : BitVec 32).toNat ≤ width 0 := by decide

theorem witness_SignedBitwiseCompletes : (2 : Level).val ≤ demo.params.kmax ∧ (0 : Reg) ≠ 1 := by decide

end Sys2Proof.Tests
end

section
/-! SUPPORT. Normalised signed results (spec 10_state.md R15, 43_sign_wrapper.md R160): what every function of the sign
wrapper answers fits its level and is no negative zero, and writing such a result leaves no sign over a zero view. -/

namespace Sys2Proof.Machine

/-- The pair fits a view of `w` bits and is no negative zero: what a command may write with its sign. -/
def Signed.Normalised (x : Signed) (w : Nat) : Prop := x.mag < 2 ^ w ∧ (x.mag = 0 → x.neg = false)

/-- N[r] is 0 if the view of `w` bits of V[r] is zero (10_state.md R15). -/
def Block.SignNormalised (b : Block) (w : Nat) (r : Reg) : Prop := b.view w r = 0 → b.neg r = false

/-! What the operands and the functions answer is normalised. -/

theorem sNorm_normalised {w m : Nat} (h : m < 2 ^ w) (n : Bool) : (sNorm m n).Normalised w :=
  ⟨by simpa using h, fun hz => by simp [sNorm_neg, show m = 0 by simpa using hz]⟩

theorem nonneg_normalised {w m : Nat} (h : m < 2 ^ w) : ({ mag := m, neg := false } : Signed).Normalised w :=
  ⟨h, fun _ => rfl⟩

theorem view_lt_of_le (b : Block) {u w : Nat} (h : u ≤ w) (r : Reg) : b.view u r < 2 ^ w :=
  lt_of_lt_of_le (view_lt b u r) (Nat.pow_le_pow_right (by omega) h)

/-- An operand of a narrow view is a normalised result for every wider one. -/
theorem signed_normalised (b : Block) {u w : Nat} (h : u ≤ w) (r : Reg) : (b.signed u r).Normalised w :=
  ⟨view_lt_of_le b h r, signed_neg_of_zero b u r⟩

theorem sAddBranches_normalised (k : Nat) (A B : Signed) : (sAddBranches k A B).1.Normalised (width k) := by
  unfold sAddBranches
  split_ifs
  · exact sNorm_normalised (lAdd_lt ..) _
  · exact sNorm_normalised (lSub_lt ..) _
  · exact sNorm_normalised (Nat.two_pow_pos _) false
  · exact sNorm_normalised (lSub_lt ..) _

theorem sAdd_normalised {k : Nat} {A B : Signed} {cin : Bool} {r : Signed × Bool} (h : sAdd k A B cin = .ok r) :
    r.1.Normalised (width k) := by
  cases cin with
  | true => cases h
  | false =>
    cases h
    exact sAddBranches_normalised k A B

/-- Both modes of subtraction are an addition with one sign flipped (43_sign_wrapper.md R162). -/
theorem sSub_normalised {mode : SsubMode} {k : Nat} {A B : Signed} {bin : Bool} {r : Signed × Bool}
    (h : sSub mode k A B bin = .ok r) : r.1.Normalised (width k) := by
  cases bin with
  | true => cases h
  | false => cases mode with
    | flipA => exact sAdd_normalised (A := A.flip) (B := B) h
    | flipB => exact sAdd_normalised (A := A) (B := B.flip) h

theorem sMul_normalised (k : Nat) (A B : Signed) : (sMul k A B).Normalised (width k) :=
  sNorm_normalised (Nat.mod_lt _ (Nat.two_pow_pos _)) _

/-- Quotient and remainder are no larger than the dividend, and the remainder has sign 0 (43_sign_wrapper.md R164). -/
theorem sDiv_normalised {w : Nat} {A B : Signed} {r : Signed × Signed} (hA : A.mag < 2 ^ w) (h : sDiv A B = .ok r) :
    r.1.Normalised w ∧ r.2.Normalised w := by
  by_cases hB : B.mag = 0
  · simp [sDiv, lDivmod, hB] at h
  · obtain rfl : _ = r := by simpa [sDiv, lDivmod, hB] using h
    exact ⟨sNorm_normalised (lt_of_le_of_lt (Nat.div_le_self _ _) hA) _,
      nonneg_normalised (lt_of_le_of_lt (Nat.mod_le _ _) hA)⟩

theorem sShl1_normalised (k : Nat) (A : Signed) (cin : Bool) : (sShl1 k A cin).1.Normalised (width k) :=
  sNorm_normalised (lShl1_lt ..) _

theorem sShr1_normalised {k : Nat} {A : Signed} (hA : A.mag < 2 ^ width k) (cin : Bool) :
    (sShr1 k A cin).1.Normalised (width k) :=
  sNorm_normalised (lShr1_lt k cin hA) _

theorem sShln_normalised (k : Nat) (A : Signed) (n : Nat) : (sShln k A n).1.Normalised (width k) :=
  sNorm_normalised (lShln_lt ..) _

theorem sShrn_normalised {k : Nat} {A : Signed} (hA : A.mag < 2 ^ width k) (n : Nat) :
    (sShrn k A n).1.Normalised (width k) :=
  sNorm_normalised (lShrn_lt k n hA) _

theorem sAnd_normalised {w : Nat} {A B : Signed} (hB : B.mag < 2 ^ w) : (sAnd A B).Normalised w :=
  sNorm_normalised (Nat.and_lt_two_pow _ hB) _

theorem sOr_normalised {w : Nat} {A B : Signed} (hA : A.mag < 2 ^ w) (hB : B.mag < 2 ^ w) : (sOr A B).Normalised w :=
  sNorm_normalised (Nat.or_lt_two_pow hA hB) _

theorem sXor_normalised {w : Nat} {A B : Signed} (hA : A.mag < 2 ^ w) (hB : B.mag < 2 ^ w) : (sXor A B).Normalised w :=
  sNorm_normalised (Nat.xor_lt_two_pow hA hB) _

/-! Writing a normalised result; the flags do not matter. -/

@[simp] theorem signNormalised_setCF (b : Block) (c : Bool) (w : Nat) (r : Reg) :
    (b.setCF c).SignNormalised w r ↔ b.SignNormalised w r := .rfl

@[simp] theorem signNormalised_setShiftOut (b : Block) (c : Option Bool) (w : Nat) (r : Reg) :
    (b.setShiftOut c).SignNormalised w r ↔ b.SignNormalised w r := by
  simp [Block.SignNormalised]

theorem signNormalised_setSigned_self (b : Block) {w : Nat} (r : Reg) {x : Signed} (h : x.Normalised w) :
    (b.setSigned w r x).SignNormalised w r := by
  obtain ⟨hfit, hzero⟩ := h
  intro hv
  simpa using hzero (by simpa [Nat.mod_eq_of_lt hfit] using hv)

theorem signNormalised_setSigned_ne {b : Block} {w : Nat} {r q : Reg} (x : Signed) (hrq : r ≠ q)
    (h : b.SignNormalised w q) : (b.setSigned w r x).SignNormalised w q := by
  simpa [Block.SignNormalised, hrq] using h

theorem signNormalised_putSignedCarry (b : Block) {w : Nat} (rd : Reg) {r : Signed × Bool} (h : r.1.Normalised w) :
    (putSignedCarry b w rd r).SignNormalised w rd :=
  (signNormalised_setCF ..).mpr (signNormalised_setSigned_self b rd h)

theorem signNormalised_setSigned_pair (b : Block) {w : Nat} {rd rt q : Reg} {x y : Signed} (hx : x.Normalised w)
    (hy : y.Normalised w) (hq : q = rd ∨ q = rt) : ((b.setSigned w rd x).setSigned w rt y).SignNormalised w q := by
  by_cases ht : rt = q
  · exact ht ▸ signNormalised_setSigned_self _ rt hy
  · obtain rfl : q = rd := hq.resolve_right (Ne.symm ht)
    exact signNormalised_setSigned_ne y ht (signNormalised_setSigned_self b q hx)

end Sys2Proof.Machine
end

section
/-! PROOFS. The statements of 10_state.md: every sign a command writes is normalised (R15), and the reset state (R22). -/

namespace Sys2Proof.Machine

/-- Every sign an effect writes is normalised: one case per command that writes a sign. -/
theorem effectOf_signNormalised {i : Instr} {p : Params} {b c : Block} {r : Reg} (hwf : i.wellFormed = true)
    (h : effectOf i p b = .ok c) (hr : r ∈ i.signsWritten) : c.SignNormalised i.viewWidth r := by
  cases i <;> simp only [Instr.signsWritten, List.not_mem_nil, List.mem_cons, or_false] at hr
  case sdiv k rd rs rt =>
    simp only [effectOf] at h
    split at h <;> cases h
    case h_2 q hq =>
      obtain ⟨hquot, hrem⟩ := sDiv_normalised (view_lt b (width k) rd) hq
      exact signNormalised_setSigned_pair b hquot hrem hr
  all_goals subst hr
  case ldi k sg payload =>
    cases h
    exact signNormalised_setSigned_self b r
      (sNorm_normalised (payloadValue_lt_level (by simpa [Instr.wellFormed] using hwf)) sg)
  case lds k imm =>
    cases h
    exact signNormalised_setSigned_self b r (nonneg_normalised
      (lt_of_lt_of_le imm.isLt (Nat.pow_le_pow_right (by omega) (by have := width_pos k; omega))))
  case lift k rs =>
    cases h
    exact signNormalised_setSigned_self b r (signed_normalised b (by have := width_half k; omega) rs)
  case copy k rs =>
    cases h
    exact signNormalised_setSigned_self b r (signed_normalised b le_rfl rs)
  case lowb k rs =>
    cases h
    exact signNormalised_setSigned_self b r
      (nonneg_normalised (view_lt_of_le b (by have := width_pos k; omega) rs))
  case sadd k cs rs =>
    simp only [effectOf] at h
    split at h <;> cases h
    case h_2 q hq => exact signNormalised_putSignedCarry b r (sAdd_normalised hq)
  case ssub k cs rs =>
    simp only [effectOf] at h
    split at h <;> cases h
    case h_2 q hq => exact signNormalised_putSignedCarry b r (sSub_normalised hq)
  case sshl1 k cs =>
    cases h
    exact signNormalised_putSignedCarry b r (sShl1_normalised ..)
  case sshr1 k cs =>
    cases h
    exact signNormalised_putSignedCarry b r (sShr1_normalised (view_lt ..) _)
  case smul k rs =>
    cases h
    exact signNormalised_setSigned_self b r (sMul_normalised ..)
  case sand k rs =>
    cases h
    exact signNormalised_setSigned_self b r (sAnd_normalised (view_lt ..))
  case sor k rs =>
    cases h
    exact signNormalised_setSigned_self b r (sOr_normalised (view_lt ..) (view_lt ..))
  case sxor k rs =>
    cases h
    exact signNormalised_setSigned_self b r (sXor_normalised (view_lt ..) (view_lt ..))
  case sshln k imm =>
    cases h
    exact (signNormalised_setShiftOut ..).mpr (signNormalised_setSigned_self b r (sShln_normalised ..))
  case sshrn k imm =>
    cases h
    exact (signNormalised_setShiftOut ..).mpr (signNormalised_setSigned_self b r (sShrn_normalised (view_lt ..) _))

/-- Settles O17: a command that completes has written its effect, and every sign an effect writes is normalised. -/
theorem signWritesAreNormalised : Obligations.SignWritesAreNormalised := by
  intro i s t r hexec hok hr
  obtain ⟨u, hu, hcases⟩ := exec_cases i s
  obtain rfl : u = t := by simpa [hu] using hexec
  rcases hcases with ⟨_, rfl⟩ | ⟨_, _, rfl⟩ | ⟨_, _, f, _, rfl⟩ | ⟨⟨hwf, _, _⟩, _, b, hb, rfl⟩
  · simp at hok
  · simp at hok
  · simp at hok
  · exact effectOf_signNormalised hwf hb hr

/-- Settles O4: the reset block reads zero in every register and flag. -/
theorem resetStateIsAllZero : Obligations.ResetStateIsAllZero :=
  ⟨mag_reset, neg_reset, rfl, rfl, rfl⟩

end Sys2Proof.Machine
end

section
/-! SUPPORT. Multi-bit shifts as iterated single shifts (spec 41_level_functions.md R104): the closed form of `n + 1` places
is one single shift of the closed form of `n` places, and so is what the commands write. -/

namespace Sys2Proof.Machine

/-! A view written over what was written before. -/

theorem setView_setView_self (b : Block) (w : Nat) (r : Reg) (x y : Nat) :
    (b.setView w r x).setView w r y = b.setView w r y := by
  refine Block.ext_read (fun q => ?_) (fun _ => rfl) rfl rfl rfl
  by_cases hrq : r = q
  · subst hrq
    rw [mag_setView, if_pos rfl, upper_setView, mag_setView, if_pos rfl]
  · simp [hrq]

/-- Writing back the view that was read changes nothing. -/
@[simp] theorem setView_view_self (b : Block) (w : Nat) (r : Reg) : b.setView w r (b.view w r) = b := by
  refine Block.ext_read (fun q => ?_) (fun _ => rfl) rfl rfl rfl
  by_cases hrq : r = q
  · subst hrq
    rw [mag_setView, if_pos rfl, Nat.mod_eq_of_lt (view_lt b w r), Block.view, Nat.div_add_mod']
  · simp [hrq]

theorem setView_setShiftOut (b : Block) (c : Option Bool) (w : Nat) (r : Reg) (x : Nat) :
    (b.setShiftOut c).setView w r x = (b.setView w r x).setShiftOut c := by
  cases c <;> rfl

theorem setCF_setShiftOut (b : Block) (c : Option Bool) (d : Bool) : (b.setShiftOut c).setCF d = b.setCF d := by
  cases c <;> rfl

/-! What the two kinds of shift write. -/

/-- The block after one single shift `f` of the view with a zero shifted in. -/
def Block.shiftOnce (f : Nat → Bool → Nat × Bool) (w : Nat) (rd : Reg) (b : Block) : Block :=
  putViewCarry b w rd (f (b.view w rd) false)

/-- The block after the multi-bit shift `g` of the view by `n` places. -/
def Block.shiftBy (g : Nat → Nat → Nat × Option Bool) (w : Nat) (rd : Reg) (n : Nat) (b : Block) : Block :=
  (b.setView w rd (g (b.view w rd) n).1).setShiftOut (g (b.view w rd) n).2

/-- `g` is `f` iterated, on values of `w` bits: no shift moves no bit out, and the last single shift decides the bit
moved out (41_level_functions.md R104). -/
structure ShiftIterates (w : Nat) (f : Nat → Bool → Nat × Bool) (g : Nat → Nat → Nat × Option Bool) : Prop where
  lt : ∀ {a} n, a < 2 ^ w → (g a n).1 < 2 ^ w
  zero : ∀ {a}, a < 2 ^ w → g a 0 = (a, none)
  succ : ∀ {a} n, a < 2 ^ w → g a (n + 1) = ((f (g a n).1 false).1, some (f (g a n).1 false).2)

section
variable {w : Nat} {f : Nat → Bool → Nat × Bool} {g : Nat → Nat → Nat × Option Bool}

theorem ShiftIterates.shiftBy_zero (h : ShiftIterates w f g) (rd : Reg) (b : Block) : b.shiftBy g w rd 0 = b := by
  simp [Block.shiftBy, h.zero (view_lt b w rd), Block.setShiftOut]

theorem ShiftIterates.shiftBy_succ (h : ShiftIterates w f g) (rd : Reg) (n : Nat) (b : Block) :
    b.shiftBy g w rd (n + 1) = (b.shiftBy g w rd n).shiftOnce f w rd := by
  have hview : (b.shiftBy g w rd n).view w rd = (g (b.view w rd) n).1 := by
    rw [Block.shiftBy, view_setShiftOut, view_setView_self, Nat.mod_eq_of_lt (h.lt n (view_lt b w rd))]
  rw [Block.shiftOnce, hview, putViewCarry, Block.shiftBy, Block.shiftBy, setView_setShiftOut, setView_setView_self,
    setCF_setShiftOut, h.succ n (view_lt b w rd)]
  rfl

theorem ShiftIterates.iterate_shiftOnce (h : ShiftIterates w f g) (rd : Reg) (n : Nat) (b : Block) :
    (Block.shiftOnce f w rd)^[n] b = b.shiftBy g w rd n := by
  induction n with
  | zero => exact (h.shiftBy_zero rd b).symm
  | succ n ih => rw [Function.iterate_succ_apply', ih, h.shiftBy_succ]

end

/-! The closed forms of R104 without their case distinctions. -/

theorem lShln_value (k a n : Nat) : (lShln k a n).1 = a * 2 ^ n % 2 ^ width k := by
  simp only [lShln]
  split_ifs with hn
  · rfl
  · exact (Nat.mod_eq_zero_of_dvd ((Nat.pow_dvd_pow 2 (not_lt.mp hn)).mul_left a)).symm

theorem lShrn_value (k n : Nat) {a : Nat} (ha : a < 2 ^ width k) : (lShrn k a n).1 = a / 2 ^ n := by
  simp only [lShrn]
  split_ifs with hn
  · rfl
  · exact (Nat.div_eq_of_lt (ha.trans_le (Nat.pow_le_pow_right (by omega) (not_lt.mp hn)))).symm

/-- The bit a left shift by `n + 1` places moves out is the one that would stand just above the level. -/
theorem lShln_out_succ (k a n : Nat) : (lShln k a (n + 1)).2 = some ((a * 2 ^ (n + 1)).testBit (width k)) := by
  simp [lShln, Nat.testBit_mul_two_pow]

/-- The bit a right shift by `n + 1` places moves out; beyond the level there are only zeros. -/
theorem lShrn_out_succ (k n : Nat) {a : Nat} (ha : a < 2 ^ width k) : (lShrn k a (n + 1)).2 = some (a.testBit n) := by
  by_cases hn : n + 1 ≤ width k
  · simp [lShrn, hn]
  · have hbit : a.testBit n = false :=
      Nat.testBit_lt_two_pow (ha.trans_le (Nat.pow_le_pow_right (by omega) (by omega)))
    simp [lShrn, hbit]

theorem shiftIterates_left (k : Nat) : ShiftIterates (width k) (lShl1 k) (lShln k) where
  lt n _ := lShln_lt k _ n
  zero ha := Prod.ext (by rw [lShln_value, Nat.pow_zero, Nat.mul_one, Nat.mod_eq_of_lt ha]) rfl
  succ {a} n _ := by
    refine Prod.ext ?_ ?_
    · simp only [lShl1, lShln_value, Nat.mul_mod_mod, Bool.toNat_false, Nat.add_zero, Nat.pow_succ]
      congr 1
      ring
    · obtain ⟨d, hd⟩ : ∃ d, width k = d + 1 := ⟨width k - 1, by have := width_pos k; omega⟩
      have htop : (a * 2 ^ (n + 1)).testBit (d + 1) = (a * 2 ^ n % 2 ^ (d + 1)).testBit d := by
        rw [Nat.pow_succ, ← Nat.mul_assoc, Nat.testBit_succ, Nat.mul_div_cancel _ two_pos, Nat.testBit_mod_two_pow]
        simp
      simp only [lShl1, lShln_value, lShln_out_succ, hd, htop, Nat.add_sub_cancel]

theorem shiftIterates_right (k : Nat) : ShiftIterates (width k) (lShr1 k) (lShrn k) where
  lt n ha := lShrn_lt k n ha
  zero ha := Prod.ext (by rw [lShrn_value k 0 ha, Nat.pow_zero, Nat.div_one]) rfl
  succ {a} n ha := by
    refine Prod.ext ?_ ?_
    · simp [lShr1, lShrn_value k _ ha, Nat.div_div_eq_div_mul, Nat.pow_succ]
    · simp only [lShr1, lShrn_value k _ ha, lShrn_out_succ k n ha, Nat.testBit_div_two_pow, Nat.zero_add]

/-! What the commands do. -/

theorem exec_shl1_zero {k : Level} (rd : Reg) {s : State} (hk : k.val ≤ s.params.kmax) :
    exec (.shl1 k .zero rd) s = .next (s.complete (s.block.shiftOnce (lShl1 k) (width k) rd)) :=
  levelCarry1_ok (lShl1 k) .zero rd hk

theorem exec_shr1_zero {k : Level} (rd : Reg) {s : State} (hk : k.val ≤ s.params.kmax) :
    exec (.shr1 k .zero rd) s = .next (s.complete (s.block.shiftOnce (lShr1 k) (width k) rd)) :=
  levelCarry1_ok (lShr1 k) .zero rd hk

theorem exec_shln {k : Level} (rd : Reg) (imm : BitVec 32) {s : State} (hk : k.val ≤ s.params.kmax) :
    exec (.shln k rd imm) s = .next (s.complete (s.block.shiftBy (lShln k) (width k) rd imm.toNat)) :=
  levelShift_ok (lShln k) rd imm hk

theorem exec_shrn {k : Level} (rd : Reg) (imm : BitVec 32) {s : State} (hk : k.val ≤ s.params.kmax) :
    exec (.shrn k rd imm) s = .next (s.complete (s.block.shiftBy (lShrn k) (width k) rd imm.toNat)) :=
  levelShift_ok (lShrn k) rd imm hk

/-- A sequence goes on after an instruction that completes (70_reset_and_hazards.md R222). -/
theorem execAll_cons_complete {i : Instr} {s : State} {b : Block} (h : exec i s = .next (s.complete b))
    (is : List Instr) : execAll (i :: is) s = execAll is (s.complete b) := by
  simp [execAll, h]

/-- An instruction that always completes, presented `n` times, iterates its effect on the block. -/
theorem execAll_replicate_block {i : Instr} {p : Params} {f : Block → Block}
    (h : ∀ s : State, s.params = p → exec i s = .next (s.complete (f s.block))) (n : Nat) :
    ∀ s : State, s.params = p → (execAll (List.replicate n i) s).block = f^[n] s.block := by
  induction n with
  | zero => exact fun _ _ => rfl
  | succ n ih =>
    intro s hs
    rw [List.replicate_succ, execAll_cons_complete (h s hs), ih (s.complete (f s.block)) hs]
    rfl

end Sys2Proof.Machine
end

section
/-! SUPPORT. Comparisons (spec 41_level_functions.md R100, 43_sign_wrapper.md R165): what the two flags say of the operands
decides the six relations of 30_encoding.md R63. -/

namespace Sys2Proof.Machine

theorem lEq_iff (a b : Nat) : lEq a b = true ↔ a = b := by simp [lEq]

theorem lLt_iff (a b : Nat) : lLt a b = true ↔ a < b := by simp [lLt]

/-- Without a negative zero, two pairs are equal exactly when their integers are. -/
theorem sEq_iff_val {A B : Signed} (hA : A.mag = 0 → A.neg = false) (hB : B.mag = 0 → B.neg = false) :
    sEq A B = true ↔ A.val = B.val := by
  obtain ⟨a, _ | _⟩ := A <;> obtain ⟨b, _ | _⟩ := B
  · simp [sEq, Signed.val, lEq_iff]
  · have hb : b ≠ 0 := by simpa using hB
    have hne : (a : Int) ≠ -b := by omega
    simp [sEq, Signed.val, hne]
  · have ha : a ≠ 0 := by simpa using hA
    have hne : -(a : Int) ≠ b := by omega
    simp [sEq, Signed.val, hne]
  · simp [sEq, Signed.val, lEq_iff]

/-- The four sign cases are the order of the integers; a negative zero on the right would do no harm. -/
theorem sLt_iff_val {A : Signed} (hA : A.mag = 0 → A.neg = false) (B : Signed) :
    sLt A B = true ↔ A.val < B.val := by
  obtain ⟨a, _ | _⟩ := A <;> obtain ⟨b, _ | _⟩ := B
  · simp [sLt, Signed.val, lLt_iff]
  · have hge : ¬ (a : Int) < -b := by omega
    simp [sLt, Signed.val, hge]
  · have ha : a ≠ 0 := by simpa using hA
    have hlt : -(a : Int) < b := by omega
    simp [sLt, Signed.val, hlt]
  · simp [sLt, Signed.val, lLt_iff]

section
variable {α : Type} [LinearOrder α] {b : Block} {x y : α}

/-- Flags that say equal and less in a linear order give all six relations. -/
theorem readOff_iff (heq : b.eq = true ↔ x = y) (hlt : b.lt = true ↔ x < y) :
    (b.readOff .eq = true ↔ x = y) ∧ (b.readOff .ne = true ↔ x ≠ y) ∧
      (b.readOff .lt = true ↔ x < y) ∧ (b.readOff .le = true ↔ x ≤ y) ∧
      (b.readOff .gt = true ↔ y < x) ∧ (b.readOff .ge = true ↔ y ≤ x) := by
  have hgt : y ≤ x ∧ ¬ x = y ↔ y < x := by rw [lt_iff_le_and_ne, ne_comm]
  simp [Block.readOff, ← Bool.not_eq_true, heq, hlt, hgt, le_iff_lt_or_eq (a := x)]

/-- Such flags are never both set. -/
theorem flags_exclusive (heq : b.eq = true ↔ x = y) (hlt : b.lt = true ↔ x < y) :
    (b.lt = true ∧ b.eq = false) ∨ (b.lt = false ∧ b.eq = true) ∨ (b.lt = false ∧ b.eq = false) := by
  simp only [← Bool.not_eq_true, heq, hlt]
  rcases lt_trichotomy x y with h | h | h
  · exact .inl ⟨h, h.ne⟩
  · exact .inr (.inl ⟨h.not_lt, h⟩)
  · exact .inr (.inr ⟨h.asymm, h.ne'⟩)

end

theorem exec_cmp {k : Level} (rd rs : Reg) {s : State} (hk : k.val ≤ s.params.kmax) :
    exec (.cmp k rd rs) s = .next (s.complete (s.block.setCompare
      (lEq (s.block.view (width k) rd) (s.block.view (width k) rs))
      (lLt (s.block.view (width k) rd) (s.block.view (width k) rs)))) :=
  (exec_eq_perform _ s).trans (perform_ok (decide_eq_true hk) (aliasClash_src_src rd rs) rfl)

theorem exec_scmp {k : Level} (rd rs : Reg) {s : State} (hk : k.val ≤ s.params.kmax) :
    exec (.scmp k rd rs) s = .next (s.complete (s.block.setCompare
      (sEq (s.block.signed (width k) rd) (s.block.signed (width k) rs))
      (sLt (s.block.signed (width k) rd) (s.block.signed (width k) rs)))) :=
  (exec_eq_perform _ s).trans (perform_ok (decide_eq_true hk) (aliasClash_src_src rd rs) rfl)

end Sys2Proof.Machine
end

section
/-! PROOFS. The pseudo-instructions of 30_encoding.md: multi-bit shifts (R65) and the relations after a comparison (R63). -/

namespace Sys2Proof.Machine

/-- Settles O37: the block after `n` single shifts is the block after one shift by `n`, on both sides. -/
theorem multiBitShiftCommandIsRepeatedSingleShift : Obligations.MultiBitShiftCommandIsRepeatedSingleShift := by
  intro k rd imm s t u hk ht hu
  obtain rfl : _ = t := by simpa [exec_shln rd imm hk] using ht
  obtain rfl : _ = u := by simpa [exec_shrn rd imm hk] using hu
  refine ⟨?_, ?_, ?_⟩
  · rw [pseudoShl, execAll_replicate_block (fun s' hs => exec_shl1_zero rd (hs ▸ hk)) _ s rfl,
      (shiftIterates_left k).iterate_shiftOnce, complete_block]
  · rw [pseudoShr, execAll_replicate_block (fun s' hs => exec_shr1_zero rd (hs ▸ hk)) _ s rfl,
      (shiftIterates_right k).iterate_shiftOnce, complete_block]
  · rintro rfl
    exact ⟨(shiftIterates_left k).shiftBy_zero rd s.block, (shiftIterates_right k).shiftBy_zero rd s.block⟩

/-- Settles O39: EQ and LT say equal and less, of the views after CMP and of the integers after SCMP. -/
theorem comparisonsAreReadOffTheFlags : Obligations.ComparisonsAreReadOffTheFlags := by
  intro k rd rs s t u hk ht hu a b x y
  obtain rfl : _ = t := by simpa [exec_cmp rd rs hk] using ht
  obtain rfl : _ = u := by simpa [exec_scmp rd rs hk] using hu
  have hx := signed_neg_of_zero s.block (width k) rd
  have hy := signed_neg_of_zero s.block (width k) rs
  refine ⟨readOff_iff (lEq_iff a b) (lLt_iff a b), readOff_iff (sEq_iff_val hx hy) (sLt_iff_val hx _), ?_⟩
  simp only [List.mem_cons, List.not_mem_nil, or_false, forall_eq_or_imp, forall_eq]
  exact ⟨flags_exclusive (lEq_iff a b) (lLt_iff a b), flags_exclusive (sEq_iff_val hx hy) (sLt_iff_val hx _)⟩

end Sys2Proof.Machine
end

section
/-! SUPPORT. The iteration of 41_level_functions.md R104 as a power of one step, and the closed forms of its two results. -/

namespace Sys2Proof.Machine

/-! The iteration: the single shift applied to the value, the bit moved out replacing the one before. -/

/-- One single shift `f` with a zero shifted in, on a value and the bit moved out last. -/
def shiftStep (f : Nat → Bool → Nat × Bool) (x : Nat × Option Bool) : Nat × Option Bool :=
  ((f x.1 false).1, some (f x.1 false).2)

theorem shlIter_eq_iterate (k n : Nat) (x : Nat × Option Bool) : shlIter k n x = (shiftStep (lShl1 k))^[n] x := by
  induction n generalizing x with
  | zero => rfl
  | succ n ih => exact ih _

theorem shrIter_eq_iterate (k n : Nat) (x : Nat × Option Bool) : shrIter k n x = (shiftStep (lShr1 k))^[n] x := by
  induction n generalizing x with
  | zero => rfl
  | succ n ih => exact ih _

/-- A multi-bit shift that gains one place by one single shift is the single shift iterated. -/
theorem ShiftIterates.iterate_shiftStep {w a : Nat} {f : Nat → Bool → Nat × Bool} {g : Nat → Nat → Nat × Option Bool}
    (h : ShiftIterates w f g) (ha : a < 2 ^ w) (n : Nat) : (shiftStep f)^[n] (a, none) = g a n := by
  induction n with
  | zero => exact (h.zero ha).symm
  | succ n ih => rw [Function.iterate_succ_apply', ih, h.succ n ha, shiftStep]

theorem lShln_eq_shlIter (k n : Nat) {a : Nat} (ha : a < 2 ^ width k) : lShln k a n = shlIter k n (a, none) := by
  rw [shlIter_eq_iterate, (shiftIterates_left k).iterate_shiftStep ha]

theorem lShrn_eq_shrIter (k n : Nat) {a : Nat} (ha : a < 2 ^ width k) : lShrn k a n = shrIter k n (a, none) := by
  rw [shrIter_eq_iterate, (shiftIterates_right k).iterate_shiftStep ha]

/-! From the width of the level on, nothing is left of the value. -/

theorem lShln_value_of_width_le {k n : Nat} (a : Nat) (hn : width k ≤ n) : (lShln k a n).1 = 0 := if_neg hn.not_gt

theorem lShrn_value_of_width_le {k n : Nat} (a : Nat) (hn : width k ≤ n) : (lShrn k a n).1 = 0 := if_neg hn.not_gt

/-! The bit moved out last: a bit of the value up to the width of the level, a zero beyond it. -/

theorem lShln_out_of_le {k n : Nat} (a : Nat) (hpos : 1 ≤ n) (hn : n ≤ width k) :
    (lShln k a n).2 = some (a.testBit (width k - n)) := by
  simp [lShln, hn, Nat.one_le_iff_ne_zero.mp hpos]

theorem lShrn_out_of_le {k n : Nat} (a : Nat) (hpos : 1 ≤ n) (hn : n ≤ width k) :
    (lShrn k a n).2 = some (a.testBit (n - 1)) := by
  simp [lShrn, hn, Nat.one_le_iff_ne_zero.mp hpos]

theorem lShln_out_of_width_lt {k n : Nat} (a : Nat) (hn : width k < n) : (lShln k a n).2 = some false := by
  simp [lShln, hn.not_ge, Nat.ne_zero_of_lt hn]

theorem lShrn_out_of_width_lt {k n : Nat} (a : Nat) (hn : width k < n) : (lShrn k a n).2 = some false := by
  simp [lShrn, hn.not_ge, Nat.ne_zero_of_lt hn]

end Sys2Proof.Machine
end

section
/-! PROOFS. The multi-bit shifts of 41_level_functions.md (R104). -/

namespace Sys2Proof.Machine

/-- Settles O28: both multi-bit shifts are iterated single shifts, by induction on the count, and have the closed forms. -/
theorem multiBitShiftIsIteratedSingleShift : Obligations.MultiBitShiftIsIteratedSingleShift := by
  intro k a n ha
  refine ⟨lShln_eq_shlIter k n ha, lShrn_eq_shrIter k n ha, lShln_value k a n, lShrn_value k n ha, ?_, ?_, ?_, ?_⟩
  · exact fun hn => ⟨lShln_value_of_width_le a hn, lShrn_value_of_width_le a hn⟩
  · rintro rfl
    exact ⟨rfl, rfl⟩
  · exact fun hpos hn => ⟨lShln_out_of_le a hpos hn, lShrn_out_of_le a hpos hn⟩
  · exact fun hn => ⟨lShln_out_of_width_lt a hn, lShrn_out_of_width_lt a hn⟩

end Sys2Proof.Machine
end

section
/-! SUPPORT. Signed multiply and divide as functions on the integers (spec 43_sign_wrapper.md R163, R164): normalisation keeps
the integer, and a magnitude result with the XOR of the signs is the product or the truncated quotient. -/

namespace Sys2Proof.Machine

/-! The integer a pair denotes. -/

/-- Normalising moves a negative zero to +0, which is the same integer (43_sign_wrapper.md R160). -/
@[simp] theorem sNorm_val (m : Nat) (n : Bool) : (sNorm m n).val = (⟨m, n⟩ : Signed).val := by
  by_cases hm : m = 0 <;> simp [sNorm, Signed.val, hm]

theorem val_mul_xor (a b : Nat) (m n : Bool) :
    (⟨a * b, m ^^ n⟩ : Signed).val = (⟨a, m⟩ : Signed).val * (⟨b, n⟩ : Signed).val := by
  cases m <;> cases n <;> simp [Signed.val]

/-- Dividing the magnitudes rounds toward zero, whatever the signs. -/
theorem val_div_xor (a b : Nat) (m n : Bool) :
    (⟨a / b, m ^^ n⟩ : Signed).val = (⟨a, m⟩ : Signed).val.tdiv (⟨b, n⟩ : Signed).val := by
  cases m <;> cases n <;> simp [Signed.val]

/-- The remainder of the magnitudes under the dividend's sign is the one that belongs to the truncated quotient. -/
theorem val_mod_left (a b : Nat) (m n : Bool) :
    (⟨a % b, m⟩ : Signed).val = (⟨a, m⟩ : Signed).val.tmod (⟨b, n⟩ : Signed).val := by
  cases m <;> cases n <;> simp [Signed.val, Int.tmod_eq_emod_of_nonneg]

/-! Signed multiply. -/

@[simp] theorem sMul_mag (k : Nat) (A B : Signed) : (sMul k A B).mag = A.mag * B.mag % 2 ^ width k := sNorm_mag ..

theorem sMul_neg (k : Nat) (A B : Signed) :
    (sMul k A B).neg = if (sMul k A B).mag = 0 then false else A.neg ^^ B.neg := by
  rw [sMul, sNorm_mag, sNorm_neg]

theorem sMul_val_of_fits {k : Nat} {A B : Signed} (h : A.mag * B.mag < 2 ^ width k) :
    (sMul k A B).val = A.val * B.val := by
  rw [sMul, sNorm_val, lMulw, Nat.mod_eq_of_lt h, val_mul_xor]

/-! Signed divide. -/

theorem sDiv_of_zero (A : Signed) {B : Signed} (hB : B.mag = 0) : sDiv A B = .error .divideByZero := by
  simp [sDiv, lDivmod, hB]

theorem sDiv_of_ne_zero (A : Signed) {B : Signed} (hB : B.mag ≠ 0) :
    sDiv A B = .ok (sNorm (A.mag / B.mag) (A.neg ^^ B.neg), ⟨A.mag % B.mag, false⟩) := by
  simp [sDiv, lDivmod, hB]

/-- The quotient is truncated toward zero (43_sign_wrapper.md R164). -/
theorem sDiv_quotient_val (A B : Signed) :
    (sNorm (A.mag / B.mag) (A.neg ^^ B.neg)).val = A.val.tdiv B.val := by
  rw [sNorm_val, val_div_xor]

/-- The division identity, with the remainder under the dividend's sign as the host can form it (43_sign_wrapper.md R164). -/
theorem sDiv_identity (A B : Signed) :
    (sNorm (A.mag / B.mag) (A.neg ^^ B.neg)).val * B.val + (⟨A.mag % B.mag, A.neg⟩ : Signed).val = A.val := by
  rw [sDiv_quotient_val, val_mod_left A.mag B.mag A.neg B.neg]
  exact Int.tdiv_mul_add_tmod A.val B.val

end Sys2Proof.Machine
end

section
/-! SUPPORT. Signed order and equality (spec 43_sign_wrapper.md R165): equality of the pairs, and the three cases of the order. -/

namespace Sys2Proof.Machine

theorem sEq_iff (A B : Signed) : sEq A B = true ↔ A.neg = B.neg ∧ A.mag = B.mag := by
  simp [sEq, lEq_iff]

/-- The order is total: the three cases are those of the integers. -/
theorem sLt_sEq_trichotomy {A B : Signed} (hA : A.mag = 0 → A.neg = false) (hB : B.mag = 0 → B.neg = false) :
    (sLt A B = true ∧ sEq A B = false ∧ sLt B A = false) ∨ (sLt A B = false ∧ sEq A B = true ∧ sLt B A = false) ∨
      (sLt A B = false ∧ sEq A B = false ∧ sLt B A = true) := by
  simp only [← Bool.not_eq_true, sLt_iff_val hA, sLt_iff_val hB, sEq_iff_val hA hB]
  rcases lt_trichotomy A.val B.val with h | h | h
  · exact .inl ⟨h, h.ne, h.asymm⟩
  · exact .inr (.inl ⟨h.not_lt, h, h.not_gt⟩)
  · exact .inr (.inr ⟨h.asymm, h.ne', h⟩)

end Sys2Proof.Machine
end

section
/-! PROOFS. The sign wrapper's products, quotients (R163, R164) and comparisons (R165) of 43_sign_wrapper.md. -/

namespace Sys2Proof.Machine

/-- Settles O33: the magnitude results with their signs are the product, the truncated quotient and its remainder. -/
theorem signedMultiplyAndDivideOnMagnitudes : Obligations.SignedMultiplyAndDivideOnMagnitudes := by
  intro k A B hA _
  refine ⟨sMul_val_of_fits, sMul_mag k A B, sMul_neg k A B, sDiv_of_zero A, fun hB => ?_⟩
  have hdiv := sDiv_of_ne_zero A hB
  obtain ⟨⟨_, hquot⟩, _⟩ := sDiv_normalised hA hdiv
  exact ⟨_, _, hdiv, sDiv_quotient_val A B, hquot, rfl, rfl, sDiv_identity A B⟩

/-- Settles O34: both comparisons are those of the integers, and the integers are totally ordered. -/
theorem signedOrderIsTheOrderOfTheIntegers : Obligations.SignedOrderIsTheOrderOfTheIntegers :=
  fun A B hA hB => ⟨sLt_iff_val hA B, sEq_iff_val hA hB, sEq_iff A B, sLt_sEq_trichotomy hA hB⟩

end Sys2Proof.Machine
end

section
/-! SUPPORT. The two ends of a command, for every instruction and for any presented words (spec 60_exceptions.md R190, R193):
a fault, which touches the status alone, or completion. -/

namespace Sys2Proof.Machine

/-- A command that answers `o` in `s` has faulted or completed. -/
def State.FaultsOrCompletes (s : State) (o : Host.Outcome State Fault Refusal) : Prop :=
  (∃ f, o = .next (s.raise f)) ∨ ∃ b, o = .next (s.complete b)

/-- The first three ends of a command, in the order of R197, are faults; only the last writes the block. -/
theorem exec_faultsOrCompletes (i : Instr) (s : State) : s.FaultsOrCompletes (exec i s) := by
  obtain ⟨_, hexec, hcases⟩ := exec_cases i s
  rcases hcases with ⟨_, rfl⟩ | ⟨_, _, rfl⟩ | ⟨_, _, f, _, rfl⟩ | ⟨_, _, b, _, rfl⟩
  · exact .inl ⟨.illegalCommand, hexec⟩
  · exact .inl ⟨.operandAlias, hexec⟩
  · exact .inl ⟨f, hexec⟩
  · exact .inr ⟨b, hexec⟩

/-- Words that do not decode are a fault too, IllegalCommand (30_encoding.md R57). -/
theorem execute_faultsOrCompletes (s : State) (c : Command) : s.FaultsOrCompletes (s.execute c) := by
  cases hdec : decode c with
  | ok i =>
    rw [execute_of_decode hdec]
    exact exec_faultsOrCompletes i s
  | error e => exact .inl ⟨.illegalCommand, execute_of_error hdec⟩

/-- Of the two ends the fault keeps the block, and completion has status OK. -/
theorem State.FaultsOrCompletes.block_eq_of_status_ne_ok {s t : State} (h : s.FaultsOrCompletes (.next t))
    (hstatus : t.status ≠ some .ok) : t.block = s.block := by
  rcases h with ⟨f, hnext⟩ | ⟨b, hnext⟩ <;> cases hnext
  · exact raise_block s f
  · exact absurd (complete_status s b) hstatus

end Sys2Proof.Machine
end

section
/-! PROOFS. Faults (60_exceptions.md). -/

namespace Sys2Proof.Machine

/-- Settles O11: a command faults or completes, for an instruction and for any presented words, and a fault keeps the block. -/
theorem noPartialUpdate : Obligations.NoPartialUpdate := by
  refine ⟨fun i s t hexec hstatus => ?_, fun c s t hstep hstatus => ?_⟩
  · have hends := exec_faultsOrCompletes i s
    rw [hexec] at hends
    exact hends.block_eq_of_status_ne_ok hstatus
  · have hends := execute_faultsOrCompletes s c
    rw [← step_present, hstep] at hends
    exact hends.block_eq_of_status_ne_ok hstatus

end Sys2Proof.Machine
end

section
/-! SUPPORT. The encoding (spec 30_encoding.md sections 2 to 4): each operation's code, the fields an operation keeps of a
header, and the row of the opcode table as a header of fixed bits. -/

namespace Sys2Proof

/-! The code of an operation. -/

/-- The pair (op, S) that selects an operation (30_encoding.md R48, R49). -/
def Op.code : Op → BitVec 8 × BitVec 1
  | .adc64 => (0x01, 0)
  | .sbb64 => (0x02, 0)
  | .mulw64 => (0x03, 0)
  | .rcl64 => (0x04, 0)
  | .rcr64 => (0x05, 0)
  | .divw64 => (0x06, 0)
  | .add => (0x10, 0)
  | .sub => (0x11, 0)
  | .shl1 => (0x12, 0)
  | .shr1 => (0x13, 0)
  | .mulw => (0x14, 0)
  | .divmod => (0x15, 0)
  | .cmp => (0x16, 0)
  | .and => (0x17, 0)
  | .or => (0x18, 0)
  | .xor => (0x19, 0)
  | .shln => (0x1a, 0)
  | .shrn => (0x1b, 0)
  | .ldi => (0x20, 0)
  | .lds => (0x21, 0)
  | .lift => (0x22, 0)
  | .copy => (0x23, 0)
  | .lowb => (0x24, 0)
  | .sadd => (0x10, 1)
  | .ssub => (0x11, 1)
  | .sshl1 => (0x12, 1)
  | .sshr1 => (0x13, 1)
  | .smul => (0x14, 1)
  | .sdiv => (0x15, 1)
  | .scmp => (0x16, 1)
  | .sand => (0x17, 1)
  | .sor => (0x18, 1)
  | .sxor => (0x19, 1)
  | .sshln => (0x1a, 1)
  | .sshrn => (0x1b, 1)

theorem operation?_code (o : Op) : operation? o.code.1 o.code.2 = some o := by
  cases o <;> rfl

/-- Each place of the opcode table is the code of the operation that stands there. -/
theorem operation?_iff {op : BitVec 8} {s : BitVec 1} {o : Op} : operation? op s = some o ↔ op = o.code.1 ∧ s = o.code.2 := by
  constructor
  · intro h
    unfold operation? at h
    split at h <;> cases h <;> exact ⟨BitVec.eq_of_toNat_eq ‹_›, BitVec.eq_of_toNat_eq ‹_›⟩
  · rintro ⟨rfl, rfl⟩
    exact operation?_code o

/-! The fields of a header that an instruction is built from. -/

@[simp] theorem regBits_toFin (x : BitVec 3) : regBits x.toFin = x := rfl
@[simp] theorem levelBits_toFin (x : BitVec 5) : levelBits x.toFin = x := rfl

@[simp] theorem ofBool_beq_one (x : BitVec 1) : BitVec.ofBool (x == 1#1) = x := by
  rcases bit_cases x with rfl | rfl <;> rfl

theorem carrySel?_eq_some_iff {x : BitVec 2} {cs : CarrySel} : carrySel? x = some cs ↔ x = cs.bits := by
  constructor
  · rcases carryBits_cases x with rfl | rfl | rfl | rfl <;> intro h <;> cases h <;> rfl
  · rintro rfl
    exact carrySel?_bits cs

theorem withCarrySel_ok_iff {h : Header} {f : CarrySel → Instr} {i : Instr} :
    withCarrySel h f = .ok i ↔ ∃ cs, h.cs = cs.bits ∧ f cs = i := by
  cases hcs : carrySel? h.cs with
  | none => simp [withCarrySel, hcs, ← carrySel?_eq_some_iff]
  | some cs => simp [withCarrySel, hcs, ← carrySel?_eq_some_iff]

theorem withCarrySel_isOk_iff {h : Header} {f : CarrySel → Instr} :
    (∃ i, withCarrySel h f = .ok i) ↔ h.cs ≠ 3 := by
  simp only [withCarrySel_ok_iff]
  constructor
  · rintro ⟨_, cs, hcs, _⟩
    cases cs <;> rw [hcs] <;> decide
  · intro hne
    rcases carryBits_cases h.cs with hcs | hcs | hcs | hcs
    · exact ⟨_, .zero, hcs, rfl⟩
    · exact ⟨_, .one, hcs, rfl⟩
    · exact ⟨_, .cf, hcs, rfl⟩
    · exact absurd hcs hne

/-- The header with the code of an operation and, of `h`, the fields that operation uses. -/
def Header.keep (h : Header) (o : Op) : Header where
  op := o.code.1
  k := if o.uses.k then h.k else 0
  s := o.code.2
  cs := if o.uses.cs then h.cs else 0
  rd := h.rd
  rs := if o.uses.rs then h.rs else 0
  rt := if o.uses.rt then h.rt else 0
  sg := if o.uses.sg then h.sg else 0
  imm32 := if o.uses.imm32 then h.imm32 else 0

/-- What an operation builds is an instruction of that operation, with the fields of the header it uses. -/
theorem build_ok {o : Op} {h : Header} {p : List Word} {i : Instr} (hb : o.build h p = .ok i) :
    i.operation = o ∧ i.header = h.keep o := by
  cases o <;> simp only [Op.build, withCarrySel_ok_iff] at hb
  case adc64 | sbb64 | rcl64 | rcr64 | add | sub | shl1 | shr1 | sadd | ssub | sshl1 | sshr1 =>
    obtain ⟨cs, hcs, rfl⟩ := hb
    simp [Instr.operation, Instr.header, Header.keep, Op.code, Op.uses, hcs]
  all_goals
    cases hb
    simp [Instr.operation, Instr.header, Header.keep, Op.code, Op.uses]

/-- An LDI carries the payload it is built from, and no other instruction has one. -/
theorem build_payload {o : Op} {h : Header} {p : List Word} {i : Instr} (hb : o.build h p = .ok i) :
    i.payload = if o = .ldi then p else [] := by
  cases o <;> simp only [Op.build, withCarrySel_ok_iff] at hb
  case adc64 | sbb64 | rcl64 | rcr64 | add | sub | shl1 | shr1 | sadd | ssub | sshl1 | sshr1 =>
    obtain ⟨cs, _, rfl⟩ := hb
    rfl
  all_goals
    cases hb
    rfl

/-- Only the reserved carry select keeps an operation from building an instruction (30_encoding.md R52). -/
theorem build_isOk_iff (o : Op) (h : Header) (p : List Word) :
    (∃ i, o.build h p = .ok i) ↔ (o.uses.cs = true → h.cs ≠ 3) := by
  cases o
  case adc64 | sbb64 | rcl64 | rcr64 | add | sub | shl1 | shr1 | sadd | ssub | sshl1 | sshr1 =>
    simp [Op.build, Op.uses, withCarrySel_isOk_iff]
  all_goals simp [Op.build, Op.uses]

/-- The fields are the ones kept exactly when they carry the code and every unused one is zero. -/
theorem keep_eq_self_iff (h : Header) (o : Op) :
    h.keep o = h ↔ operation? h.op h.s = some o ∧ h.unusedAreZero o.uses = true := by
  have hunused : ∀ (u : Bool) {n : Nat} (x : BitVec n), (if u = true then x else 0) = x ↔ (u || x == 0) = true := by
    intro u n x
    cases u
    · rw [Bool.false_or, beq_iff_eq]
      exact eq_comm
    · simp
  obtain ⟨op, k, s, cs, rd, rs, rt, sg, zero, imm⟩ := h
  simp only [operation?_iff, Header.keep, Header.mk.injEq, Header.unusedAreZero, hunused, Bool.and_eq_true, beq_iff_eq,
    true_and]
  constructor
  · rintro ⟨hop, hk, hs, hcs, hrs, hrt, hsg, hzero, himm⟩
    exact ⟨⟨hop.symm, hs.symm⟩, ⟨⟨⟨⟨⟨hk, hcs⟩, hrs⟩, hrt⟩, hsg⟩, himm⟩, hzero.symm⟩
  · rintro ⟨⟨hop, hs⟩, ⟨⟨⟨⟨⟨hk, hcs⟩, hrs⟩, hrt⟩, hsg⟩, himm⟩, hzero⟩
    exact ⟨hop.symm, hk, hs.symm, hcs, hrs, hrt, hsg, hzero.symm, himm⟩

/-! The encoder and the decoder. -/

/-- The header the encoder writes is that of its operation's row, for every instruction. -/
theorem header_row (i : Instr) : Laws.HeaderRow.Statement i := by
  cases i <;> exact ⟨rfl, rfl⟩

/-- An instruction is built again from the fields it is written as. -/
theorem build_header (i : Instr) : i.operation.build i.header i.payload = .ok i := by
  cases i
  case adc64 cs _ _ | sbb64 cs _ _ | rcl64 cs _ | rcr64 cs _ | add _ cs _ _ | sub _ cs _ _ | shl1 _ cs _ | shr1 _ cs _ |
      sadd _ cs _ _ | ssub _ cs _ _ | sshl1 _ cs _ | sshr1 _ cs _ =>
    exact withCarrySel_ok_iff.mpr ⟨cs, rfl, rfl⟩
  case ldi _ _ sg _ => cases sg <;> rfl
  all_goals rfl

/-- An instruction is well-formed when its payload has the length its header gives it. -/
theorem wellFormed_iff (i : Instr) : i.wellFormed = true ↔ i.payload.length = i.operation.payloadLength i.header.k := by
  cases i
  case ldi k rd sg payload => exact beq_iff_eq
  all_goals exact ⟨fun _ => rfl, fun _ => rfl⟩

/-- A command decodes to the well-formed instruction whose encoding it is, and to no other. -/
theorem decode_ok_iff_encode (c : Command) (i : Instr) : decode c = .ok i ↔ i.wellFormed = true ∧ encode i = c := by
  obtain ⟨w, p⟩ := c
  rw [decode_ok_iff, wellFormed_iff]
  constructor
  · rintro ⟨o, hop, hunused, hlen, hbuild⟩
    obtain ⟨rfl, hheader⟩ := build_ok hbuild
    rw [(keep_eq_self_iff _ _).mpr ⟨hop, hunused⟩] at hheader
    have hpayload : i.payload = p := by
      rw [build_payload hbuild]
      split_ifs with ho
      · rfl
      · exact (List.eq_nil_of_length_eq_zero (by simpa [Op.payloadLength, ho] using hlen)).symm
    rw [hheader, hpayload]
    exact ⟨hlen, by simp [encode, hheader, hpayload, toWord_ofWord]⟩
  · rintro ⟨hlen, henc⟩
    obtain ⟨rfl, rfl⟩ := Command.mk.inj henc
    obtain ⟨hop, hunused⟩ := header_row i
    simp only [ofWord_toWord]
    exact ⟨i.operation, hop, hunused, hlen, build_header i⟩

/-! The opcode table. -/

/-- The bits that a row fixes, as a header of masks: the code, and every field the operation does not use. -/
def Op.maskHeader (o : Op) : Header where
  op := BitVec.allOnes 8
  k := if o.uses.k then 0 else BitVec.allOnes 5
  s := BitVec.allOnes 1
  cs := if o.uses.cs then 0 else BitVec.allOnes 2
  rd := 0
  rs := if o.uses.rs then 0 else BitVec.allOnes 3
  rt := if o.uses.rt then 0 else BitVec.allOnes 3
  sg := if o.uses.sg then 0 else BitVec.allOnes 1
  zero := BitVec.allOnes 6
  imm32 := if o.uses.imm32 then 0 else BitVec.allOnes 32

/-- The value of those bits: the code, and 0 elsewhere. -/
def Op.patternHeader (o : Op) : Header where
  op := o.code.1
  s := o.code.2

/-- The two headers masked field by field. -/
def Header.mask (h m : Header) : Header where
  op := h.op &&& m.op
  k := h.k &&& m.k
  s := h.s &&& m.s
  cs := h.cs &&& m.cs
  rd := h.rd &&& m.rd
  rs := h.rs &&& m.rs
  rt := h.rt &&& m.rt
  sg := h.sg &&& m.sg
  zero := h.zero &&& m.zero
  imm32 := h.imm32 &&& m.imm32

/-- Fields are masked one after the other, the most significant first. -/
theorem append_and_of_eq {n m : Nat} {x y z : BitVec n} (x' y' : BitVec m) (h : z = x &&& y) :
    z ++ (x' &&& y') = (x ++ x') &&& (y ++ y') := by
  rw [h, BitVec.and_append]

theorem toWord_mask (h m : Header) : (h.mask m).toWord = h.toWord &&& m.toWord := by
  iterate 9 refine append_and_of_eq _ _ ?_
  rfl

theorem toWord_injective : Function.Injective Header.toWord :=
  Function.LeftInverse.injective ofWord_toWord

/-- The masks and patterns of the table are those of its operations. -/
theorem opcodeTable_bits : ∀ row ∈ opcodeTable,
    row.mask = row.op.maskHeader.toWord ∧ row.pattern = row.op.patternHeader.toWord := by
  decide

theorem exists_row (o : Op) : ∃ row ∈ opcodeTable, row.op = o := by
  cases o <;> decide

/-- Masking leaves the pattern exactly when the header has the code and its unused fields are zero. -/
theorem mask_eq_pattern_iff (h : Header) (o : Op) :
    h.mask o.maskHeader = o.patternHeader ↔ operation? h.op h.s = some o ∧ h.unusedAreZero o.uses = true := by
  have hfield : ∀ (u : Bool) {n : Nat} (x : BitVec n),
      x &&& (if u = true then 0 else BitVec.allOnes n) = 0 ↔ (u || x == 0) = true := by
    intro u n x
    cases u <;> simp
  obtain ⟨op, k, s, cs, rd, rs, rt, sg, zero, imm⟩ := h
  simp only [operation?_iff, Header.mask, Op.maskHeader, Op.patternHeader, Header.mk.injEq, Header.unusedAreZero, hfield,
    Bool.and_eq_true, beq_iff_eq, BitVec.and_allOnes]
  constructor
  · rintro ⟨hop, hk, hs, hcs, _, hrs, hrt, hsg, hzero, himm⟩
    exact ⟨⟨hop, hs⟩, ⟨⟨⟨⟨⟨hk, hcs⟩, hrs⟩, hrt⟩, hsg⟩, himm⟩, hzero⟩
  · rintro ⟨⟨hop, hs⟩, ⟨⟨⟨⟨⟨hk, hcs⟩, hrs⟩, hrt⟩, hsg⟩, himm⟩, hzero⟩
    exact ⟨hop, hk, hs, hcs, BitVec.and_zero, hrs, hrt, hsg, hzero, himm⟩

/-- A row selects a word exactly when the word has the row's code and its unused fields are zero. -/
theorem selects_iff {row : TableRow} (hrow : row ∈ opcodeTable) (w : Word) :
    row.selects w = true ↔ operation? (Header.ofWord w).op (Header.ofWord w).s = some row.op ∧
      (Header.ofWord w).unusedAreZero row.op.uses = true := by
  obtain ⟨hmask, hpattern⟩ := opcodeTable_bits row hrow
  rw [← mask_eq_pattern_iff, ← toWord_injective.eq_iff, toWord_mask, toWord_ofWord, TableRow.selects, beq_iff_eq, hmask,
    hpattern]

/-! The flat list of words. -/

/-- The length of a command is known from the header its encoder writes (30_encoding.md R59). -/
theorem commandLength_encode (i : Instr) :
    commandLength (encode i).header = 1 + i.operation.payloadLength i.header.k := by
  simp only [commandLength, encode, ofWord_toWord]
  cases i <;> rfl

theorem length_words_encode {i : Instr} (hi : i.wellFormed = true) :
    (encode i).words.length = commandLength (encode i).header := by
  rw [commandLength_encode, ← (wellFormed_iff i).mp hi, Command.words, List.length_cons, Nat.add_comm]
  rfl

/-- The words of a command are cut off the front of the list. -/
theorem cutWords_words_append {i : Instr} (hi : i.wellFormed = true) (fuel : Nat) (ws : List Word) :
    cutWords (fuel + 1) ((encode i).words ++ ws) =
      (encode i :: (cutWords fuel ws).1, (cutWords fuel ws).2) := by
  have hlen : commandLength (encode i).header - 1 = (encode i).payload.length := by
    rw [commandLength_encode, ← (wellFormed_iff i).mp hi, Nat.add_sub_cancel_left]
    rfl
  simp [Command.words, cutWords, hlen]

/-- Enough fuel cuts a list of commands into all of them, one command for each unit of fuel. -/
theorem cutWords_flatMap {is : List Instr} (his : ∀ i ∈ is, i.wellFormed = true) {fuel : Nat}
    (hfuel : (is.flatMap fun i => (encode i).words).length ≤ fuel) :
    cutWords fuel (is.flatMap fun i => (encode i).words) = (is.map encode, []) := by
  induction is generalizing fuel with
  | nil => cases fuel <;> rfl
  | cons i is ih =>
    rw [List.forall_mem_cons] at his
    obtain ⟨hi, hrest⟩ := his
    rw [List.flatMap_cons, List.length_append, Command.words, List.length_cons] at hfuel
    obtain ⟨fuel, rfl⟩ : ∃ n, fuel = n + 1 := ⟨fuel - 1, by omega⟩
    rw [List.flatMap_cons, cutWords_words_append hi, ih hrest (by omega), List.map_cons]

end Sys2Proof
end

section
/-! PROOFS. The encoding (30_encoding.md). -/

namespace Sys2Proof

/-- Settles O6: the encoding of a well-formed instruction decodes to it, its header being that of its row. -/
theorem decodeOfEncodeIsTheInstruction : Obligations.DecodeOfEncodeIsTheInstruction :=
  fun i hi => (decode_ok_iff_encode (encode i) i).mpr ⟨hi, rfl⟩

/-- Settles O7: no bit of a decoded command lies outside the fields that its instruction keeps. -/
theorem encodeOfDecodeIsTheCommand : Obligations.EncodeOfDecodeIsTheCommand :=
  fun c i hdec => (decode_ok_iff_encode c i).mp hdec

/-- Settles O8: a row's mask and pattern are the decoder's conditions on code and unused fields, in one word. -/
theorem decodeFollowsTheOpcodeTable : Obligations.DecodeFollowsTheOpcodeTable := by
  refine fun c => ⟨⟨?_, ?_⟩, ?_⟩
  · rintro ⟨i, hdec⟩
    obtain ⟨o, hop, hunused, hlen, hbuild⟩ := (decode_ok_iff c i).mp hdec
    obtain ⟨row, hrow, rfl⟩ := exists_row o
    exact ⟨row, hrow, (selects_iff hrow _).mpr ⟨hop, hunused⟩, (build_isOk_iff _ _ _).mp ⟨i, hbuild⟩, hlen⟩
  · rintro ⟨row, hrow, hsel, hcs, hlen⟩
    obtain ⟨hop, hunused⟩ := (selects_iff hrow _).mp hsel
    obtain ⟨i, hbuild⟩ := (build_isOk_iff row.op (Header.ofWord c.header) c.payload).mpr hcs
    exact ⟨i, (decode_ok_iff c i).mpr ⟨row.op, hop, hunused, hlen, hbuild⟩⟩
  · intro i hdec row hrow hsel
    obtain ⟨o, hop, _, _, hbuild⟩ := (decode_ok_iff c i).mp hdec
    obtain ⟨hop', _⟩ := (selects_iff hrow _).mp hsel
    obtain ⟨rfl, _⟩ := build_ok hbuild
    exact Option.some.inj (hop.symm.trans hop')

/-- Settles O9: a command's length is in its header, so each command is cut off in turn, by induction on the list. -/
theorem flatWordListIsCutIntoCommands : Obligations.FlatWordListIsCutIntoCommands := by
  refine ⟨fun i hi => ⟨length_words_encode hi, ?_⟩, fun is his => cutWords_flatMap his le_rfl⟩
  rw [length_words_encode hi, commandLength_encode]
  cases i <;> rfl

/-- Settles O5: the eight rows of section 7, decoded. -/
theorem encodingExamplesDecode : Obligations.EncodingExamplesDecode := by
  unfold Obligations.EncodingExamplesDecode
  decide

end Sys2Proof
end

section
/-! SUPPORT. What every command may change (spec 30_encoding.md section 5), and what follows of a whole command: the frame of
each effect, and the reach of a view within its register. -/

namespace Sys2Proof.Machine

variable {b c : Block} {w : Nat} {regs signs : List Reg} {cf cmp : Bool}

theorem changesOnly_putWordCarry {rd : Reg} (r : Word × Bool) (hr : rd ∈ regs) :
    b.changesOnly (putWordCarry b rd r) 64 regs signs true cmp :=
  changesOnly_setCF (changesOnly_setWord changesOnly_refl r.1 hr) r.2

theorem changesOnly_putViewCarry {rd : Reg} (r : Nat × Bool) (hr : rd ∈ regs) :
    b.changesOnly (putViewCarry b w rd r) w regs signs true cmp :=
  changesOnly_setCF (changesOnly_setView changesOnly_refl r.1 hr) r.2

theorem changesOnly_putSignedCarry {rd : Reg} (r : Signed × Bool) (hr : rd ∈ regs) (hs : rd ∈ signs) :
    b.changesOnly (putSignedCarry b w rd r) w regs signs true cmp :=
  changesOnly_setCF (changesOnly_setSigned changesOnly_refl r.1 hr hs) r.2

/-- No bit is moved out only by a shift whose count is 0. -/
theorem shln_none_or_writesCF (k a : Nat) (imm : BitVec 32) : (lShln k a imm.toNat).2 = none ∨ (imm != 0) = true := by
  by_cases h : imm = 0
  · exact .inl (by simp [h, lShln])
  · exact .inr (by simpa using h)

theorem shrn_none_or_writesCF (k a : Nat) (imm : BitVec 32) : (lShrn k a imm.toNat).2 = none ∨ (imm != 0) = true := by
  by_cases h : imm = 0
  · exact .inl (by simp [h, lShrn])
  · exact .inr (by simpa using h)

/-- Every effect changes only what its row of the use table names. -/
theorem effectOf_changesOnly {i : Instr} {p : Params} (h : effectOf i p b = .ok c) :
    b.changesOnly c i.viewWidth i.regsWritten i.signsWritten i.writesCF i.writesCompare := by
  cases i
  case adc64 | sbb64 | rcl64 | rcr64 =>
    cases h
    exact changesOnly_putWordCarry _ (.head _)
  case mulw64 =>
    cases h
    exact changesOnly_setWord (changesOnly_setWord changesOnly_refl _ (.head _)) _ (.tail _ (.head _))
  case divw64 =>
    simp only [effectOf] at h
    split at h <;> cases h
    exact changesOnly_setWord (changesOnly_setWord changesOnly_refl _ (.head _)) _ (.tail _ (.head _))
  case add | sub | shl1 | shr1 =>
    cases h
    exact changesOnly_putViewCarry _ (.head _)
  case mulw =>
    cases h
    exact changesOnly_setView (changesOnly_setView changesOnly_refl _ (.head _)) _ (.tail _ (.head _))
  case divmod =>
    simp only [effectOf] at h
    split at h <;> cases h
    exact changesOnly_setView (changesOnly_setView changesOnly_refl _ (.head _)) _ (.tail _ (.head _))
  case cmp | scmp =>
    cases h
    exact changesOnly_setCompare changesOnly_refl _ _
  case and | or | xor =>
    cases h
    exact changesOnly_setView changesOnly_refl _ (.head _)
  case shln k rd imm =>
    cases h
    exact changesOnly_setShiftOut (changesOnly_setView changesOnly_refl _ (.head _)) (shln_none_or_writesCF k _ imm)
  case shrn k rd imm =>
    cases h
    exact changesOnly_setShiftOut (changesOnly_setView changesOnly_refl _ (.head _)) (shrn_none_or_writesCF k _ imm)
  case ldi | lds | lift | copy | lowb | smul | sand | sor | sxor =>
    cases h
    exact changesOnly_setSigned changesOnly_refl _ (.head _) (.head _)
  case sadd | ssub =>
    simp only [effectOf] at h
    split at h <;> cases h
    exact changesOnly_putSignedCarry _ (.head _) (.head _)
  case sshl1 | sshr1 =>
    cases h
    exact changesOnly_putSignedCarry _ (.head _) (.head _)
  case sdiv =>
    simp only [effectOf] at h
    split at h <;> cases h
    exact changesOnly_setSigned (changesOnly_setSigned changesOnly_refl _ (.head _) (.head _)) _ (.tail _ (.head _))
      (.tail _ (.head _))
  case sshln k rd imm =>
    cases h
    exact changesOnly_setShiftOut (changesOnly_setSigned changesOnly_refl _ (.head _) (.head _))
      (shln_none_or_writesCF k _ imm)
  case sshrn k rd imm =>
    cases h
    exact changesOnly_setShiftOut (changesOnly_setSigned changesOnly_refl _ (.head _) (.head _))
      (shrn_none_or_writesCF k _ imm)

/-- The four ends of a command are two: it keeps the block, or it is one the block has and has written its effect. -/
theorem exec_block_cases {i : Instr} {s t : State} (h : exec i s = .next t) :
    t.block = s.block ∨ i.onInstance s.params ∧ effectOf i s.params s.block = .ok t.block := by
  obtain ⟨u, hu, hcases⟩ := exec_cases i s
  obtain rfl : u = t := by simpa [hu] using h
  rcases hcases with ⟨_, rfl⟩ | ⟨_, _, rfl⟩ | ⟨_, _, f, _, rfl⟩ | ⟨hon, _, b, hb, rfl⟩
  · exact .inl rfl
  · exact .inl rfl
  · exact .inl rfl
  · exact .inr ⟨hon, hb⟩

theorem exec_changesOnly {i : Instr} {s t : State} (h : exec i s = .next t) :
    s.block.changesOnly t.block i.viewWidth i.regsWritten i.signsWritten i.writesCF i.writesCompare := by
  rcases exec_block_cases h with hkeep | ⟨_, heffect⟩
  · rw [hkeep]
    exact changesOnly_refl
  · exact effectOf_changesOnly heffect

/-- Either end of a command leaves the parameters and the host's moves as they were. -/
theorem State.FaultsOrCompletes.params_host_eq {s t : State} (h : s.FaultsOrCompletes (.next t)) :
    t.params = s.params ∧ t.host = s.host := by
  rcases h with ⟨f, hnext⟩ | ⟨b, hnext⟩ <;> cases hnext <;> exact ⟨rfl, rfl⟩

/-- The view of a command that the block has lies within the register. -/
theorem viewWidth_le {i : Instr} {p : Params} (h : i.onInstance p) : i.viewWidth ≤ width p.kmax := by
  obtain ⟨_, hlevel, _⟩ := h
  cases hk : i.level? with
  | none =>
    have := width_pos p.kmax
    simp only [Instr.viewWidth, hk]
    omega
  | some k =>
    simp only [Instr.viewWidth, hk]
    exact width_le (hlevel k hk)

/-- A number whose bits change only below a view within its width keeps its width. -/
theorem lt_two_pow_of_div_eq {u x y : Nat} (hw : w ≤ u) (h : y / 2 ^ w = x / 2 ^ w) (hx : x < 2 ^ u) : y < 2 ^ u := by
  obtain ⟨d, rfl⟩ := Nat.exists_eq_add_of_le hw
  rw [Nat.pow_add, Nat.mul_comm, ← Nat.div_lt_iff_lt_mul (Nat.two_pow_pos w)] at hx ⊢
  rwa [h]

theorem exec_fits {i : Instr} {s t : State} (hs : s.Inv) (h : exec i s = .next t) : t.block.fits s.params := by
  rcases exec_block_cases h with hkeep | ⟨hon, heffect⟩
  · rwa [hkeep]
  · obtain ⟨_, hupper, _⟩ := effectOf_changesOnly heffect
    exact fun r => lt_two_pow_of_div_eq (viewWidth_le hon) (hupper r) (hs r)

theorem reset_fits (p : Params) : Block.reset.fits p := by
  intro r
  rw [mag_reset]
  exact Nat.two_pow_pos _

/-- The invariant reaches over any presented words: undecodable ones write nothing. -/
theorem execute_fits {s t : State} {c : Command} (hs : s.Inv) (h : s.execute c = .next t) : t.block.fits s.params := by
  cases hdec : decode c with
  | ok i =>
    rw [execute_of_decode hdec] at h
    exact exec_fits hs h
  | error e =>
    rw [execute_of_error hdec] at h
    cases h
    exact hs

/-! Negative zeros. -/

/-- The sign wrapper and the data commands write the sign of every register they write. -/
theorem signsWritten_eq_regsWritten {i : Instr} (h : i.isSigned = true ∨ i.isData = true) :
    i.signsWritten = i.regsWritten := by
  cases i
  case ldi | lds | lift | copy | lowb | sadd | ssub | sshl1 | sshr1 | smul | sdiv | scmp | sand | sor | sxor | sshln |
      sshrn => rfl
  all_goals simp [Instr.isSigned, Instr.isData] at h

theorem effectOf_canonical {i : Instr} {p : Params} (hi : i.isSigned = true ∨ i.isData = true)
    (hwf : i.wellFormed = true) (hb : b.canonical) (h : effectOf i p b = .ok c) : c.canonical := by
  intro r hneg
  obtain ⟨hmag, _, hsign, _⟩ := effectOf_changesOnly h
  by_cases hr : r ∈ i.signsWritten
  · intro hzero
    have hview : c.view i.viewWidth r = 0 := by simp [Block.view, hzero]
    simp [effectOf_signNormalised hwf h hr hview] at hneg
  · rw [hsign r hr] at hneg
    rw [signsWritten_eq_regsWritten hi] at hr
    rw [hmag r hr]
    exact hb r hneg

end Sys2Proof.Machine
end

section
/-! PROOFS. Frames and invariants (30_encoding.md section 5, 10_state.md sections 1 to 4). -/

namespace Sys2Proof.Machine

/-- Settles O14: each effect is made of writes to what its row names, and a fault writes nothing. -/
theorem everyCommandKeepsItsFrame : Obligations.EveryCommandKeepsItsFrame := by
  intro i s t h
  have hends := exec_faultsOrCompletes i s
  rw [h] at hends
  exact ⟨exec_changesOnly h, hends.params_host_eq⟩

/-- Settles O15: a step idles, executes or resets; a command changes a register only below a view that lies within it. -/
theorem stepKeepsMagnitudesInWidth : Obligations.StepKeepsMagnitudesInWidth := by
  intro s t hs hstep
  rcases step_cases s with ⟨_, hidle⟩ | ⟨c, rest, _, hcommand⟩ | ⟨rest, _, hreset⟩
  · cases hidle.symm.trans hstep
    exact ⟨hs, rfl⟩
  · rw [hcommand] at hstep
    have hends := execute_faultsOrCompletes { s with host := rest } c
    rw [hstep] at hends
    have hparams : t.params = s.params := hends.params_host_eq.1
    refine ⟨?_, hparams⟩
    rw [State.Inv, hparams]
    exact execute_fits (s := { s with host := rest }) hs hstep
  · cases hreset.symm.trans hstep
    exact ⟨reset_fits s.params, rfl⟩

/-- Settles O16: zero fits every width. -/
theorem resetMagnitudesAreInWidth : Obligations.ResetMagnitudesAreInWidth := reset_fits _

/-- Settles O18: the signs written are normalised, and no magnitude is written without its sign. -/
theorem signedAndDataCommandsMakeNoNegativeZero : Obligations.SignedAndDataCommandsMakeNoNegativeZero := by
  intro i s t hi hs h
  rcases exec_block_cases h with hkeep | ⟨⟨hwf, _, _⟩, heffect⟩
  · rwa [hkeep]
  · exact effectOf_canonical hi hwf hs heffect

end Sys2Proof.Machine
end

section
/-! SUPPORT. Two runs side by side (spec 10_state.md R14, 42_level_commands.md R129, 00_scope.md R4): blocks that read alike but
for some signs, the commands that keep them alike, and a run under other parameters. -/

namespace Sys2Proof.Machine

/-- The blocks read alike in every magnitude, in the signs listed and in the flags. -/
structure Block.AlikeOn (b c : Block) (signs : List Reg) : Prop where
  mag : ∀ r, b.mag r = c.mag r
  neg : ∀ r ∈ signs, b.neg r = c.neg r
  cf : b.cf = c.cf
  eq : b.eq = c.eq
  lt : b.lt = c.lt

namespace Block.AlikeOn

variable {b c : Block} {signs : List Reg}

theorem nil (h : b.AlikeOn c signs) : b.AlikeOn c [] :=
  ⟨h.mag, fun _ hr => absurd hr List.not_mem_nil, h.cf, h.eq, h.lt⟩

/-! What such blocks read. -/

theorem view (h : b.AlikeOn c signs) (w : Nat) (r : Reg) : b.view w r = c.view w r := by
  rw [Block.view, Block.view, h.mag r]

theorem word (h : b.AlikeOn c signs) (r : Reg) : b.word r = c.word r := by
  rw [Block.word, Block.word, h.view 64 r]

theorem carryIn (h : b.AlikeOn c signs) (cs : CarrySel) : b.carryIn cs = c.carryIn cs := by
  cases cs
  case cf => exact h.cf
  all_goals rfl

/-- The effective sign is the stored one only over a view that is not zero (10_state.md R14). -/
theorem signed (h : b.AlikeOn c signs) {w : Nat} {r : Reg} (hn : b.view w r ≠ 0 → b.neg r = c.neg r) :
    b.signed w r = c.signed w r := by
  have hview := h.view w r
  by_cases hz : c.view w r = 0
  · simp [Block.signed, Block.effNeg, hview, hz]
  · rw [Block.signed, Block.signed, Block.effNeg, Block.effNeg, hview, hn (hview ▸ hz)]

/-! The same write to both. -/

theorem setView (h : b.AlikeOn c signs) (w : Nat) (r : Reg) (x : Nat) :
    (b.setView w r x).AlikeOn (c.setView w r x) signs := by
  refine ⟨fun q => ?_, h.neg, h.cf, h.eq, h.lt⟩
  rw [mag_setView, mag_setView, h.mag r, h.mag q]

theorem setWord (h : b.AlikeOn c signs) (r : Reg) (x : Word) : (b.setWord r x).AlikeOn (c.setWord r x) signs :=
  h.setView 64 r x.toNat

/-- A signed write makes one more sign alike. -/
theorem setSigned (h : b.AlikeOn c signs) (w : Nat) (r : Reg) (x : Signed) :
    (b.setSigned w r x).AlikeOn (c.setSigned w r x) (signs ++ [r]) := by
  refine ⟨(h.setView w r x.mag).mag, fun q hq => ?_, h.cf, h.eq, h.lt⟩
  by_cases hrq : r = q
  · simp [hrq]
  · have hq' : q ∈ signs := by simpa [Ne.symm hrq] using hq
    simp [hrq, h.neg q hq']

theorem setCF (h : b.AlikeOn c signs) (x : Bool) : (b.setCF x).AlikeOn (c.setCF x) signs :=
  ⟨h.mag, h.neg, rfl, h.eq, h.lt⟩

theorem setCompare (h : b.AlikeOn c signs) (e l : Bool) : (b.setCompare e l).AlikeOn (c.setCompare e l) signs :=
  ⟨h.mag, h.neg, h.cf, rfl, rfl⟩

theorem setShiftOut (h : b.AlikeOn c signs) (x : Option Bool) :
    (b.setShiftOut x).AlikeOn (c.setShiftOut x) signs := by
  cases x with
  | none => exact h
  | some y => exact h.setCF y

end Block.AlikeOn

/-- Two effects end alike: in the same fault, or in blocks alike on the signs listed. -/
def EffectsAlike (signs : List Reg) : Except CommandFault Block → Except CommandFault Block → Prop
  | .ok b, .ok c => b.AlikeOn c signs
  | .error f, .error g => f = g
  | .ok _, .error _ => False
  | .error _, .ok _ => False

/-- Alike blocks, with alike signed operands where the command has S = 1, have alike effects on the signs it writes. -/
theorem effectOf_alike {i : Instr} {b c : Block} (p : Params) (hdata : i.isData = false) (h : b.AlikeOn c [])
    (hsigned : i.isSigned = true → ∀ r, b.signed i.viewWidth r = c.signed i.viewWidth r) :
    EffectsAlike i.signsWritten (effectOf i p b) (effectOf i p c) := by
  cases i
  case ldi | lds | lift | copy | lowb => simp [Instr.isData] at hdata
  case adc64 | sbb64 | rcl64 | rcr64 =>
    simp only [effectOf, putWordCarry, h.word, h.carryIn]
    exact (h.setWord _ _).setCF _
  case mulw64 =>
    simp only [effectOf, h.word]
    exact (h.setWord _ _).setWord _ _
  case divw64 rd rs rt =>
    simp only [effectOf, h.word]
    cases divw64 (c.word rt) (c.word rd) (c.word rs) with
    | error f => exact rfl
    | ok r => exact (h.setWord rd r.1).setWord rt r.2
  case add | sub | shl1 | shr1 =>
    simp only [effectOf, putViewCarry, h.view, h.carryIn]
    exact (h.setView _ _ _).setCF _
  case mulw =>
    simp only [effectOf, h.view]
    exact (h.setView _ _ _).setView _ _ _
  case divmod k rd rs rt =>
    simp only [effectOf, h.view]
    cases lDivmod (c.view (width k) rd) (c.view (width k) rs) with
    | error f => exact rfl
    | ok r => exact (h.setView _ rd r.1).setView _ rt r.2
  case cmp =>
    simp only [effectOf, h.view]
    exact h.setCompare _ _
  case and | or | xor =>
    simp only [effectOf, h.view]
    exact h.setView _ _ _
  case shln | shrn =>
    simp only [effectOf, h.view]
    exact (h.setView _ _ _).setShiftOut _
  case sadd k cs rd rs =>
    have hs : b.signed (width k) = c.signed (width k) := funext (hsigned rfl)
    simp only [effectOf, putSignedCarry, hs, h.carryIn]
    cases sAdd k (c.signed (width k) rd) (c.signed (width k) rs) (c.carryIn cs) with
    | error f => exact rfl
    | ok r => exact (h.setSigned _ rd r.1).setCF r.2
  case ssub k cs rd rs =>
    have hs : b.signed (width k) = c.signed (width k) := funext (hsigned rfl)
    simp only [effectOf, putSignedCarry, hs, h.carryIn]
    cases sSub p.ssubMode k (c.signed (width k) rd) (c.signed (width k) rs) (c.carryIn cs) with
    | error f => exact rfl
    | ok r => exact (h.setSigned _ rd r.1).setCF r.2
  case sdiv k rd rs rt =>
    have hs : b.signed (width k) = c.signed (width k) := funext (hsigned rfl)
    simp only [effectOf, hs]
    cases sDiv (c.signed (width k) rd) (c.signed (width k) rs) with
    | error f => exact rfl
    | ok r => exact (h.setSigned _ rd r.1).setSigned _ rt r.2
  case sshl1 k _ _ | sshr1 k _ _ =>
    have hs : b.signed (width k) = c.signed (width k) := funext (hsigned rfl)
    simp only [effectOf, putSignedCarry, hs, h.carryIn]
    exact (h.setSigned _ _ _).setCF _
  case scmp k _ _ =>
    have hs : b.signed (width k) = c.signed (width k) := funext (hsigned rfl)
    simp only [effectOf, hs]
    exact h.setCompare _ _
  case smul k _ _ | sand k _ _ | sor k _ _ | sxor k _ _ =>
    have hs : b.signed (width k) = c.signed (width k) := funext (hsigned rfl)
    simp only [effectOf, hs]
    exact h.setSigned _ _ _
  case sshln k _ _ | sshrn k _ _ =>
    have hs : b.signed (width k) = c.signed (width k) := funext (hsigned rfl)
    simp only [effectOf, hs]
    exact (h.setSigned _ _ _).setShiftOut _

/-- Two runs of one command whose effects are alike answer the same status and leave alike blocks. -/
theorem perform_alike {s s' t t' : State} {legal : Bool} {fields : List Field} {signs : List Reg}
    {body body' : Block → Except CommandFault Block} (h : s.block.AlikeOn s'.block [])
    (hbody : EffectsAlike signs (body s.block) (body' s'.block)) (ht : perform s legal fields body = .next t)
    (ht' : perform s' legal fields body' = .next t') :
    t.status = t'.status ∧ t.block.AlikeOn t'.block [] ∧ (t.status = some .ok → t.block.AlikeOn t'.block signs) := by
  cases hl : legal with
  | false =>
    cases (perform_illegal fields body hl).symm.trans ht
    cases (perform_illegal fields body' hl).symm.trans ht'
    exact ⟨rfl, h, fun hok => by cases hok⟩
  | true =>
    cases ha : aliasClash fields with
    | true =>
      cases (perform_alias body hl ha).symm.trans ht
      cases (perform_alias body' hl ha).symm.trans ht'
      exact ⟨rfl, h, fun hok => by cases hok⟩
    | false =>
      cases hb : body s.block with
      | error f =>
        cases hb' : body' s'.block with
        | error g =>
          rw [hb, hb'] at hbody
          cases (perform_fault hl ha hb).symm.trans ht
          cases (perform_fault hl ha hb').symm.trans ht'
          exact ⟨congrArg (some ∘ Status.fault) hbody, h, fun hok => by cases hok⟩
        | ok c =>
          rw [hb, hb'] at hbody
          exact hbody.elim
      | ok b =>
        cases hb' : body' s'.block with
        | error g =>
          rw [hb, hb'] at hbody
          exact hbody.elim
        | ok c =>
          rw [hb, hb'] at hbody
          cases (perform_ok hl ha hb).symm.trans ht
          cases (perform_ok hl ha hb').symm.trans ht'
          exact ⟨rfl, hbody.nil, fun _ => hbody⟩

theorem exec_alike {i : Instr} {s s' t t' : State} (hdata : i.isData = false) (h : s.block.AlikeOn s'.block [])
    (hsigned : i.isSigned = true → ∀ r, s.block.signed i.viewWidth r = s'.block.signed i.viewWidth r)
    (hparams : s.params = s'.params) (ht : exec i s = .next t) (ht' : exec i s' = .next t') :
    t.status = t'.status ∧ t.block.AlikeOn t'.block [] ∧
      (t.status = some .ok → t.block.AlikeOn t'.block i.signsWritten) := by
  rw [exec_eq_perform] at ht ht'
  rw [← hparams] at ht'
  exact perform_alike h (effectOf_alike s.params hdata h hsigned) ht ht'

theorem isData_eq_false_of_isSigned {i : Instr} (h : i.isSigned = true) : i.isData = false := by
  cases i
  case ldi | lds | lift | copy | lowb => simp [Instr.isSigned] at h
  all_goals rfl

theorem signsWritten_eq_nil {i : Instr} (hsigned : i.isSigned = false) (hdata : i.isData = false) :
    i.signsWritten = [] := by
  cases i
  case adc64 | sbb64 | mulw64 | rcl64 | rcr64 | divw64 | add | sub | shl1 | shr1 | mulw | divmod | cmp | and | or | xor |
      shln | shrn => rfl
  all_goals simp [Instr.isSigned, Instr.isData] at hsigned hdata

/-! Another top level. -/

/-- The parameters with another top level. -/
def paramsWithKmax (p : Params) (m : Nat) : Params := { p with kmax := m }

/-- An effect reads no parameter but SSUB_MODE. -/
theorem effectOf_paramsWithKmax (i : Instr) (p : Params) (m : Nat) : effectOf i (paramsWithKmax p m) = effectOf i p := by
  cases i <;> rfl

theorem legalOf_paramsWithKmax {i : Instr} {p : Params} {m : Nat} (h : ∀ k, i.level? = some k → k.val ≤ p.kmax ∧ k.val ≤ m) :
    legalOf i (paramsWithKmax p m) = legalOf i p := by
  rw [Bool.eq_iff_iff, legalOf_iff, legalOf_iff]
  have hold : ∀ k, i.level? = some k → k.val ≤ p.kmax := fun k hk => (h k hk).1
  have hnew : ∀ k, i.level? = some k → k.val ≤ (paramsWithKmax p m).kmax := fun k hk => (h k hk).2
  exact ⟨fun ⟨hwf, _, hdiv⟩ => ⟨hwf, hold, hdiv⟩, fun ⟨hwf, _, hdiv⟩ => ⟨hwf, hnew, hdiv⟩⟩

/-- A run carries its parameters along. -/
theorem perform_withParams {s t : State} {legal : Bool} {fields : List Field} {body : Block → Except CommandFault Block}
    (p : Params) (h : perform s legal fields body = .next t) :
    perform { s with params := p } legal fields body = .next { t with params := p } := by
  obtain ⟨u, hu, hcases⟩ := perform_cases s legal fields body
  cases hu.symm.trans h
  rcases hcases with ⟨hl, rfl⟩ | ⟨hl, ha, rfl⟩ | ⟨hl, ha, f, hf, rfl⟩ | ⟨hl, ha, b, hb, rfl⟩
  · exact perform_illegal fields body hl
  · exact perform_alias body hl ha
  · exact perform_fault (s := { s with params := p }) hl ha hf
  · exact perform_ok (s := { s with params := p }) hl ha hb

end Sys2Proof.Machine
end

section
/-! PROOFS. What commands do not depend on (10_state.md R14, 42_level_commands.md R129, 00_scope.md R4). -/

namespace Sys2Proof.Machine

/-- Settles O19: over alike magnitudes the signed operands are alike, stale signs aside, and so are the effects. -/
theorem signedCommandsReadTheEffectiveSign : Obligations.SignedCommandsReadTheEffectiveSign := by
  intro i s s' t t' hi hmag hneg hcf heq hlt hparams ht ht'
  have halike : s.block.AlikeOn s'.block [] := ⟨hmag, fun _ hr => absurd hr List.not_mem_nil, hcf, heq, hlt⟩
  obtain ⟨hstatus, hblock, hsigns⟩ := exec_alike (isData_eq_false_of_isSigned hi) halike
    (fun _ r => halike.signed (hneg r)) hparams ht ht'
  exact ⟨hstatus, hblock.mag, fun hok => (hsigns hok).neg, hblock.cf, hblock.eq, hblock.lt⟩

/-- Settles O20: these commands have no signed operand, and no sign in their frame. -/
theorem unsignedCommandsIgnoreSigns : Obligations.UnsignedCommandsIgnoreSigns := by
  intro i s s' t t' hsigned hdata hmag hcf heq hlt hparams ht ht'
  obtain ⟨hstatus, hblock, _⟩ := exec_alike hdata ⟨hmag, fun _ hr => absurd hr List.not_mem_nil, hcf, heq, hlt⟩
    (fun h => by simp [hsigned] at h) hparams ht ht'
  obtain ⟨_, _, hneg, _⟩ := exec_changesOnly ht
  rw [signsWritten_eq_nil hsigned hdata] at hneg
  exact ⟨hstatus, hblock.mag, fun r => hneg r List.not_mem_nil, hblock.cf, hblock.eq, hblock.lt⟩

/-- Settles O21: legality on both instances is the same, and no effect reads KMAX. -/
theorem kmaxOnlyDecidesWhichLevelsExist : Obligations.KmaxOnlyDecidesWhichLevelsExist := by
  intro i s t m hlevel h
  rw [exec_eq_perform] at h ⊢
  have hrun := perform_withParams (paramsWithKmax s.params m) h
  have hlegal := legalOf_paramsWithKmax hlevel
  have hparams : t.params = s.params := by
    have hends := exec_faultsOrCompletes i s
    rw [exec_eq_perform, h] at hends
    exact hends.params_host_eq.1
  rw [← effectOf_paramsWithKmax i s.params m, ← hlegal] at hrun
  exact hrun

end Sys2Proof.Machine
end

section
/-! SUPPORT. One presented command, in terms of its two ends (spec 60_exceptions.md section 4). -/

namespace Sys2Proof.Machine

theorem step_of_command {s : State} {c : Command} {rest : List Move} (h : s.host = .command c :: rest) :
    step s = ({ s with host := rest } : State).execute c := by
  simp [step, takeMove_cons h]

/-- A reset gives the reset state, whether or not a command is in flight (70_reset_and_hazards.md R215). -/
theorem step_of_reset {s : State} {c : Command} {rest : List Move}
    (h : s.host = .reset :: rest ∨ s.host = .resetDuring c :: rest) :
    step s = .next ({ s with host := rest } : State).applyReset := by
  rcases h with h | h <;> simp [step, takeMove_cons h]

/-- No command reads the status answered before it. -/
theorem execute_raise (s : State) (f : CommandFault) (c : Command) : (s.raise f).execute c = s.execute c := by
  cases hdec : decode c with
  | error e =>
    rw [execute_of_error hdec, execute_of_error hdec]
    rfl
  | ok i =>
    rw [execute_of_decode hdec, execute_of_decode hdec, exec_eq_perform, exec_eq_perform]
    rfl

/-- A fault status is left by a fault, which is all that happened. -/
theorem State.FaultsOrCompletes.eq_raise {s t : State} {f : CommandFault} (h : s.FaultsOrCompletes (.next t))
    (hstatus : t.status = some (.fault f)) : t = s.raise f := by
  rcases h with ⟨g, hnext⟩ | ⟨b, hnext⟩ <;> cases hnext <;> cases hstatus
  rfl

theorem exists_step_present (s : State) (c : Command) : ∃ t, step (s.present c) = .next t := by
  rcases execute_faultsOrCompletes s c with ⟨f, h⟩ | ⟨b, h⟩
  · exact ⟨_, h⟩
  · exact ⟨_, h⟩

/-! Runs. -/

theorem runCommands_cons_stop {c : Command} {s t : State} (h : step (s.present c) = .next t)
    (hstatus : t.status ≠ some .ok) (cs : List Command) : runCommands (c :: cs) s = t := by
  simp [runCommands, h, hstatus]

theorem runCommands_cons_ok {c : Command} {s t : State} (h : step (s.present c) = .next t)
    (hstatus : t.status = some .ok) (cs : List Command) : runCommands (c :: cs) s = runCommands cs t := by
  simp [runCommands, h, hstatus]

/-- A run that was stopped is not continued. -/
theorem runCommands_append_of_stopped {cs : List Command} {s : State} (hcs : cs ≠ [])
    (h : (runCommands cs s).status ≠ some .ok) (ds : List Command) : runCommands (cs ++ ds) s = runCommands cs s := by
  induction cs generalizing s with
  | nil => exact absurd rfl hcs
  | cons c cs ih =>
    obtain ⟨t, ht⟩ := exists_step_present s c
    by_cases hok : t.status = some .ok
    · rw [runCommands_cons_ok ht hok] at h
      rw [List.cons_append, runCommands_cons_ok ht hok, runCommands_cons_ok ht hok]
      refine ih ?_ h
      rintro rfl
      exact h hok
    · rw [List.cons_append, runCommands_cons_stop ht hok, runCommands_cons_stop ht hok]

/-- A run that ended with OK is continued from where it ended. -/
theorem runCommands_append_of_ok {cs : List Command} {s : State} (h : (runCommands cs s).status = some .ok)
    (ds : List Command) : runCommands (cs ++ ds) s = runCommands ds (runCommands cs s) := by
  induction cs generalizing s with
  | nil => rfl
  | cons c cs ih =>
    obtain ⟨t, ht⟩ := exists_step_present s c
    by_cases hok : t.status = some .ok
    · rw [runCommands_cons_ok ht hok] at h
      rw [List.cons_append, runCommands_cons_ok ht hok, runCommands_cons_ok ht hok, ih h]
    · rw [runCommands_cons_stop ht hok] at h
      exact absurd h hok

end Sys2Proof.Machine
end

section
/-! PROOFS. The step, reset, the fault priority and runs (30_encoding.md section 1, 60_exceptions.md,
70_reset_and_hazards.md). -/

namespace Sys2Proof.Machine

/-- Settles O1: the host's move is taken and the decoded command executed. -/
theorem stepRunsTheDecodedCommand : Obligations.StepRunsTheDecodedCommand := by
  intro s c rest i hhost hdec
  rw [step_of_command hhost, execute_of_decode hdec]

/-- Settles O2: both ends of a command answer a status, and undecodable words end in IllegalCommand. -/
theorem everyPresentedCommandIsAnswered : Obligations.EveryPresentedCommandIsAnswered := by
  intro s c rest hhost
  rw [step_of_command hhost]
  cases hdec : decode c with
  | error e => exact ⟨_, execute_of_error hdec, ⟨_, rfl⟩, rfl, rfl, fun _ => ⟨rfl, rfl⟩⟩
  | ok i =>
    rcases execute_faultsOrCompletes { s with host := rest } c with ⟨f, h⟩ | ⟨b, h⟩
    · exact ⟨_, h, ⟨_, rfl⟩, rfl, rfl, fun hundec => absurd rfl (hundec i)⟩
    · exact ⟨_, h, ⟨_, rfl⟩, rfl, rfl, fun hundec => absurd rfl (hundec i)⟩

/-- Settles O3: both reset moves apply the reset and nothing else. -/
theorem resetMoveResetsTheBlock : Obligations.ResetMoveResetsTheBlock := fun _ _ _ hhost =>
  ⟨_, step_of_reset hhost, fun r => ⟨mag_reset r, neg_reset r⟩, rfl, rfl, rfl, rfl, rfl, rfl⟩

/-- Settles O10: the four ends of a command exclude each other, and an effect fails with the operation's own fault. -/
theorem statusFollowsThePriority : Obligations.StatusFollowsThePriority := by
  intro i s
  obtain ⟨t, ht, hcases⟩ := exec_cases i s
  refine ⟨t, ht, ?_⟩
  rcases hcases with ⟨hoff, rfl⟩ | ⟨hon, halias, rfl⟩ | ⟨hon, halias, f, hf, rfl⟩ | ⟨hon, halias, b, hb, rfl⟩
  · exact ⟨fun _ => rfl, fun hon => absurd hon hoff, fun hon => absurd hon hoff, fun hon => absurd hon hoff⟩
  · exact ⟨fun hoff => absurd hon hoff, fun _ _ => rfl, fun _ hno => absurd halias hno, fun _ hno => absurd halias hno⟩
  · have hown := (effectOf_error_iff ..).mp hf
    refine ⟨fun hoff => absurd hon hoff, fun _ hyes => absurd hyes halias, fun _ _ g hg => ?_, fun _ _ hnone => ?_⟩
    · cases hown.symm.trans hg
      rfl
    · cases hown.symm.trans hnone
  · refine ⟨fun hoff => absurd hon hoff, fun _ hyes => absurd hyes halias, fun _ _ g hg => ?_, fun _ _ _ => rfl⟩
    cases hb.symm.trans ((effectOf_error_iff i s.params s.block g).mpr hg)

/-- Settles O12: a fault leaves the status alone, which the next command does not read. -/
theorem afterAFaultTheBlockIsReady : Obligations.AfterAFaultTheBlockIsReady := by
  intro s t u v c d f ht hstatus hu hv
  have hends := execute_faultsOrCompletes s c
  rw [← step_present, ht] at hends
  rw [hends.eq_raise hstatus, step_present, execute_raise, ← step_present, hv] at hu
  cases hu
  rfl

/-- Settles O13: one command at a time, then by induction on the commands of the first part. -/
theorem runStopsAtTheFirstFault : Obligations.RunStopsAtTheFirstFault :=
  ⟨fun _ => rfl,
    fun _ cs _ _ h => ⟨fun hstatus => runCommands_cons_stop h hstatus cs, fun hstatus => runCommands_cons_ok h hstatus cs⟩,
    fun _ ds _ => ⟨fun h hcs => runCommands_append_of_stopped hcs h ds, fun h => runCommands_append_of_ok h ds⟩⟩

end Sys2Proof.Machine
end

section
/-! SUPPORT. Digits with a carry (spec 40_word_primitives.md part 1, 41_level_functions.md sections 1 to 3): what it is for a
result of one digit and one bit to be the exact sum, difference or half, that there is only one such result, and that two
threaded digits are one digit of the squared base. -/

namespace Sys2Proof.Machine

/-! One digit of base `m` and one bit. -/

/-- `r` is `a + b + c` as a digit and a carry out. -/
def SumsTo (m a b : Nat) (c : Bool) (r : Nat × Bool) : Prop :=
  r.1 < m ∧ a + b + c.toNat = r.2.toNat * m + r.1

/-- `r` is `a − b − c` as a digit and a borrow out. -/
def DiffersBy (m a b : Nat) (c : Bool) (r : Nat × Bool) : Prop :=
  r.1 < m ∧ a + r.2.toNat * m = b + c.toNat + r.1

/-- `r` is the half of `a` under the leading bit `c`, as a digit and a remainder. -/
def HalvesTo (m a : Nat) (c : Bool) (r : Nat × Bool) : Prop :=
  r.1 < m ∧ a + c.toNat * m = 2 * r.1 + r.2.toNat

section
variable {m a b a' : Nat} {c : Bool} {r t u l : Nat × Bool}

theorem digit_bit_unique {x y : Nat} {p q : Bool} (hx : x < m) (hy : y < m) (h : p.toNat * m + x = q.toNat * m + y) :
    x = y ∧ p = q := by
  cases p <;> cases q <;> simp at h ⊢ <;> omega

theorem SumsTo.unique (hr : SumsTo m a b c r) (ht : SumsTo m a b c t) : r = t := by
  obtain ⟨hrlt, hr⟩ := hr
  obtain ⟨htlt, ht⟩ := ht
  obtain ⟨hdigit, hbit⟩ := digit_bit_unique hrlt htlt (hr.symm.trans ht)
  exact Prod.ext hdigit hbit

theorem DiffersBy.unique (hr : DiffersBy m a b c r) (ht : DiffersBy m a b c t) : r = t := by
  obtain ⟨hrlt, hr⟩ := hr
  obtain ⟨htlt, ht⟩ := ht
  obtain ⟨hdigit, hbit⟩ := digit_bit_unique htlt hrlt (show r.2.toNat * m + t.1 = t.2.toNat * m + r.1 by omega)
  exact Prod.ext hdigit.symm hbit

theorem HalvesTo.unique (hr : HalvesTo m a c r) (ht : HalvesTo m a c t) : r = t := by
  obtain ⟨_, hr⟩ := hr
  obtain ⟨_, ht⟩ := ht
  have hrbit := toNat_le_one r.2
  have htbit := toNat_le_one t.2
  exact Prod.ext (by omega) (digit_bit_unique (x := 0) (y := 0) one_pos one_pos (by omega)).2

/-- A digit of base `m` over one of base `n` is one digit of base `m * n`. -/
theorem two_digits_lt {n x y : Nat} (hx : x < m) (hy : y < n) : x * n + y < m * n :=
  calc x * n + y < x * n + n := Nat.add_lt_add_left hy _
    _ = (x + 1) * n := (Nat.succ_mul x n).symm
    _ ≤ m * n := Nat.mul_le_mul_right n hx

/-- A relation of two digits and a bit to a digit and a bit goes over to double digits, the bit threaded upwards. -/
def ThreadsUp (P : Nat → Nat → Nat → Bool → Nat × Bool → Prop) : Prop :=
  ∀ ⦃m a b a' b' : Nat⦄ ⦃c : Bool⦄ ⦃l u : Nat × Bool⦄, P m a b c l → P m a' b' l.2 u →
    P (m * m) (a' * m + a) (b' * m + b) c (u.1 * m + l.1, u.2)

/-- The carry of the low digits goes into the high ones (41_level_functions.md R92). -/
theorem SumsTo.threadsUp : ThreadsUp SumsTo := by
  rintro m a b a' b' c l u ⟨hllt, hl⟩ ⟨hult, hu⟩
  refine ⟨two_digits_lt hult hllt, ?_⟩
  linear_combination hl + m * hu

/-- The borrow of the low digits goes into the high ones (41_level_functions.md R93). -/
theorem DiffersBy.threadsUp : ThreadsUp DiffersBy := by
  rintro m a b a' b' c l u ⟨hllt, hl⟩ ⟨hult, hu⟩
  refine ⟨two_digits_lt hult hllt, ?_⟩
  linear_combination hl + m * hu

/-- The bit that the high digit moves out goes into the low one (41_level_functions.md R95). -/
theorem HalvesTo.thread (hu : HalvesTo m a' c u) (hl : HalvesTo m a u.2 l) :
    HalvesTo (m * m) (a' * m + a) c (u.1 * m + l.1, l.2) := by
  obtain ⟨hu1, hu⟩ := hu
  obtain ⟨hl1, hl⟩ := hl
  refine ⟨two_digits_lt hu1 hl1, ?_⟩
  linear_combination hl + m * hu

end

/-! The contracts are exact. -/

theorem two_pow_width_succ (k : Nat) : 2 ^ width (k + 1) = 2 ^ width k * 2 ^ width k := by
  rw [width_half (k + 1), halfWidth_succ, two_mul, Nat.pow_add]

theorem two_pow_width_zero : 2 ^ width 0 = 2 ^ 64 * 2 ^ 64 := by
  rw [← Nat.pow_add]
  rfl

/-- The width of a level is one more than the place of its top bit. -/
theorem two_pow_width_eq (k : Nat) : 2 ^ width k = 2 * 2 ^ (width k - 1) := by
  rw [← Nat.pow_succ', Nat.succ_eq_add_one, Nat.sub_add_cancel (by have := width_pos k; omega)]

theorem lAdd_sumsTo {k a b : Nat} (ha : a < 2 ^ width k) (hb : b < 2 ^ width k) (c : Bool) :
    SumsTo (2 ^ width k) a b c (lAdd k a b c) := by
  refine ⟨lAdd_lt k a b c, ?_⟩
  have hc := toNat_le_one c
  simp only [lAdd]
  by_cases h : 2 ^ width k ≤ a + b + c.toNat
  · rw [Nat.mod_eq_sub_mod h, Nat.mod_eq_of_lt (by omega), decide_eq_true h, Bool.toNat_true]
    omega
  · rw [Nat.mod_eq_of_lt (by omega), decide_eq_false h, Bool.toNat_false]
    omega

/-- The difference of a level is the digit of an integer above −2^W (41_level_functions.md R93). -/
theorem lSub_differsBy {k a b : Nat} (ha : a < 2 ^ width k) (hb : b < 2 ^ width k) (c : Bool) :
    DiffersBy (2 ^ width k) a b c (lSub k a b c) := by
  refine ⟨lSub_lt k a b c, ?_⟩
  have hc := toNat_le_one c
  have hcast : ((2 ^ width k : Nat) : Int) = 2 ^ width k := by push_cast; rfl
  have hval := lSub_eq k a b c
  rw [← hcast] at hval
  by_cases h : (a : Int) - b - c.toNat < 0
  · rw [← Int.add_emod_right, Int.emod_eq_of_lt (by omega) (by omega)] at hval
    simp only [lSub, decide_eq_true h, Bool.toNat_true] at hval ⊢
    omega
  · rw [Int.emod_eq_of_lt (by omega) (by omega)] at hval
    simp only [lSub, decide_eq_false h, Bool.toNat_false] at hval ⊢
    omega

/-- A single left shift is a doubling with carry. -/
theorem lShl1_sumsTo {k a : Nat} (ha : a < 2 ^ width k) (c : Bool) : SumsTo (2 ^ width k) a a c (lShl1 k a c) := by
  refine ⟨lShl1_lt k a c, ?_⟩
  have htop := two_pow_width_eq k
  have hbit : (2 * a) / 2 ^ width k = (a.testBit (width k - 1)).toNat := by
    rw [htop, Nat.mul_div_mul_left _ _ two_pos, Nat.toNat_testBit,
      Nat.mod_eq_of_lt ((Nat.div_lt_iff_lt_mul (Nat.two_pow_pos _)).mpr (htop ▸ ha))]
  have hsplit := Nat.div_add_mod' (2 * a) (2 ^ width k)
  rw [hbit] at hsplit
  simp only [lShl1]
  omega

theorem lShr1_halvesTo {k a : Nat} (ha : a < 2 ^ width k) (c : Bool) : HalvesTo (2 ^ width k) a c (lShr1 k a c) := by
  refine ⟨lShr1_lt k c ha, ?_⟩
  have hsplit := Nat.div_add_mod a 2
  simp only [lShr1, Nat.toNat_testBit, Nat.pow_zero, Nat.div_one]
  rw [two_pow_width_eq k]
  linear_combination -hsplit

/-! The word primitives are exact. -/

theorem adc64_sumsTo (a b : Word) (c : Bool) :
    SumsTo (2 ^ 64) a.toNat b.toNat c ((adc64 a b c).1.toNat, (adc64 a b c).2) := by
  refine ⟨(adc64 a b c).1.isLt, ?_⟩
  have hc := toNat_le_one c
  have ha := a.isLt
  have hb := b.isLt
  rw [adc64_toNat]
  simp only [adc64]
  by_cases h : 2 ^ 64 ≤ a.toNat + b.toNat + c.toNat
  · rw [decide_eq_true h, Bool.toNat_true]
    omega
  · rw [decide_eq_false h, Bool.toNat_false]
    omega

theorem sbb64_differsBy (a b : Word) (c : Bool) :
    DiffersBy (2 ^ 64) a.toNat b.toNat c ((sbb64 a b c).1.toNat, (sbb64 a b c).2) := by
  refine ⟨(sbb64 a b c).1.isLt, ?_⟩
  have hc := toNat_le_one c
  have ha := a.isLt
  have hb := b.isLt
  have hval := sbb64_toNat a b c
  by_cases h : (a.toNat : Int) - b.toNat - c.toNat < 0
  · simp only [sbb64, decide_eq_true h, Bool.toNat_true] at hval ⊢
    omega
  · simp only [sbb64, decide_eq_false h, Bool.toNat_false] at hval ⊢
    omega

theorem rcl64_sumsTo (a : Word) (c : Bool) :
    SumsTo (2 ^ 64) a.toNat a.toNat c ((rcl64 a c).1.toNat, (rcl64 a c).2) := by
  have hc := toNat_le_one c
  have ha := a.isLt
  refine ⟨(rcl64 a c).1.isLt, ?_⟩
  simp only [rcl64, BitVec.toNat_ofNat, BitVec.getLsbD, Nat.toNat_testBit]
  omega

theorem rcr64_halvesTo (a : Word) (c : Bool) :
    HalvesTo (2 ^ 64) a.toNat c ((rcr64 a c).1.toNat, (rcr64 a c).2) := by
  have hc := toNat_le_one c
  have ha := a.isLt
  refine ⟨(rcr64 a c).1.isLt, ?_⟩
  simp only [rcr64, BitVec.toNat_ofNat, BitVec.getLsbD, Nat.toNat_testBit]
  omega

/-- A word result is known by its number and its bit. -/
theorem word_pair_ext {r t : Word × Bool} (h : (r.1.toNat, r.2) = (t.1.toNat, t.2)) : r = t := by
  obtain ⟨h1, h2⟩ := Prod.mk.inj h
  exact Prod.ext (BitVec.eq_of_toNat_eq h1) h2

/-! The rotates through carry, as numbers and bit by bit (40_word_primitives.md R73, R74). -/

theorem rcl64_toNat (a : Word) (c : Bool) : (rcl64 a c).1.toNat = a.toNat * 2 % 2 ^ 64 + c.toNat := by
  have hc := toNat_le_one c
  simp only [rcl64, BitVec.toNat_ofNat]
  omega

theorem rcl64_getLsbD_succ (a : Word) (c : Bool) {i : Nat} (hi : i < 63) :
    (rcl64 a c).1.getLsbD (i + 1) = a.getLsbD i := by
  have hhalf : (2 * a.toNat + c.toNat) / 2 = a.toNat := by
    have := toNat_le_one c
    omega
  rw [rcl64, BitVec.getLsbD_ofNat, decide_eq_true (by omega), Bool.true_and, Nat.testBit_succ, hhalf]
  rfl

theorem rcl64_getLsbD_zero (a : Word) (c : Bool) : (rcl64 a c).1.getLsbD 0 = c := by
  rw [rcl64, BitVec.getLsbD_ofNat, Nat.testBit_zero]
  cases c <;> simp [Nat.add_mod]

theorem rcr64_toNat (a : Word) (c : Bool) : (rcr64 a c).1.toNat = a.toNat / 2 + c.toNat * 2 ^ 63 := by
  have hc := toNat_le_one c
  have ha := a.isLt
  simp only [rcr64, BitVec.toNat_ofNat]
  omega

theorem rcr64_getLsbD (a : Word) (c : Bool) {i : Nat} (hi : i < 63) :
    (rcr64 a c).1.getLsbD i = a.getLsbD (i + 1) := by
  have ha := a.isLt
  rw [BitVec.getLsbD, rcr64_toNat, Nat.add_comm, Nat.mul_comm, Nat.testBit_two_pow_mul_add _ (by omega), if_pos hi,
    BitVec.getLsbD, Nat.testBit_succ]

theorem rcr64_getLsbD_top (a : Word) (c : Bool) : (rcr64 a c).1.getLsbD 63 = c := by
  have ha := a.isLt
  rw [BitVec.getLsbD, rcr64_toNat, Nat.add_comm, Nat.mul_comm, Nat.testBit_two_pow_mul_add _ (by omega),
    if_neg (lt_irrefl 63)]
  cases c <;> rfl

/-! The structures are exact, level by level. -/

/-- What is threaded upwards from the words to level 0, and from each level to the next, holds at every level. -/
theorem ThreadsUp.level {P : Nat → Nat → Nat → Bool → Nat × Bool → Prop} (hP : ThreadsUp P)
    {word : Nat → Nat → Bool → Nat × Bool} {struct : Nat → Nat → Nat → Bool → Nat × Bool}
    (hword : ∀ {a b} c, a < 2 ^ 64 → b < 2 ^ 64 → P (2 ^ 64) a b c (word a b c))
    (hzero : struct 0 = threadUp2 (halfWidth 0) word)
    (hsucc : ∀ k, struct (k + 1) = threadUp2 (halfWidth (k + 1)) (struct k)) {k a b : Nat} (c : Bool)
    (ha : a < 2 ^ width k) (hb : b < 2 ^ width k) : P (2 ^ width k) a b c (struct k a b c) := by
  have hthread : ∀ {h a b : Nat} {lo : Nat → Nat → Bool → Nat × Bool} (c : Bool),
      (∀ {a b} c, a < 2 ^ h → b < 2 ^ h → P (2 ^ h) a b c (lo a b c)) → a < 2 ^ h * 2 ^ h → b < 2 ^ h * 2 ^ h →
        P (2 ^ h * 2 ^ h) a b c (threadUp2 h lo a b c) := by
    intro h a b lo c hlo ha hb
    have hp := Nat.two_pow_pos h
    have hdigits := hP (hlo c (Nat.mod_lt a hp) (Nat.mod_lt b hp))
      (hlo _ (Nat.div_lt_of_lt_mul ha) (Nat.div_lt_of_lt_mul hb))
    rwa [Nat.div_add_mod', Nat.div_add_mod'] at hdigits
  induction k generalizing a b c with
  | zero =>
    rw [two_pow_width_zero] at *
    rw [hzero]
    exact hthread c hword ha hb
  | succ k ih =>
    rw [two_pow_width_succ] at *
    rw [hsucc, halfWidth_succ]
    exact hthread c (fun c ha hb => ih c ha hb) ha hb

theorem HalvesTo.threadDown1 {h a : Nat} {c : Bool} {lo : Nat → Bool → Nat × Bool}
    (hlo : ∀ {a} c, a < 2 ^ h → HalvesTo (2 ^ h) a c (lo a c)) (ha : a < 2 ^ h * 2 ^ h) :
    HalvesTo (2 ^ h * 2 ^ h) a c (threadDown1 h lo a c) := by
  have hthread := (hlo c (Nat.div_lt_of_lt_mul ha)).thread (hlo _ (Nat.mod_lt a (Nat.two_pow_pos h)))
  rwa [Nat.div_add_mod'] at hthread

theorem wordAdd_sumsTo {a b : Nat} (c : Bool) (ha : a < 2 ^ 64) (hb : b < 2 ^ 64) :
    SumsTo (2 ^ 64) a b c (wordAdd a b c) := by
  have h := adc64_sumsTo (BitVec.ofNat 64 a) (BitVec.ofNat 64 b) c
  rwa [BitVec.toNat_ofNat, BitVec.toNat_ofNat, Nat.mod_eq_of_lt ha, Nat.mod_eq_of_lt hb] at h

theorem wordSub_differsBy {a b : Nat} (c : Bool) (ha : a < 2 ^ 64) (hb : b < 2 ^ 64) :
    DiffersBy (2 ^ 64) a b c (wordSub a b c) := by
  have h := sbb64_differsBy (BitVec.ofNat 64 a) (BitVec.ofNat 64 b) c
  rwa [BitVec.toNat_ofNat, BitVec.toNat_ofNat, Nat.mod_eq_of_lt ha, Nat.mod_eq_of_lt hb] at h

theorem wordShl1_sumsTo {a : Nat} (c : Bool) (ha : a < 2 ^ 64) : SumsTo (2 ^ 64) a a c (wordShl1 a c) := by
  have h := rcl64_sumsTo (BitVec.ofNat 64 a) c
  rwa [BitVec.toNat_ofNat, Nat.mod_eq_of_lt ha] at h

theorem wordShr1_halvesTo {a : Nat} (c : Bool) (ha : a < 2 ^ 64) : HalvesTo (2 ^ 64) a c (wordShr1 a c) := by
  have h := rcr64_halvesTo (BitVec.ofNat 64 a) c
  rwa [BitVec.toNat_ofNat, Nat.mod_eq_of_lt ha] at h

theorem structAdd_eq_lAdd {k a b : Nat} (c : Bool) (ha : a < 2 ^ width k) (hb : b < 2 ^ width k) :
    structAdd k a b c = lAdd k a b c :=
  (SumsTo.threadsUp.level wordAdd_sumsTo rfl (fun _ => rfl) c ha hb).unique (lAdd_sumsTo ha hb c)

theorem structSub_eq_lSub {k a b : Nat} (c : Bool) (ha : a < 2 ^ width k) (hb : b < 2 ^ width k) :
    structSub k a b c = lSub k a b c :=
  (DiffersBy.threadsUp.level wordSub_differsBy rfl (fun _ => rfl) c ha hb).unique (lSub_differsBy ha hb c)

/-- A left shift is threaded like the sum of its operand with itself. -/
theorem structShl1_eq_lShl1 {k a : Nat} (c : Bool) (ha : a < 2 ^ width k) : structShl1 k a c = lShl1 k a c := by
  have hdouble : ThreadsUp fun m a _ c r => SumsTo m a a c r := fun _ _ _ _ _ _ _ _ hl hu => SumsTo.threadsUp hl hu
  exact (hdouble.level (struct := fun k a _ c => structShl1 k a c) (fun c ha _ => wordShl1_sumsTo c ha) rfl
    (fun _ => rfl) c ha ha).unique (lShl1_sumsTo ha c)

theorem structShr1_eq_lShr1 {k a : Nat} (c : Bool) (ha : a < 2 ^ width k) : structShr1 k a c = lShr1 k a c := by
  refine HalvesTo.unique ?_ (lShr1_halvesTo ha c)
  induction k generalizing a c with
  | zero =>
    rw [two_pow_width_zero] at *
    exact HalvesTo.threadDown1 wordShr1_halvesTo ha
  | succ k ih =>
    rw [two_pow_width_succ] at *
    rw [structShr1, halfWidth_succ]
    exact HalvesTo.threadDown1 (fun c ha => ih c ha) ha

end Sys2Proof.Machine
end

section
/-! PROOFS. The word primitives (40_word_primitives.md part 1) and the add, subtract and shift structures
(41_level_functions.md sections 2 and 3). -/

namespace Sys2Proof.Machine

/-- Settles O22: sum and difference are exact as a digit and a bit, so each is what the other law says it is. -/
theorem wordAddAndSubtractAreExact : Obligations.WordAddAndSubtractAreExact := by
  intro a b c
  obtain ⟨_, hsum⟩ := adc64_sumsTo a b c
  obtain ⟨_, hdiff⟩ := sbb64_differsBy a b c
  refine ⟨adc64_toNat a b c, sbb64_toNat a b c, hsum, decide_eq_true_iff, ?_, decide_eq_true_iff, ?_, ?_⟩
  · simp only at hdiff
    omega
  · refine word_pair_ext ((sbb64_differsBy _ b c).unique ⟨a.isLt, ?_⟩)
    simp only at hsum ⊢
    omega
  · rw [adc64, adc64, Nat.add_comm a.toNat]

/-- Settles O23: the rotates are a doubling and a halving with a carry, and the bits lie accordingly. -/
theorem rotatesThroughCarryMoveTheirBits : Obligations.RotatesThroughCarryMoveTheirBits := by
  intro a c
  have ha := a.isLt
  refine ⟨rcl64_toNat a c, rcr64_toNat a c, fun i hi => rcl64_getLsbD_succ a c hi, rcl64_getLsbD_zero a c, rfl,
    fun i hi => rcr64_getLsbD a c hi, rcr64_getLsbD_top a c, rfl, ?_, ?_, ?_⟩
  · obtain ⟨_, hl⟩ := rcl64_sumsTo a c
    refine word_pair_ext ((rcr64_halvesTo _ _).unique ⟨ha, ?_⟩)
    simp only at hl ⊢
    omega
  · obtain ⟨_, hr⟩ := rcr64_halvesTo a c
    refine word_pair_ext ((rcl64_sumsTo _ _).unique ⟨ha, ?_⟩)
    simp only at hr ⊢
    omega
  · exact word_pair_ext ((adc64_sumsTo a a c).unique (rcl64_sumsTo a c))

/-- Settles O24: structure and contract are both the exact digit and bit, by induction on the level. -/
theorem addAndSubtractStructuresMeetTheirContracts : Obligations.AddAndSubtractStructuresMeetTheirContracts := by
  intro k a b c ha hb
  obtain ⟨_, hsum⟩ := lAdd_sumsTo ha hb c
  obtain ⟨_, hdiff⟩ := lSub_differsBy ha hb c
  refine ⟨structAdd_eq_lAdd c ha hb, structSub_eq_lSub c ha hb, rfl, decide_eq_true_iff, lSub_eq k a b c,
    decide_eq_true_iff, hsum, ?_⟩
  zify at hdiff
  linarith

/-- Settles O25: structure and contract are both the exact double or half, by induction on the level. -/
theorem shiftStructuresMeetTheirContracts : Obligations.ShiftStructuresMeetTheirContracts :=
  fun _ _ c ha => ⟨structShl1_eq_lShl1 c ha, structShr1_eq_lShr1 c ha, rfl, rfl⟩

end Sys2Proof.Machine
end

section
/-! SUPPORT. Products, quotients and order by halves (spec 41_level_functions.md R97, R98, R100): two digits as a double-width
product, the column sums of the schoolbook product, and the rounds of restoring division. -/

namespace Sys2Proof.Machine

/-! A product as two digits of base `m`. -/

/-- `r` is `a * b` as a low and a high digit. -/
def MultipliesTo (m a b : Nat) (r : Nat × Nat) : Prop := r.1 < m ∧ r.2 * m + r.1 = a * b

section
variable {m a b : Nat} {r t : Nat × Nat}

theorem MultipliesTo.unique (hr : MultipliesTo m a b r) (ht : MultipliesTo m a b t) : r = t := by
  have hlow : ∀ {x : Nat × Nat}, MultipliesTo m a b x → a * b % m = x.1 := by
    rintro x ⟨hlt, heq⟩
    rw [← heq, Nat.mul_comm, Nat.mul_add_mod, Nat.mod_eq_of_lt hlt]
  have hhigh : ∀ {x : Nat × Nat}, MultipliesTo m a b x → a * b / m = x.2 := by
    rintro x ⟨hlt, heq⟩
    rw [← heq, Nat.mul_comm, Nat.mul_add_div (by omega), Nat.div_eq_of_lt hlt, Nat.add_zero]
  exact Prod.ext ((hlow hr).symm.trans (hlow ht)) ((hhigh hr).symm.trans (hhigh ht))

/-- The high digit of a product of two digits is never the greatest digit (40_word_primitives.md R72). -/
theorem MultipliesTo.high_le (h : MultipliesTo m a b r) (ha : a < m) (hb : b < m) : r.2 ≤ m - 2 := by
  obtain ⟨_, heq⟩ := h
  obtain ⟨d, rfl⟩ : ∃ d, m = d + 1 := ⟨m - 1, by omega⟩
  by_contra hgt
  have hprod : a * b ≤ d * d := Nat.mul_le_mul (by omega) (by omega)
  have hhigh : d * (d + 1) ≤ r.2 * (d + 1) := Nat.mul_le_mul_right _ (by omega)
  have hpos : r.2 * (d + 1) ≤ d * d := by omega
  obtain rfl : d = 0 := by nlinarith
  omega

theorem MultipliesTo.high_lt (h : MultipliesTo m a b r) (ha : a < m) (hb : b < m) : r.2 < m := by
  have := h.high_le ha hb
  omega

/-- The four partial products and their column sums are the product; the last carry is 0 for there is no place for it
(41_level_functions.md R97). -/
theorem MultipliesTo.columns {c d y1 y2 x1 x2 w : Nat} {fy1 fy2 fx1 fx2 fw : Bool} {zy p1 p2 p3 : Nat × Nat}
    (ha : a < m) (hb : b < m) (hc : c < m) (hd : d < m)
    (hzy : MultipliesTo m b d zy) (hp1 : MultipliesTo m a d p1) (hp2 : MultipliesTo m b c p2)
    (hp3 : MultipliesTo m a c p3) (hy1 : SumsTo m zy.2 p1.1 false (y1, fy1)) (hx1 : SumsTo m p1.2 p2.2 fy1 (x1, fx1))
    (hy2 : SumsTo m y1 p2.1 false (y2, fy2)) (hx2 : SumsTo m x1 p3.1 fy2 (x2, fx2))
    (hw : SumsTo m p3.2 fx1.toNat fx2 (w, fw)) :
    MultipliesTo (m * m) (a * m + b) (c * m + d) (y2 * m + zy.1, w * m + x2) := by
  obtain ⟨hzylt, hzy⟩ := hzy
  obtain ⟨_, hp1⟩ := hp1
  obtain ⟨_, hp2⟩ := hp2
  obtain ⟨_, hp3⟩ := hp3
  obtain ⟨_, hy1⟩ := hy1
  obtain ⟨_, hx1⟩ := hx1
  obtain ⟨hy2lt, hy2⟩ := hy2
  obtain ⟨_, hx2⟩ := hx2
  obtain ⟨_, hw⟩ := hw
  simp only [Bool.toNat_false, Nat.add_zero] at hy1 hy2
  have htotal : fw.toNat * (m * m * (m * m)) + ((w * m + x2) * (m * m) + (y2 * m + zy.1)) =
      (a * m + b) * (c * m + d) := by
    linear_combination hzy + m * hp1 + m * hp2 + m * m * hp3 - m * hy1 - m * m * hx1 - m * hy2 - m * m * hx2 -
      m * m * m * hw
  have hbound : (a * m + b) * (c * m + d) < m * m * (m * m) :=
    Nat.mul_lt_mul'' (two_digits_lt ha hb) (two_digits_lt hc hd)
  have hcarry : fw = false := by
    cases fw
    · rfl
    · rw [Bool.toNat_true] at htotal
      omega
  rw [hcarry, Bool.toNat_false, Nat.zero_mul, Nat.zero_add] at htotal
  exact ⟨two_digits_lt hy2lt hzylt, htotal⟩

end

theorem MultipliesTo.schoolbook {h A B : Nat} {add : Nat → Nat → Bool → Nat × Bool} {mul : Nat → Nat → Nat × Nat}
    (hadd : ∀ {a b} c, a < 2 ^ h → b < 2 ^ h → SumsTo (2 ^ h) a b c (add a b c))
    (hmul : ∀ {a b}, a < 2 ^ h → b < 2 ^ h → MultipliesTo (2 ^ h) a b (mul a b)) (h1 : 1 < 2 ^ h)
    (hA : A < 2 ^ h * 2 ^ h) (hB : B < 2 ^ h * 2 ^ h) :
    MultipliesTo (2 ^ h * 2 ^ h) A B (schoolbook h add mul A B) := by
  have hp := Nat.two_pow_pos h
  have ha := Nat.div_lt_of_lt_mul hA
  have hb := Nat.mod_lt A hp
  have hc := Nat.div_lt_of_lt_mul hB
  have hd := Nat.mod_lt B hp
  have hzy := hmul hb hd
  have hp1 := hmul ha hd
  have hp2 := hmul hb hc
  have hp3 := hmul ha hc
  have hy1 := hadd false (hzy.high_lt hb hd) hp1.1
  have hx1 := fun carry => hadd carry (hp1.high_lt ha hd) (hp2.high_lt hb hc)
  have hy2 := hadd false hy1.1 hp2.1
  have hx2 := fun carry carry' => hadd carry' (hx1 carry).1 hp3.1
  have hw := fun (carry carry' : Bool) => hadd carry' (hp3.high_lt ha hc) ((toNat_le_one carry).trans_lt h1)
  have hcolumns := MultipliesTo.columns ha hb hc hd hzy hp1 hp2 hp3 hy1 (hx1 _) hy2 (hx2 _ _) (hw _ _)
  rwa [Nat.div_add_mod', Nat.div_add_mod'] at hcolumns

theorem lMulw_multipliesTo (k a b : Nat) : MultipliesTo (2 ^ width k) a b (lMulw k a b) :=
  ⟨Nat.mod_lt _ (Nat.two_pow_pos _), Nat.div_add_mod' _ _⟩

theorem mulw64_multipliesTo (a b : Word) :
    MultipliesTo (2 ^ 64) a.toNat b.toNat ((mulw64 a b).1.toNat, (mulw64 a b).2.toNat) := by
  have hprod : a.toNat * b.toNat < 2 ^ 64 * 2 ^ 64 := Nat.mul_lt_mul'' a.isLt b.isLt
  refine ⟨(mulw64 a b).1.isLt, ?_⟩
  simp only [mulw64, BitVec.toNat_ofNat]
  rw [Nat.mod_eq_of_lt (Nat.div_lt_of_lt_mul hprod), Nat.div_add_mod']

theorem wordMul_multipliesTo {a b : Nat} (ha : a < 2 ^ 64) (hb : b < 2 ^ 64) :
    MultipliesTo (2 ^ 64) a b (wordMul a b) := by
  have h := mulw64_multipliesTo (BitVec.ofNat 64 a) (BitVec.ofNat 64 b)
  rwa [BitVec.toNat_ofNat, BitVec.toNat_ofNat, Nat.mod_eq_of_lt ha, Nat.mod_eq_of_lt hb] at h

theorem structMul_multipliesTo {k a b : Nat} (ha : a < 2 ^ width k) (hb : b < 2 ^ width k) :
    MultipliesTo (2 ^ width k) a b (structMul k a b) := by
  induction k generalizing a b with
  | zero =>
    rw [two_pow_width_zero] at *
    exact MultipliesTo.schoolbook wordAdd_sumsTo wordMul_multipliesTo (by decide) ha hb
  | succ k ih =>
    rw [two_pow_width_succ] at *
    rw [structMul, halfWidth_succ]
    refine MultipliesTo.schoolbook (fun c ha hb => ?_) ih
      (Nat.one_lt_two_pow (by have := width_pos k; omega)) ha hb
    rw [structAdd_eq_lAdd c ha hb]
    exact lAdd_sumsTo ha hb c

/-! Restoring division. -/

/-- Where restoring division of `a` by `b` stands with `d` rounds to go: the leading part `p` of `a` already divided has quotient
`z` and remainder `qr.2`, and `qr.1` holds the rest `y` of `a` above `z` (41_level_functions.md R98). -/
def DividesSoFar (w a b d : Nat) (qr : Nat × Nat) : Prop :=
  ∃ n p y z, n + d = w ∧ a = p * 2 ^ d + y ∧ y < 2 ^ d ∧ p < 2 ^ n ∧ p = z * b + qr.2 ∧ qr.2 < b ∧ qr.1 = y * 2 ^ n + z

theorem dividesSoFar_start {w a b : Nat} (ha : a < 2 ^ w) (hb : b ≠ 0) : DividesSoFar w a b w (a, 0) :=
  ⟨0, 0, a, 0, by omega, by omega, ha, Nat.one_pos, by omega, Nat.pos_of_ne_zero hb, by simp⟩

theorem DividesSoFar.finished {w a b : Nat} {qr : Nat × Nat} (h : DividesSoFar w a b 0 qr) : qr = (a / b, a % b) := by
  obtain ⟨n, p, y, z, _, ha, hy, _, hp, hr, hq⟩ := h
  obtain rfl : y = 0 := by simpa using hy
  have hap : a = b * z + qr.2 := by
    rw [ha, hp, Nat.mul_comm z b]
    omega
  refine Prod.ext ?_ ?_
  · rw [hap, Nat.mul_add_div (by omega), Nat.div_eq_of_lt hr, hq]
    omega
  · rw [hap, Nat.mul_add_mod, Nat.mod_eq_of_lt hr]

theorem exists_top_bit {d y : Nat} (hy : y < 2 ^ (d + 1)) : ∃ (c : Bool) (x : Nat), x < 2 ^ d ∧ y = c.toNat * 2 ^ d + x := by
  rw [Nat.pow_succ] at hy
  by_cases h : 2 ^ d ≤ y
  · exact ⟨true, y - 2 ^ d, by omega, by rw [Bool.toNat_true]; omega⟩
  · exact ⟨false, y, by omega, by rw [Bool.toNat_false]; omega⟩

/-- The first shift of a round moves the next bit of the dividend out of the quotient register. -/
theorem structShl1_quotient {k n d x z : Nat} {c : Bool} (hw : n + (d + 1) = width k) (hx : x < 2 ^ d) (hz : z < 2 ^ n) :
    structShl1 k ((c.toNat * 2 ^ d + x) * 2 ^ n + z) false = (x * 2 ^ (n + 1) + 2 * z, c) := by
  have hsum : SumsTo (2 ^ width k) ((c.toNat * 2 ^ d + x) * 2 ^ n + z) ((c.toNat * 2 ^ d + x) * 2 ^ n + z) false
      (x * 2 ^ (n + 1) + 2 * z, c) := by
    refine ⟨?_, ?_⟩
    · rw [← hw, show n + (d + 1) = d + (n + 1) by omega, Nat.pow_add 2 d]
      exact two_digits_lt hx (show 2 * z < 2 ^ (n + 1) by rw [Nat.pow_succ]; omega)
    · rw [← hw, Bool.toNat_false]
      ring
  have hq : (c.toNat * 2 ^ d + x) * 2 ^ n + z < 2 ^ width k := by
    obtain ⟨hlt, heq⟩ := hsum
    cases c <;> simp only [Bool.toNat_false, Bool.toNat_true] at hlt heq ⊢ <;> omega
  rw [structShl1_eq_lShl1 false hq]
  exact (lShl1_sumsTo hq false).unique hsum

/-- The second shift moves it into the remainder, which never overflows: it is no greater than a leading part of the dividend. -/
theorem structShl1_remainder {k n r : Nat} (c : Bool) (hw : n + 1 ≤ width k) (hr : r < 2 ^ n) :
    2 * r + c.toNat < 2 ^ width k ∧ structShl1 k r c = (2 * r + c.toNat, false) := by
  have hpow : 2 * 2 ^ n ≤ 2 ^ width k := by
    rw [← Nat.pow_succ']
    exact Nat.pow_le_pow_right two_pos hw
  have hc := toNat_le_one c
  have hlt : r < 2 ^ width k := by omega
  have hfits : 2 * r + c.toNat < 2 ^ width k := by omega
  rw [structShl1_eq_lShl1 c hlt]
  refine ⟨hfits, (lShl1_sumsTo hlt c).unique ⟨hfits, ?_⟩⟩
  simp only [Bool.toNat_false]
  omega

theorem structSub_of_le {k a b : Nat} (ha : a < 2 ^ width k) (hb : b ≤ a) : (structSub k a b false).1 = a - b := by
  have hunique := (lSub_differsBy ha (hb.trans_lt ha) false).unique (t := (a - b, false))
    ⟨(Nat.sub_le a b).trans_lt ha, by simp only [Bool.toNat_false]; omega⟩
  rw [structSub_eq_lSub false ha (hb.trans_lt ha), hunique]

/-- One round of restoring division divides one more bit of the dividend (41_level_functions.md R98). -/
theorem DividesSoFar.divRound {k a b d : Nat} {qr : Nat × Nat} (h : DividesSoFar (width k) a b (d + 1) qr) :
    DividesSoFar (width k) a b d (divRound k b qr) := by
  obtain ⟨q, r⟩ := qr
  obtain ⟨n, p, y, z, hw, ha, hy, hp, hz, hr, rfl⟩ := h
  obtain ⟨c, x, hx, rfl⟩ := exists_top_bit hy
  simp only at hz hr
  have hzp : z ≤ p := by
    have := Nat.le_mul_of_pos_right z (show 0 < b by omega)
    omega
  have hc := toNat_le_one c
  obtain ⟨hfits, hremainder⟩ := structShl1_remainder (k := k) (n := n) (r := r) c (by omega) (by omega)
  simp only [Machine.divRound, structShl1_quotient hw hx (by omega : z < 2 ^ n), hremainder, lLt, decide_eq_true_iff]
  have ha' : a = (2 * p + c.toNat) * 2 ^ d + x := by
    rw [ha]
    ring
  have hp' : 2 * p + c.toNat < 2 ^ (n + 1) := by
    rw [Nat.pow_succ]
    omega
  split_ifs with hlt
  · exact ⟨n + 1, 2 * p + c.toNat, x, 2 * z, by omega, ha', hx, hp', by rw [hz]; ring, hlt, rfl⟩
  · rw [structSub_of_le hfits (not_lt.mp hlt)]
    have hodd : x * 2 ^ (n + 1) + 2 * z ||| 1 = x * 2 ^ (n + 1) + (2 * z + 1) := by
      have hor := Nat.two_pow_add_eq_or_of_lt (i := 1) (b := 1) (by decide) (x * 2 ^ n + z)
      rw [show x * 2 ^ (n + 1) + 2 * z = 2 ^ 1 * (x * 2 ^ n + z) by ring, ← hor]
      ring
    refine ⟨n + 1, 2 * p + c.toNat, x, 2 * z + 1, by omega, ha', hx, hp', ?_, by simp only; omega, hodd⟩
    simp only
    have hprod : (2 * z + 1) * b = 2 * (z * b) + b := by ring
    omega

theorem DividesSoFar.divRounds {k a b d : Nat} {qr : Nat × Nat} (h : DividesSoFar (width k) a b d qr) :
    divRounds k b d qr = (a / b, a % b) := by
  induction d generalizing qr with
  | zero => exact h.finished
  | succ d ih => exact ih h.divRound

theorem structDivmod_eq_lDivmod {k a : Nat} (b : Nat) (ha : a < 2 ^ width k) : structDivmod k a b = lDivmod a b := by
  by_cases hb : b = 0
  · rw [structDivmod, lDivmod, if_pos hb, if_pos hb]
  · rw [structDivmod, lDivmod, if_neg hb, if_neg hb, (dividesSoFar_start ha hb).divRounds]

theorem lDivmod_of_ne_zero (a : Nat) {b : Nat} (hb : b ≠ 0) : lDivmod a b = .ok (a / b, a % b) := if_neg hb

/-! Order by halves. -/

/-- The order of two numbers is that of their halves, the high ones first. -/
theorem lt_iff_halves_lt (m a b : Nat) : a < b ↔ a / m < b / m ∨ a / m = b / m ∧ a % m < b % m := by
  have ha := Nat.div_add_mod a m
  have hb := Nat.div_add_mod b m
  rcases lt_trichotomy (a / m) (b / m) with h | h | h
  · exact ⟨fun _ => .inl h, fun _ => Nat.lt_of_div_lt_div h⟩
  · rw [h] at ha
    constructor
    · intro hlt
      exact .inr ⟨h, by omega⟩
    · rintro (hne | ⟨_, hlt⟩)
      · omega
      · omega
  · have hba := Nat.lt_of_div_lt_div h
    constructor
    · intro hlt
      omega
    · rintro (hne | ⟨heq, _⟩)
      · omega
      · omega

theorem lLt_eq_lexLt (k a b : Nat) : lLt a b = lexLt k a b := by
  rw [Bool.eq_iff_iff, lLt_iff, lt_iff_halves_lt (2 ^ halfWidth k)]
  simp [lexLt]

end Sys2Proof.Machine
end

section
/-! SUPPORT. One level up (spec 41_level_functions.md R106): a value of two levels as two digits of the level. -/

namespace Sys2Proof.Machine

variable {k a b : Nat}

theorem lt_two_pow_width_succ (ha : a < 2 ^ width k) : a < 2 ^ width (k + 1) :=
  ha.trans_le (Nat.pow_le_pow_right two_pos (width_le (Nat.le_succ k)))

/-- The sum of the level with its carry above it is the sum one level up, which has no carry. -/
theorem lAdd_succ (ha : a < 2 ^ width k) (hb : b < 2 ^ width k) (c : Bool) :
    lAdd (k + 1) a b c = ((lAdd k a b c).2.toNat * 2 ^ width k + (lAdd k a b c).1, false) := by
  obtain ⟨hlt, hsum⟩ := lAdd_sumsTo ha hb c
  have hwide : 1 < 2 ^ width k := Nat.one_lt_two_pow (by have := width_pos k; omega)
  refine (lAdd_sumsTo (lt_two_pow_width_succ ha) (lt_two_pow_width_succ hb) c).unique ⟨?_, ?_⟩
  · rw [two_pow_width_succ]
    exact two_digits_lt ((toNat_le_one _).trans_lt hwide) hlt
  · rw [hsum, Bool.toNat_false, Nat.zero_mul, Nat.zero_add]

/-- A borrow of the level goes all the way up. -/
theorem lSub_succ (ha : a < 2 ^ width k) (hb : b < 2 ^ width k) (c : Bool) :
    lSub (k + 1) a b c =
      ((lSub k a b c).2.toNat * (2 ^ width k - 1) * 2 ^ width k + (lSub k a b c).1, (lSub k a b c).2) := by
  obtain ⟨hlt, hdiff⟩ := lSub_differsBy ha hb c
  refine (lSub_differsBy (lt_two_pow_width_succ ha) (lt_two_pow_width_succ hb) c).unique ?_
  obtain ⟨m, hm⟩ : ∃ m, 2 ^ width k = m + 1 := ⟨2 ^ width k - 1, by have := Nat.two_pow_pos (width k); omega⟩
  rw [two_pow_width_succ]
  rw [hm] at hlt hdiff ⊢
  rw [Nat.add_sub_cancel]
  refine ⟨two_digits_lt ?_ hlt, ?_⟩
  · cases (lSub k a b c).2 <;> simp
  · linear_combination hdiff

end Sys2Proof.Machine
end

section
/-! PROOFS. Products, quotients, order, ladder agreement and the laws of the unsigned levels (41_level_functions.md sections
4 to 7). -/

namespace Sys2Proof.Machine

/-- Settles O26: the schoolbook product is the exact two-digit product, by induction on the level. -/
theorem schoolbookMultiplyIsExact : Obligations.SchoolbookMultiplyIsExact := by
  intro k a b ha hb
  have hmul := structMul_multipliesTo ha hb
  exact ⟨hmul.unique (lMulw_multipliesTo k a b), rfl, hmul.2, hmul.high_le ha hb⟩

/-- Settles O27: the rounds keep a leading part of the dividend divided, and in the end it is the whole dividend. -/
theorem restoringDivisionMeetsItsContract : Obligations.RestoringDivisionMeetsItsContract := by
  intro k a b ha _
  rw [structDivmod_eq_lDivmod b ha]
  refine ⟨fun hb => ⟨if_pos hb, if_pos hb⟩, fun hb => ⟨a / b, a % b, lDivmod_of_ne_zero a hb, lDivmod_of_ne_zero a hb,
    rfl, rfl, Nat.div_add_mod' a b, Nat.mod_lt a (Nat.pos_of_ne_zero hb)⟩⟩

/-- Settles O29: the comparisons are those of the numbers, which are totally ordered. -/
theorem unsignedOrderIsLexicographic : Obligations.UnsignedOrderIsLexicographic := by
  intro k a b _ _
  refine ⟨lEq_iff a b, lLt_iff a b, lLt_eq_lexLt k a b, ?_⟩
  simp only [← Bool.not_eq_true, lEq_iff, lLt_iff]
  omega

/-- Settles O30: one level up, the result is the level's in the low digit and its overflow in the high one. -/
theorem ladderAgreement : Obligations.LadderAgreement := by
  intro k a b c ha hb
  have hp := Nat.two_pow_pos (width k)
  have hsum := lAdd_lt k a b c
  have hdiff := lSub_lt k a b c
  refine ⟨?_, ?_, ?_, ?_⟩
  · rw [lAdd_succ ha hb, Nat.mul_comm, Nat.mul_add_mod, Nat.mod_eq_of_lt hsum, Nat.mul_add_div hp, Nat.div_eq_of_lt hsum]
    exact ⟨rfl, rfl, rfl⟩
  · have hprod : a * b < 2 ^ width (k + 1) := by
      rw [two_pow_width_succ]
      exact Nat.mul_lt_mul'' ha hb
    rw [(lMulw_multipliesTo k a b).2]
    exact (lMulw_multipliesTo (k + 1) a b).unique ⟨hprod, by simp⟩
  · rw [structDivmod_eq_lDivmod b (lt_two_pow_width_succ ha), structDivmod_eq_lDivmod b ha]
  · rw [lSub_succ ha hb, Nat.mul_comm, Nat.mul_add_mod, Nat.mod_eq_of_lt hdiff, Nat.mul_add_div hp, Nat.div_eq_of_lt hdiff]
    refine ⟨rfl, fun hborrow => ?_⟩
    rw [hborrow]
    simp

/-- Settles O35: on numbers below 2^W the contracts are the arithmetic of the naturals. -/
theorem lawsOfTheUnsignedLevels : Obligations.LawsOfTheUnsignedLevels := by
  intro k a b c ha hb hc
  have hone : 1 < 2 ^ width k := Nat.one_lt_two_pow (by have := width_pos k; omega)
  refine ⟨(lAdd_sumsTo ha (by omega) false).unique ⟨ha, by simp⟩, ?_, ?_,
    (lMulw_multipliesTo k a 1).unique ⟨ha, by simp⟩, (lMulw_multipliesTo k a 0).unique ⟨by omega, by simp⟩,
    fun hb0 => ⟨a / b, a % b, lDivmod_of_ne_zero a hb0, Nat.div_add_mod' a b, Nat.mod_lt a (Nat.pos_of_ne_zero hb0)⟩,
    ?_, fun ha0 => ?_, fun hab => ?_, fun hb0 => ?_, fun n => ⟨lShln_value k a n, lShrn_value k n ha⟩,
    decide_eq_true_iff⟩
  · rw [lAdd, lAdd, Nat.add_comm a b]
  · simp [lAdd, Nat.add_assoc]
  · rw [lDivmod_of_ne_zero a one_ne_zero, Nat.div_one, Nat.mod_one]
  · rw [lDivmod_of_ne_zero a ha0, Nat.div_self (Nat.pos_of_ne_zero ha0), Nat.mod_self]
  · rw [lDivmod_of_ne_zero a (by omega), Nat.div_eq_of_lt hab, Nat.mod_eq_of_lt hab]
  · rw [lDivmod_of_ne_zero 0 hb0, Nat.zero_div, Nat.zero_mod]

end Sys2Proof.Machine
end

section
/-! SUPPORT. Signed sums and differences as functions on the integers (spec 43_sign_wrapper.md R161, R162): what signed add
answers, said once, and the two modes of signed subtract side by side. -/

namespace Sys2Proof.Machine

/-! Pairs and integers. -/

/-- The magnitude is the absolute value. -/
theorem natAbs_val (x : Signed) : x.val.natAbs = x.mag := by
  obtain ⟨m, _ | _⟩ := x <;> simp [Signed.val]

theorem val_flip (x : Signed) : x.flip.val = -x.val := by
  obtain ⟨m, _ | _⟩ := x <;> simp [Signed.val, Signed.flip]

section
variable {w : Nat} {x y : Signed}

/-- Without a negative zero the integer determines the pair. -/
theorem Signed.Normalised.eq_of_val_eq (hx : x.Normalised w) (hy : y.Normalised w) (h : x.val = y.val) : x = y := by
  obtain ⟨hneg, hmag⟩ := (sEq_iff x y).mp ((sEq_iff_val hx.2 hy.2).mpr h)
  obtain ⟨m, n⟩ := x
  obtain ⟨m', n'⟩ := y
  exact congrArg₂ Signed.mk hmag hneg

theorem Signed.Normalised.neg_eq (hx : x.Normalised w) : x.neg = decide (x.val < 0) := by
  obtain ⟨m, _ | _⟩ := x
  · simp [Signed.val]
  · have hm : m ≠ 0 := fun h => by simpa using hx.2 h
    have hpos : 0 < m := by omega
    simp [Signed.val, hpos]

/-- Opposite integers have the same magnitude and, but for zero, opposite signs. -/
theorem Signed.Normalised.opposite (hx : x.Normalised w) (hy : y.Normalised w) (h : x.val = -y.val) :
    x.mag = y.mag ∧ (x.mag ≠ 0 → x.neg = !y.neg) := by
  have hmag : x.mag = y.mag := by rw [← natAbs_val x, ← natAbs_val y, h, Int.natAbs_neg]
  refine ⟨hmag, fun hne => ?_⟩
  have habs := natAbs_val x
  rw [hx.neg_eq, hy.neg_eq, ← decide_not, h]
  exact decide_eq_decide.mpr (by omega)

end

/-! Signed add. -/

/-- What signed add answers with a carry-in of 0: a carry exactly when the magnitudes of like signs do not fit, the exact
sum without it, and with it the wrapped magnitude under the common sign (43_sign_wrapper.md R161, D25). -/
structure AddsSigned (k : Nat) (A B R : Signed) (c : Bool) : Prop where
  normalised : R.Normalised (width k)
  carry : c = true ↔ A.neg = B.neg ∧ 2 ^ width k ≤ A.mag + B.mag
  exact : c = false → R.val = A.val + B.val
  wrapped : c = true → R = sNorm (A.mag + B.mag - 2 ^ width k) A.neg

theorem val_add_of_like_signs {A B : Signed} (h : A.neg = B.neg) :
    (⟨A.mag + B.mag, A.neg⟩ : Signed).val = A.val + B.val := by
  obtain ⟨a, m⟩ := A
  obtain ⟨b, n⟩ := B
  obtain rfl : m = n := h
  cases m
  · simp [Signed.val]
  · simp only [Signed.val, if_true, Nat.cast_add]
    ring

theorem val_sub_of_unlike_signs {A B : Signed} (h : A.neg ≠ B.neg) (hle : B.mag ≤ A.mag) :
    (⟨A.mag - B.mag, A.neg⟩ : Signed).val = A.val + B.val := by
  obtain ⟨a, _ | _⟩ := A <;> obtain ⟨b, _ | _⟩ := B <;> simp [Signed.val] at h hle ⊢ <;> omega

theorem lSub_of_le {k a b : Nat} (ha : a < 2 ^ width k) (hb : b ≤ a) : (lSub k a b false).1 = a - b := by
  rw [← structSub_eq_lSub false ha (hb.trans_lt ha), structSub_of_le ha hb]

/-- The four branches of R161. -/
theorem sAddBranches_addsSigned {k : Nat} {A B : Signed} (hA : A.mag < 2 ^ width k) (hB : B.mag < 2 ^ width k) :
    AddsSigned k A B (sAddBranches k A B).1 (sAddBranches k A B).2 := by
  have hnorm := sAddBranches_normalised k A B
  by_cases hsign : A.neg = B.neg
  · have heq : sAddBranches k A B =
        (sNorm (lAdd k A.mag B.mag false).1 A.neg, (lAdd k A.mag B.mag false).2) := if_pos hsign
    obtain ⟨_, hsum⟩ := lAdd_sumsTo hA hB false
    rw [heq] at hnorm ⊢
    refine ⟨hnorm, by simp [lAdd, hsign], fun hc => ?_, fun hc => ?_⟩
    · simp only [show (lAdd k A.mag B.mag false).2 = false from hc, Bool.toNat_false, Nat.add_zero, Nat.zero_mul,
        Nat.zero_add] at hsum
      rw [sNorm_val, ← hsum, val_add_of_like_signs hsign]
    · simp only [show (lAdd k A.mag B.mag false).2 = true from hc, Bool.toNat_false, Bool.toNat_true, Nat.add_zero,
        Nat.one_mul] at hsum
      rw [hsum, Nat.add_sub_cancel_left]
  · have hnocarry : (sAddBranches k A B).2 = false := by
      simp only [sAddBranches, if_neg hsign]
      split_ifs <;> rfl
    refine ⟨hnorm, by simp [hnocarry, hsign], fun _ => ?_, fun hc => by simp [hnocarry] at hc⟩
    simp only [sAddBranches, if_neg hsign]
    split_ifs with hlt heq
    · rw [sNorm_val, lSub_of_le hA hlt.le, val_sub_of_unlike_signs hsign hlt.le]
    · rw [sNorm_val, ← val_sub_of_unlike_signs hsign heq.ge, heq, Nat.sub_self]
      simp [Signed.val]
    · have hle : A.mag ≤ B.mag := not_lt.mp hlt
      rw [sNorm_val, lSub_of_le hB hle, val_sub_of_unlike_signs (Ne.symm hsign) hle, Int.add_comm]

theorem sAdd_false (k : Nat) (A B : Signed) :
    sAdd k A B false = .ok ((sAddBranches k A B).1, (sAddBranches k A B).2) := rfl

theorem addsSigned_of_sAdd {k : Nat} {A B R : Signed} {c : Bool} (hA : A.mag < 2 ^ width k) (hB : B.mag < 2 ^ width k)
    (h : sAdd k A B false = .ok (R, c)) : AddsSigned k A B R c := by
  rw [sAdd_false] at h
  obtain ⟨rfl, rfl⟩ := Prod.mk.inj (Except.ok.inj h)
  exact sAddBranches_addsSigned hA hB

/-- Signed add answers the one normalised pair that R161 describes. -/
theorem AddsSigned.sAdd_eq {k : Nat} {A B R : Signed} {c : Bool} (hA : A.mag < 2 ^ width k) (hB : B.mag < 2 ^ width k)
    (h : AddsSigned k A B R c) : sAdd k A B false = .ok (R, c) := by
  have hbr := sAddBranches_addsSigned hA hB
  have hc : (sAddBranches k A B).2 = c := Bool.eq_iff_iff.mpr (hbr.carry.trans h.carry.symm)
  have hR : (sAddBranches k A B).1 = R := by
    cases c with
    | false => exact hbr.normalised.eq_of_val_eq h.normalised ((hbr.exact hc).trans (h.exact rfl).symm)
    | true => rw [hbr.wrapped hc, h.wrapped rfl]
  rw [sAdd_false, hc, hR]

/-! Signed subtract. -/

/-- The difference that a mode selects (43_sign_wrapper.md R162). -/
def modeDifference (mode : SsubMode) (x y : Int) : Int :=
  match mode with
  | .flipA => y - x
  | .flipB => x - y

/-- The sign a mode gives a difference whose magnitude overflows. -/
def modeOverflowSign (mode : SsubMode) (n : Bool) : Bool :=
  match mode with
  | .flipA => !n
  | .flipB => n

/-- What signed subtract answers with a borrow-in of 0, in both modes (43_sign_wrapper.md R162, D25). -/
structure SubtractsSigned (mode : SsubMode) (k : Nat) (A B R : Signed) (c : Bool) : Prop where
  normalised : R.Normalised (width k)
  carry : c = true ↔ A.neg ≠ B.neg ∧ 2 ^ width k ≤ A.mag + B.mag
  exact : c = false → R.val = modeDifference mode A.val B.val
  wrapped : c = true → R = sNorm (A.mag + B.mag - 2 ^ width k) (modeOverflowSign mode A.neg)

theorem subtractsSigned_of_sSub {mode : SsubMode} {k : Nat} {A B R : Signed} {c : Bool} (hA : A.mag < 2 ^ width k)
    (hB : B.mag < 2 ^ width k) (h : sSub mode k A B false = .ok (R, c)) : SubtractsSigned mode k A B R c := by
  have hsign : (!A.neg) = B.neg ↔ A.neg ≠ B.neg := by cases A.neg <;> cases B.neg <;> decide
  have hsign' : A.neg = (!B.neg) ↔ A.neg ≠ B.neg := by cases A.neg <;> cases B.neg <;> decide
  cases mode with
  | flipA =>
    have hadd := addsSigned_of_sAdd (A := A.flip) (B := B) hA hB h
    exact ⟨hadd.normalised, hadd.carry.trans (and_congr_left' hsign),
      fun hc => by rw [hadd.exact hc, val_flip, modeDifference]; ring, hadd.wrapped⟩
  | flipB =>
    have hadd := addsSigned_of_sAdd (A := A) (B := B.flip) hA hB h
    exact ⟨hadd.normalised, hadd.carry.trans (and_congr_left' hsign'),
      fun hc => by rw [hadd.exact hc, val_flip, modeDifference]; ring, hadd.wrapped⟩

theorem exists_sSub_false (mode : SsubMode) (k : Nat) (A B : Signed) : ∃ R c, sSub mode k A B false = .ok (R, c) := by
  cases mode
  · exact ⟨_, _, sAdd_false k A.flip B⟩
  · exact ⟨_, _, sAdd_false k A B.flip⟩

/-- The two modes carry alike and answer opposite integers, whether or not the magnitude overflows. -/
theorem SubtractsSigned.modes {k : Nat} {A B Ra Rb : Signed} {ca cb : Bool} (ha : SubtractsSigned .flipA k A B Ra ca)
    (hb : SubtractsSigned .flipB k A B Rb cb) : ca = cb ∧ Ra.val = -Rb.val := by
  have hc : ca = cb := Bool.eq_iff_iff.mpr (ha.carry.trans hb.carry.symm)
  refine ⟨hc, ?_⟩
  cases cb with
  | false =>
    rw [ha.exact hc, hb.exact rfl]
    simp only [modeDifference]
    ring
  | true =>
    rw [ha.wrapped hc, hb.wrapped rfl, sNorm_val, sNorm_val, ← val_flip]
    rfl

end Sys2Proof.Machine
end

section
/-! PROOFS. Signed add and subtract (43_sign_wrapper.md R161, R162) and the laws of the signed operations (R167). -/

namespace Sys2Proof.Machine

/-- Settles O31: signed add by its branches, each the exact sum or the wrapped magnitude. -/
theorem signedAddIsExactUnlessItOverflows : Obligations.SignedAddIsExactUnlessItOverflows := by
  intro k A B hA hB
  have hadd := sAddBranches_addsSigned hA hB
  refine ⟨rfl, _, _, sAdd_false k A B, hadd.normalised.1, hadd.normalised.2, hadd.carry, hadd.exact, fun hc => ?_⟩
  rw [hadd.wrapped hc, sNorm_mag, sNorm_neg]
  exact ⟨rfl, fun hne => if_neg hne⟩

/-- Settles O32: each mode adds with one sign flipped, so the modes answer opposite integers with the same carry. -/
theorem signedSubtractFollowsItsMode : Obligations.SignedSubtractFollowsItsMode := by
  intro k A B hA hB
  obtain ⟨Ra, ca, hRa⟩ := exists_sSub_false .flipA k A B
  obtain ⟨Rb, c, hRb⟩ := exists_sSub_false .flipB k A B
  have ha := subtractsSigned_of_sSub hA hB hRa
  have hb := subtractsSigned_of_sSub hA hB hRb
  obtain ⟨rfl, hval⟩ := ha.modes hb
  obtain ⟨hmag, hneg⟩ := ha.normalised.opposite hb.normalised hval
  refine ⟨rfl, rfl, Ra, Rb, ca, hRa, hRb, fun hc => ⟨ha.exact hc, hb.exact hc⟩, hb.carry, fun hc => ?_, hmag, hneg,
    fun hz => ⟨ha.normalised.2 hz, hb.normalised.2 (hmag ▸ hz)⟩⟩
  rw [hb.wrapped hc, sNorm_mag, sNorm_neg]
  exact ⟨rfl, fun hne => if_neg hne⟩

/-- Settles O36: normalised pairs are their integers, so the laws are those of the integers. -/
theorem lawsOfTheSignedOperations : Obligations.LawsOfTheSignedOperations := by
  intro k A B C hA hB hC hA0 hB0 hC0
  have hpos := Nat.two_pow_pos (width k)
  have hone : 1 < 2 ^ width k := Nat.one_lt_two_pow (by have := width_pos k; omega)
  have hzero : (⟨0, false⟩ : Signed).Normalised (width k) := nonneg_normalised hpos
  have hAn : A.Normalised (width k) := ⟨hA, hA0⟩
  refine ⟨?_, ?_, ?_, ?_, ?_, ?_, ?_, ?_, ?_⟩
  · exact AddsSigned.sAdd_eq hA hA ⟨hzero, by simp [Signed.flip], fun _ => by rw [val_flip]; simp [Signed.val],
      fun hc => by simp at hc⟩
  · exact AddsSigned.sAdd_eq hA hpos ⟨hAn, by simp [hA], fun _ => by simp [Signed.val], fun hc => by simp at hc⟩
  · obtain ⟨hn, hcarry, hexact, hwrapped⟩ := sAddBranches_addsSigned hB hA
    rw [sAdd_false k B A]
    refine AddsSigned.sAdd_eq hA hB ⟨hn, ?_, fun hc => ?_, fun hc => ?_⟩
    · rw [hcarry, Nat.add_comm B.mag, eq_comm]
    · rw [hexact hc, Int.add_comm]
    · rw [hwrapped hc, Nat.add_comm B.mag, (hcarry.mp hc).1]
  · intro R S T U hR hS hT hU
    have hR' := addsSigned_of_sAdd hA hB hR
    have hS' := addsSigned_of_sAdd hR'.normalised.1 hC hS
    have hT' := addsSigned_of_sAdd hB hC hT
    have hU' := addsSigned_of_sAdd hA hT'.normalised.1 hU
    refine hS'.normalised.eq_of_val_eq hU'.normalised ?_
    rw [hS'.exact rfl, hR'.exact rfl, hU'.exact rfl, hT'.exact rfl, Int.add_assoc]
  · refine (sMul_normalised ..).eq_of_val_eq hAn ?_
    rw [sMul_val_of_fits (by simpa using hA)]
    simp [Signed.val]
  · refine (sMul_normalised ..).eq_of_val_eq hzero ?_
    rw [sMul_val_of_fits (by simp)]
    simp [Signed.val]
  · intro hne
    have hdiv := sDiv_of_ne_zero A hne
    obtain ⟨⟨_, hquot⟩, _⟩ := sDiv_normalised hA hdiv
    exact ⟨_, _, hdiv, by rw [sNorm_mag, Nat.div_add_mod'], Nat.mod_lt _ (Nat.pos_of_ne_zero hne), rfl, hquot⟩
  · rintro m R c (h | h)
    · exact (sAdd_normalised h).2
    · exact (sSub_normalised h).2
  · intro x n
    simp only [List.mem_cons, List.not_mem_nil, or_false, forall_eq_or_imp, forall_eq]
    exact ⟨(sMul_normalised k A B).2, (sShl1_normalised k A x).2, (sShr1_normalised hA x).2, (sShln_normalised k A n).2,
      (sShrn_normalised hA n).2, (sAnd_normalised hB).2, (sOr_normalised hA hB).2, (sXor_normalised hA hB).2⟩

end Sys2Proof.Machine
end

section
/-! SUPPORT. The shapes of commands, completed (spec 30_encoding.md R47): what the block holds after each, and its frame. -/

namespace Sys2Proof.Machine

/-- Any command completes when the block has it, its fields are apart and its effect is no fault. -/
theorem exec_complete {i : Instr} {s : State} {b : Block} (hl : legalOf i s.params = true)
    (ha : aliasClash (fieldsOf i) = false) (hb : effectOf i s.params s.block = .ok b) :
    exec i s = .next (s.complete b) := by
  rw [exec_eq_perform, perform_ok hl ha hb]

/-- Three different registers do not clash. -/
theorem aliasClash_three_ne {rd rs rt : Reg} (hds : rd ≠ rs) (hdt : rd ≠ rt) (hst : rs ≠ rt) :
    aliasClash [dst rd, src rs, dst rt] = false := by
  simp [hds, hdt, hst]

/-! A register that holds a signed value. -/

/-- The view of `w` bits of V[r] is the magnitude of `x`, and N[r] its sign. -/
def Block.Holds (b : Block) (w : Nat) (r : Reg) (x : Signed) : Prop := b.view w r = x.mag ∧ b.neg r = x.neg

section
variable {b : Block} {w : Nat} {r q : Reg} {x : Signed}

theorem holds_setSigned_self (b : Block) (r : Reg) (hx : x.Normalised w) : (b.setSigned w r x).Holds w r x := by
  obtain ⟨hfit, _⟩ := hx
  simp [Block.Holds, Nat.mod_eq_of_lt hfit]

theorem Block.Holds.setSigned_ne (h : b.Holds w q x) (y : Signed) (hrq : r ≠ q) : (b.setSigned w r y).Holds w q x := by
  simpa [Block.Holds, hrq] using h

theorem Block.Holds.setCF (h : b.Holds w r x) (c : Bool) : (b.setCF c).Holds w r x := h

theorem Block.Holds.setShiftOut (h : b.Holds w r x) (c : Option Bool) : (b.setShiftOut c).Holds w r x := by
  simpa [Block.Holds] using h

/-- A normalised value reads back through the effective sign. -/
theorem Block.Holds.signed_eq (h : b.Holds w r x) (hx : x.Normalised w) : b.signed w r = x := by
  obtain ⟨hmag, hneg⟩ := h
  obtain ⟨_, hzero⟩ := hx
  obtain ⟨m, n⟩ := x
  simp only at hmag hneg hzero
  by_cases hm : m = 0
  · simp [Block.signed, Block.effNeg, hmag, hm, hzero hm]
  · simp [Block.signed, Block.effNeg, hmag, hneg, hm]

/-- A register that holds a normalised pair holds its magnitude, and its sign unless that is zero. -/
theorem Block.Holds.sNorm {m : Nat} {n : Bool} (h : b.Holds w r (sNorm m n)) :
    b.view w r = m ∧ b.neg r = if b.view w r = 0 then false else n := by
  obtain ⟨hmag, hneg⟩ := h
  rw [sNorm_mag] at hmag
  exact ⟨hmag, by rw [hneg, sNorm_neg, hmag]⟩

end

/-! Word views. -/

theorem wordCarry2_completes (f : Word → Word → Bool → Word × Bool) (cs : CarrySel) {rd rs : Reg} (s : State)
    (h : rd ≠ rs) :
    ∃ b, wordCarry2 f cs rd rs s = .next (s.complete b) ∧
      b.view 64 rd = (f (s.block.word rd) (s.block.word rs) (s.block.carryIn cs)).1.toNat ∧
      b.cf = (f (s.block.word rd) (s.block.word rs) (s.block.carryIn cs)).2 ∧
      s.block.changesOnly b 64 [rd] [] true false :=
  ⟨_, wordCarry2_ok f cs s h, view_setWord_self .., rfl, changesOnly_putWordCarry _ (.head _)⟩

theorem wordCarry1_completes (f : Word → Bool → Word × Bool) (cs : CarrySel) (rd : Reg) (s : State) :
    ∃ b, wordCarry1 f cs rd s = .next (s.complete b) ∧
      b.view 64 rd = (f (s.block.word rd) (s.block.carryIn cs)).1.toNat ∧
      b.cf = (f (s.block.word rd) (s.block.carryIn cs)).2 ∧ s.block.changesOnly b 64 [rd] [] true false :=
  ⟨_, wordCarry1_ok f cs rd s, view_setWord_self .., rfl, changesOnly_putWordCarry _ (.head _)⟩

/-- A low and a high word written to two registers. -/
theorem setWord_pair (b : Block) {rd rt : Reg} (h : rd ≠ rt) (x y : Word) :
    ((b.setWord rd x).setWord rt y).view 64 rd = x.toNat ∧ ((b.setWord rd x).setWord rt y).view 64 rt = y.toNat ∧
      b.changesOnly ((b.setWord rd x).setWord rt y) 64 [rd, rt] [] false false :=
  ⟨by rw [view_setWord_ne _ _ _ h.symm, view_setWord_self], view_setWord_self ..,
    changesOnly_setWord (changesOnly_setWord changesOnly_refl _ (.head _)) _ (.tail _ (.head _))⟩

theorem divw64_ok {hi lo c : Word} (h : hi.toNat < c.toNat) :
    ∃ q r : Word, divw64 hi lo c = .ok (q, r) ∧
      q.toNat * c.toNat + r.toNat = hi.toNat * 2 ^ 64 + lo.toNat ∧ r.toNat < c.toNat := by
  have hrem := Nat.mod_lt (hi.toNat * 2 ^ 64 + lo.toNat) (show 0 < c.toNat by omega)
  have hquot : (hi.toNat * 2 ^ 64 + lo.toNat) / c.toNat < 2 ^ 64 :=
    Nat.div_lt_of_lt_mul (two_digits_lt h lo.isLt)
  refine ⟨_, _, if_neg h.not_ge, ?_⟩
  rw [BitVec.toNat_ofNat, BitVec.toNat_ofNat, Nat.mod_eq_of_lt hquot, Nat.mod_eq_of_lt (hrem.trans c.isLt)]
  exact ⟨Nat.div_add_mod' _ _, hrem⟩

/-! Level views. -/

section
variable {k : Level} {rd rs rt : Reg} {s : State}

/-- A result that fits the level reads back from the view. -/
theorem view_setView_of_lt (b : Block) {w : Nat} (r : Reg) {x : Nat} (hx : x < 2 ^ w) : (b.setView w r x).view w r = x := by
  rw [view_setView_self, Nat.mod_eq_of_lt hx]

theorem levelCarry2_completes (f : Nat → Nat → Bool → Nat × Bool) (cs : CarrySel) (hk : k.val ≤ s.params.kmax)
    (h : rd ≠ rs) (hf : ∀ a b c, (f a b c).1 < 2 ^ width k) :
    ∃ b, levelCarry2 f k cs rd rs s = .next (s.complete b) ∧
      b.view (width k) rd = (f (s.block.view (width k) rd) (s.block.view (width k) rs) (s.block.carryIn cs)).1 ∧
      b.cf = (f (s.block.view (width k) rd) (s.block.view (width k) rs) (s.block.carryIn cs)).2 ∧
      s.block.changesOnly b (width k) [rd] [] true false :=
  ⟨_, levelCarry2_ok f cs hk h, view_setView_of_lt _ _ (hf ..), rfl, changesOnly_putViewCarry _ (.head _)⟩

theorem levelCarry1_completes (f : Nat → Bool → Nat × Bool) (cs : CarrySel) (rd : Reg) (hk : k.val ≤ s.params.kmax)
    (hf : ∀ a c, a < 2 ^ width k → (f a c).1 < 2 ^ width k) :
    ∃ b, levelCarry1 f k cs rd s = .next (s.complete b) ∧
      b.view (width k) rd = (f (s.block.view (width k) rd) (s.block.carryIn cs)).1 ∧
      b.cf = (f (s.block.view (width k) rd) (s.block.carryIn cs)).2 ∧
      s.block.changesOnly b (width k) [rd] [] true false :=
  ⟨_, levelCarry1_ok f cs rd hk, view_setView_of_lt _ _ (hf _ _ (view_lt ..)), rfl, changesOnly_putViewCarry _ (.head _)⟩

theorem levelBitwise_completes (f : Nat → Nat → Nat) (hk : k.val ≤ s.params.kmax) (h : rd ≠ rs)
    (hf : ∀ a b, a < 2 ^ width k → b < 2 ^ width k → f a b < 2 ^ width k) :
    ∃ b, levelBitwise f k rd rs s = .next (s.complete b) ∧
      b.view (width k) rd = f (s.block.view (width k) rd) (s.block.view (width k) rs) ∧
      s.block.changesOnly b (width k) [rd] [] false false :=
  ⟨_, levelBitwise_ok f hk h, view_setView_of_lt _ _ (hf _ _ (view_lt ..) (view_lt ..)),
    changesOnly_setView changesOnly_refl _ (.head _)⟩

theorem levelShift_completes (f : Nat → Nat → Nat × Option Bool) (rd : Reg) (imm : BitVec 32)
    (hk : k.val ≤ s.params.kmax) (hf : ∀ a n, a < 2 ^ width k → (f a n).1 < 2 ^ width k) :
    ∃ b, levelShift f k rd imm s = .next (s.complete b) ∧
      b.view (width k) rd = (f (s.block.view (width k) rd) imm.toNat).1 ∧
      b.cf = (f (s.block.view (width k) rd) imm.toNat).2.getD s.block.cf ∧
      s.block.changesOnly b (width k) [rd] [] true false :=
  ⟨_, levelShift_ok f rd imm hk,
    (view_setShiftOut ..).trans (view_setView_of_lt _ _ (hf _ _ (view_lt ..))), cf_setShiftOut ..,
    changesOnly_setShiftOut (changesOnly_setView changesOnly_refl _ (.head _)) (.inr rfl)⟩

/-- A low and a high half written to two registers. -/
theorem setView_pair (b : Block) {w : Nat} (h : rd ≠ rt) {x y : Nat} (hx : x < 2 ^ w) (hy : y < 2 ^ w) :
    ((b.setView w rd x).setView w rt y).view w rd = x ∧ ((b.setView w rd x).setView w rt y).view w rt = y ∧
      b.changesOnly ((b.setView w rd x).setView w rt y) w [rd, rt] [] false false :=
  ⟨by rw [view_setView_ne _ _ _ _ h.symm, view_setView_of_lt _ _ hx], view_setView_of_lt _ _ hy,
    changesOnly_setView (changesOnly_setView changesOnly_refl _ (.head _)) _ (.tail _ (.head _))⟩

theorem mulw_completes (hk : k.val ≤ s.params.kmax) (hds : rd ≠ rs) (hdt : rd ≠ rt) (hst : rs ≠ rt) :
    ∃ b, exec (.mulw k rd rs rt) s = .next (s.complete b) ∧
      b.view (width k) rd = (lMulw k (s.block.view (width k) rd) (s.block.view (width k) rs)).1 ∧
      b.view (width k) rt = (lMulw k (s.block.view (width k) rd) (s.block.view (width k) rs)).2 ∧
      s.block.changesOnly b (width k) [rd, rt] [] false false := by
  have hmul := lMulw_multipliesTo k (s.block.view (width k) rd) (s.block.view (width k) rs)
  exact ⟨_, exec_complete (decide_eq_true hk) (aliasClash_three_ne hds hdt hst) rfl,
    setView_pair s.block hdt hmul.1 (hmul.high_lt (view_lt ..) (view_lt ..))⟩

theorem divmod_completes (hk : k.val ≤ s.params.kmax) (hds : rd ≠ rs) (hdt : rd ≠ rt) (hst : rs ≠ rt)
    (hne : s.block.view (width k) rs ≠ 0) :
    ∃ b, exec (.divmod k rd rs rt) s = .next (s.complete b) ∧
      b.view (width k) rd = s.block.view (width k) rd / s.block.view (width k) rs ∧
      b.view (width k) rt = s.block.view (width k) rd % s.block.view (width k) rs ∧
      s.block.changesOnly b (width k) [rd, rt] [] false false := by
  refine ⟨_, exec_complete (decide_eq_true hk) (aliasClash_three_ne hds hdt hst) ?_,
    setView_pair s.block hdt ((Nat.div_le_self ..).trans_lt (view_lt ..))
      ((Nat.mod_lt _ (Nat.pos_of_ne_zero hne)).trans (view_lt ..))⟩
  rw [effectOf, lDivmod_of_ne_zero _ hne]

/-! Signed operands. -/

theorem signedCarry2_completes {f : Signed → Signed → Bool → Except CommandFault (Signed × Bool)} {cs : CarrySel}
    {R : Signed} {c : Bool} (hk : k.val ≤ s.params.kmax) (h : rd ≠ rs)
    (hf : f (s.block.signed (width k) rd) (s.block.signed (width k) rs) (s.block.carryIn cs) = .ok (R, c))
    (hR : R.Normalised (width k)) :
    ∃ b, signedCarry2 f k cs rd rs s = .next (s.complete b) ∧ b.Holds (width k) rd R ∧ b.cf = c ∧
      s.block.changesOnly b (width k) [rd] [rd] true false :=
  ⟨_, signedCarry2_ok hk h hf, (holds_setSigned_self _ _ hR).setCF c, rfl,
    changesOnly_putSignedCarry _ (.head _) (.head _)⟩

theorem signedCarry1_completes (f : Signed → Bool → Signed × Bool) (cs : CarrySel) (rd : Reg)
    (hk : k.val ≤ s.params.kmax)
    (hf : ∀ A c, A.mag < 2 ^ width k → (f A c).1.Normalised (width k)) :
    ∃ b, signedCarry1 f k cs rd s = .next (s.complete b) ∧
      b.Holds (width k) rd (f (s.block.signed (width k) rd) (s.block.carryIn cs)).1 ∧
      b.cf = (f (s.block.signed (width k) rd) (s.block.carryIn cs)).2 ∧
      s.block.changesOnly b (width k) [rd] [rd] true false :=
  ⟨_, signedCarry1_ok f cs rd hk, (holds_setSigned_self _ _ (hf _ _ (view_lt ..))).setCF _, rfl,
    changesOnly_putSignedCarry _ (.head _) (.head _)⟩

theorem signedBinary_completes (f : Signed → Signed → Signed) (hk : k.val ≤ s.params.kmax) (h : rd ≠ rs)
    (hf : ∀ A B, A.mag < 2 ^ width k → B.mag < 2 ^ width k → (f A B).Normalised (width k)) :
    ∃ b, signedBinary f k rd rs s = .next (s.complete b) ∧
      b.Holds (width k) rd (f (s.block.signed (width k) rd) (s.block.signed (width k) rs)) ∧
      s.block.changesOnly b (width k) [rd] [rd] false false :=
  ⟨_, signedBinary_ok f hk h, holds_setSigned_self _ _ (hf _ _ (view_lt ..) (view_lt ..)),
    changesOnly_setSigned changesOnly_refl _ (.head _) (.head _)⟩

theorem signedShift_completes (f : Signed → Nat → Signed × Option Bool) (rd : Reg) (imm : BitVec 32)
    (hk : k.val ≤ s.params.kmax)
    (hf : ∀ A n, A.mag < 2 ^ width k → (f A n).1.Normalised (width k)) :
    ∃ b, signedShift f k rd imm s = .next (s.complete b) ∧
      b.Holds (width k) rd (f (s.block.signed (width k) rd) imm.toNat).1 ∧
      b.cf = (f (s.block.signed (width k) rd) imm.toNat).2.getD s.block.cf ∧
      s.block.changesOnly b (width k) [rd] [rd] true false :=
  ⟨_, signedShift_ok f rd imm hk, (holds_setSigned_self _ _ (hf _ _ (view_lt ..))).setShiftOut _, cf_setShiftOut ..,
    changesOnly_setShiftOut (changesOnly_setSigned changesOnly_refl _ (.head _) (.head _)) (.inr rfl)⟩

theorem loadShape_completes {legal : Bool} {x : Signed} (rd : Reg) (hk : k.val ≤ s.params.kmax) (hl : legal = true)
    (hx : x.Normalised (width k)) :
    ∃ b, loadShape legal k rd x s = .next (s.complete b) ∧ b.Holds (width k) rd x ∧
      s.block.changesOnly b (width k) [rd] [rd] false false :=
  ⟨_, loadShape_ok rd x hk hl, holds_setSigned_self _ _ hx, changesOnly_setSigned changesOnly_refl _ (.head _) (.head _)⟩

/-- 32 bits fit every level. -/
theorem lds_completes (rd : Reg) (imm : BitVec 32) (hk : k.val ≤ s.params.kmax) :
    ∃ b, exec (.lds k rd imm) s = .next (s.complete b) ∧ b.Holds (width k) rd ⟨imm.toNat, false⟩ ∧
      s.block.changesOnly b (width k) [rd] [rd] false false :=
  loadShape_completes rd hk rfl (nonneg_normalised
    (imm.isLt.trans_le (Nat.pow_le_pow_right two_pos (by have := width_pos k; omega))))

theorem moveShape_completes {f : Block → Signed} (hk : k.val ≤ s.params.kmax) (h : rd ≠ rs)
    (hf : (f s.block).Normalised (width k)) :
    ∃ b, moveShape f k rd rs s = .next (s.complete b) ∧ b.Holds (width k) rd (f s.block) ∧
      s.block.changesOnly b (width k) [rd] [rd] false false :=
  ⟨_, moveShape_ok f hk h, holds_setSigned_self _ _ hf, changesOnly_setSigned changesOnly_refl _ (.head _) (.head _)⟩

/-- Two signed results written to two registers. -/
theorem setSigned_pair (b : Block) {w : Nat} (h : rd ≠ rt) {x y : Signed} (hx : x.Normalised w) (hy : y.Normalised w) :
    ((b.setSigned w rd x).setSigned w rt y).Holds w rd x ∧ ((b.setSigned w rd x).setSigned w rt y).Holds w rt y ∧
      b.changesOnly ((b.setSigned w rd x).setSigned w rt y) w [rd, rt] [rd, rt] false false :=
  ⟨(holds_setSigned_self _ _ hx).setSigned_ne y h.symm, holds_setSigned_self _ _ hy,
    changesOnly_setSigned (changesOnly_setSigned changesOnly_refl _ (.head _) (.head _)) _ (.tail _ (.head _))
      (.tail _ (.head _))⟩

theorem sdiv_completes (hk : k.val ≤ s.params.kmax) (hds : rd ≠ rs) (hdt : rd ≠ rt) (hst : rs ≠ rt)
    (hne : s.block.view (width k) rs ≠ 0) :
    ∃ b, exec (.sdiv k rd rs rt) s = .next (s.complete b) ∧
      b.Holds (width k) rd (sNorm ((s.block.signed (width k) rd).mag / (s.block.signed (width k) rs).mag)
        ((s.block.signed (width k) rd).neg ^^ (s.block.signed (width k) rs).neg)) ∧
      b.Holds (width k) rt ⟨(s.block.signed (width k) rd).mag % (s.block.signed (width k) rs).mag, false⟩ ∧
      s.block.changesOnly b (width k) [rd, rt] [rd, rt] false false := by
  have hdiv := sDiv_of_ne_zero (s.block.signed (width k) rd) (B := s.block.signed (width k) rs) hne
  obtain ⟨hquot, hrem⟩ := sDiv_normalised (view_lt s.block (width k) rd) hdiv
  refine ⟨_, exec_complete (decide_eq_true hk) (aliasClash_three_ne hds hdt hst) ?_,
    setSigned_pair s.block hdt hquot hrem⟩
  rw [effectOf, hdiv]

end

/-! The values the completions name. -/

/-- CF after a multi-bit left shift (42_level_commands.md R140). -/
theorem lShln_out_getD (k a n : Nat) (cf : Bool) :
    (lShln k a n).2.getD cf = if n = 0 then cf else if n ≤ width k then a.testBit (width k - n) else false := by
  by_cases h0 : n = 0
  · simp [lShln, h0]
  · by_cases hn : n ≤ width k <;> simp [lShln, h0, hn]

/-- CF after a multi-bit right shift (42_level_commands.md R141). -/
theorem lShrn_out_getD (k a n : Nat) (cf : Bool) :
    (lShrn k a n).2.getD cf = if n = 0 then cf else if n ≤ width k then a.testBit (n - 1) else false := by
  by_cases h0 : n = 0
  · simp [lShrn, h0]
  · by_cases hn : n ≤ width k <;> simp [lShrn, h0, hn]

/-- Payload word j is bits 64j+63:64j of the immediate (30_encoding.md R55). -/
theorem payloadValue_word (p : List Word) (j : Nat) (hj : j < p.length) :
    payloadValue p / 2 ^ (64 * j) % 2 ^ 64 = (p[j]).toNat := by
  induction p generalizing j with
  | nil => simp at hj
  | cons w ws ih =>
    have hw := w.isLt
    cases j with
    | zero => simp [payloadValue, Nat.mod_eq_of_lt hw]
    | succ j =>
      rw [payloadValue, Nat.mul_succ, Nat.add_comm (64 * j), Nat.pow_add, ← Nat.div_div_eq_div_mul,
        Nat.add_mul_div_left _ _ (Nat.two_pow_pos 64), Nat.div_eq_of_lt hw, Nat.zero_add]
      exact ih j (by simpa using hj)

theorem effNeg_eq_ite (b : Block) (w : Nat) (r : Reg) : b.effNeg w r = if b.view w r = 0 then false else b.neg r := by
  by_cases h : b.view w r = 0 <;> simp [Block.effNeg, h]

end Sys2Proof.Machine
end

section
/-! PROOFS. The word-primitive and unsigned level commands complete (40_word_primitives.md part 2, 42_level_commands.md
sections 1 to 3). -/

namespace Sys2Proof.Machine

/-- Settles O41: the shape completes, and sum and difference are those of the word functions. -/
theorem wordAddAndSubtractComplete : Obligations.WordAddAndSubtractComplete := by
  intro cs rd rs s h A B c
  have hc : (s.block.carryIn cs).toNat = c := by cases cs <;> rfl
  obtain ⟨b, hadd, hview, hcf, hframe⟩ := wordCarry2_completes adc64 cs s h
  obtain ⟨b', hsub, hview', hcf', hframe'⟩ := wordCarry2_completes sbb64 cs s h
  refine ⟨⟨b, hadd, ?_, ?_, hframe⟩, ⟨b', hsub, ?_, ?_, hframe'⟩⟩
  · rw [hview, adc64_toNat, word_toNat, word_toNat, hc]
  · rw [hcf, adc64, decide_eq_true_iff, word_toNat, word_toNat, hc]
  · rw [hview', sbb64_toNat, word_toNat, word_toNat, hc]
  · rw [hcf', sbb64, decide_eq_true_iff, word_toNat, word_toNat, hc]
    omega

/-- Settles O42: two words of the exact product, written to two registers. -/
theorem wordMultiplyCompletes : Obligations.WordMultiplyCompletes := by
  intro rd rs rt s hds hdt hst
  have hmul := mulw64_multipliesTo (s.block.word rd) (s.block.word rs)
  have hhigh := hmul.high_le (s.block.word rd).isLt (s.block.word rs).isLt
  obtain ⟨hlow, hhi, hframe⟩ := setWord_pair s.block hdt (mulw64 (s.block.word rd) (s.block.word rs)).1
    (mulw64 (s.block.word rd) (s.block.word rs)).2
  refine ⟨_, exec_complete rfl (aliasClash_three_ne hds hdt hst) rfl, ?_, ?_, hframe⟩
  · rw [hlow, hhi, hmul.2, word_toNat, word_toNat]
  · rwa [hhi]

/-- Settles O43: the shape completes with the rotated word. -/
theorem wordRotatesComplete : Obligations.WordRotatesComplete := by
  intro cs rd s A c
  obtain ⟨b, hexec, hview, hcf, hframe⟩ := wordCarry1_completes rcl64 cs rd s
  obtain ⟨b', hexec', hview', hcf', hframe'⟩ := wordCarry1_completes rcr64 cs rd s
  refine ⟨⟨b, hexec, ?_, ?_, hframe⟩, ⟨b', hexec', ?_, ?_, hframe'⟩⟩
  · rw [hview, rcl64_toNat, word_toNat]
  · rw [hcf, rcl64, BitVec.getLsbD, word_toNat]
  · rw [hview', rcr64_toNat, word_toNat]
  · rw [hcf', rcr64, BitVec.getLsbD, word_toNat]

/-- Settles O44: below the divisor the quotient is one word. -/
theorem wordDivideCompletes : Obligations.WordDivideCompletes := by
  intro rd rs rt s hdiv hds hdt hst hlt
  obtain ⟨q, r, hqr, hid, hrem⟩ := divw64_ok (hi := s.block.word rt) (lo := s.block.word rd) (c := s.block.word rs)
    (by rwa [word_toNat, word_toNat])
  obtain ⟨hquot, hrest, hframe⟩ := setWord_pair s.block hdt q r
  simp only [word_toNat] at hid hrem
  refine ⟨_, exec_complete hdiv (aliasClash_three_ne hds hdt hst) (by simp only [effectOf, hqr]), ?_, ?_, hframe⟩
  · rw [hquot, hrest, hid]
  · rwa [hrest]

/-- Settles O45: the shape completes, and sum and difference are those of the contracts. -/
theorem levelAddAndSubtractComplete : Obligations.LevelAddAndSubtractComplete := by
  intro k cs rd rs s hk h w A B c
  obtain ⟨b, hadd, hview, hcf, hframe⟩ := levelCarry2_completes (lAdd k) cs hk h (lAdd_lt k)
  obtain ⟨b', hsub, hview', hcf', hframe'⟩ := levelCarry2_completes (lSub k) cs hk h (lSub_lt k)
  refine ⟨⟨b, hadd, hview, ?_, hframe⟩, ⟨b', hsub, ?_, ?_, hframe'⟩⟩
  · rw [hcf, lAdd, decide_eq_true_iff]
  · rw [hview', lSub_eq]
  · rw [hcf', lSub, decide_eq_true_iff]
    change (A : Int) - B - c < 0 ↔ A < B + c
    omega

/-- Settles O46: the shape completes with the contract's result. -/
theorem levelSingleShiftsComplete : Obligations.LevelSingleShiftsComplete := by
  intro k cs rd s hk w A c
  exact ⟨levelCarry1_completes (lShl1 k) cs rd hk fun a c _ => lShl1_lt k a c,
    levelCarry1_completes (lShr1 k) cs rd hk fun _ c ha => lShr1_lt k c ha⟩

/-- Settles O47: the halves of the exact product, and quotient and remainder, written to two registers. -/
theorem levelMultiplyAndDivideComplete : Obligations.LevelMultiplyAndDivideComplete := by
  intro k rd rs rt s hk hds hdt hst w
  refine ⟨?_, fun hne => ?_⟩
  · obtain ⟨b, hexec, hlow, hhigh, hframe⟩ := mulw_completes hk hds hdt hst
    exact ⟨b, hexec, by rw [hlow, hhigh, (lMulw_multipliesTo ..).2], hframe⟩
  · obtain ⟨b, hexec, hquot, hrem, hframe⟩ := divmod_completes hk hds hdt hst hne
    refine ⟨b, hexec, by rw [hquot, hrem, Nat.div_add_mod'], ?_, hframe⟩
    rw [hrem]
    exact Nat.mod_lt _ (Nat.pos_of_ne_zero hne)

/-- Settles O48: the flags are the comparisons of the operands, read off. -/
theorem comparisonsComplete : Obligations.ComparisonsComplete := by
  intro k rd rs s hk w
  have hA := signed_neg_of_zero s.block w rd
  have hB := signed_neg_of_zero s.block w rs
  exact ⟨⟨_, exec_cmp rd rs hk, lEq_iff _ _, lLt_iff _ _, changesOnly_setCompare changesOnly_refl _ _⟩,
    ⟨_, exec_scmp rd rs hk, sEq_iff_val hA hB, sLt_iff_val hA _, changesOnly_setCompare changesOnly_refl _ _⟩⟩

/-- Settles O49: the shape completes, bit by bit. -/
theorem levelBitwiseCompletes : Obligations.LevelBitwiseCompletes := by
  intro k rd rs s hk h w A B
  obtain ⟨b, hand, hview, hframe⟩ := levelBitwise_completes lAnd hk h fun a _ _ hb => Nat.and_lt_two_pow a hb
  obtain ⟨b', hor, hview', hframe'⟩ := levelBitwise_completes lOr hk h fun _ _ ha hb => Nat.or_lt_two_pow ha hb
  obtain ⟨b'', hxor, hview'', hframe''⟩ := levelBitwise_completes lXor hk h fun _ _ ha hb => Nat.xor_lt_two_pow ha hb
  refine ⟨⟨b, hand, fun j => ?_, hframe⟩, ⟨b', hor, fun j => ?_, hframe'⟩, ⟨b'', hxor, fun j => ?_, hframe''⟩⟩
  · rw [hview, lAnd, Nat.testBit_and]
  · rw [hview', lOr, Nat.testBit_or]
  · rw [hview'', lXor, Nat.testBit_xor]

/-- Settles O50: the shape completes with the closed forms. -/
theorem levelMultiBitShiftsComplete : Obligations.LevelMultiBitShiftsComplete := by
  intro k rd imm s hk w A n
  obtain ⟨b, hexec, hview, hcf, hframe⟩ := levelShift_completes (lShln k) rd imm hk fun a n _ => lShln_lt k a n
  obtain ⟨b', hexec', hview', hcf', hframe'⟩ := levelShift_completes (lShrn k) rd imm hk fun _ n ha => lShrn_lt k n ha
  refine ⟨⟨b, hexec, ?_, ?_, hframe⟩, ⟨b', hexec', ?_, ?_, hframe'⟩⟩
  · rw [hview, lShln_value]
  · rw [hcf, lShln_out_getD]
  · rw [hview', lShrn_value k _ (view_lt ..)]
  · rw [hcf', lShrn_out_getD]

end Sys2Proof.Machine
end

section
/-! PROOFS. The data commands complete (42_level_commands.md section 4). -/

namespace Sys2Proof.Machine

/-- Settles O51: the immediate fits its level, and its words are the payload. -/
theorem loadImmediateCompletes : Obligations.LoadImmediateCompletes := by
  intro k rd sg payload s hk hlen w
  obtain ⟨b, hexec, hholds, hframe⟩ := loadShape_completes rd hk
    (show payloadLegal k payload = true by simpa [payloadLegal, payloadWords] using hlen)
    (sNorm_normalised (payloadValue_lt_level hlen) sg)
  obtain ⟨hview, hneg⟩ := hholds.sNorm
  refine ⟨b, hexec, fun j hj => ?_, hneg, hframe⟩
  rw [hview, payloadValue_word payload j hj]

/-- Settles O52: the small integer and the byte fit every level. -/
theorem smallLoadsComplete : Obligations.SmallLoadsComplete := by
  intro k rd rs imm s hk w
  have hw : 128 ≤ w := width_pos k
  refine ⟨?_, fun h => ?_⟩
  · obtain ⟨b, hexec, ⟨hview, hneg⟩, hframe⟩ := lds_completes rd imm hk
    exact ⟨b, hexec, hview, hneg, hframe⟩
  · obtain ⟨b, hexec, ⟨hview, hneg⟩, hframe⟩ := moveShape_completes
      (f := fun b => { mag := b.view 8 rs, neg := false }) hk h (nonneg_normalised (view_lt_of_le s.block (by omega) rs))
    exact ⟨b, hexec, hview, hneg, hframe⟩

/-- Settles O53: the views of both widths with their effective signs. -/
theorem liftAndCopyComplete : Obligations.LiftAndCopyComplete := by
  intro k rd rs s hk h w low
  obtain ⟨b, hexec, ⟨hview, hneg⟩, hframe⟩ := moveShape_completes (f := fun b => b.signed (halfWidth k) rs) hk h
    (signed_normalised s.block (by have := width_half k; omega) rs)
  obtain ⟨b', hexec', ⟨hview', hneg'⟩, hframe'⟩ := moveShape_completes (f := fun b => b.signed (width k) rs) hk h
    (signed_normalised s.block le_rfl rs)
  exact ⟨⟨b, hexec, hview, hneg.trans (effNeg_eq_ite ..), hframe⟩,
    ⟨b', hexec', hview', hneg'.trans (effNeg_eq_ite ..), hframe'⟩⟩

end Sys2Proof.Machine
end

section
/-! PROOFS. The sign wrapper's commands complete (43_sign_wrapper.md part 2). -/

namespace Sys2Proof.Machine

/-- Settles O54: the shape completes with what signed add answers. -/
theorem signedAddCompletes : Obligations.SignedAddCompletes := by
  intro k cs rd rs s hk h hcs w A B
  have hadd : AddsSigned k A B _ _ := sAddBranches_addsSigned (view_lt s.block w rd) (view_lt s.block w rs)
  have hf : sAdd k A B (s.block.carryIn cs) = .ok ((sAddBranches k A B).1, (sAddBranches k A B).2) := by
    rw [hcs, sAdd_false]
  obtain ⟨b, hexec, hholds, hcf, hframe⟩ := signedCarry2_completes hk h hf hadd.normalised
  rw [← hcf] at hadd
  refine ⟨b, hexec, hadd.carry, fun hc => ?_, fun hc => ?_, fun hz => ?_, hframe⟩
  · rw [hholds.signed_eq hadd.normalised, hadd.exact hc]
  · rw [hadd.wrapped hc] at hholds
    obtain ⟨hview, hneg⟩ := hholds.sNorm
    exact ⟨hview, fun hne => by rw [hneg, if_neg hne]⟩
  · obtain ⟨hview, hneg⟩ := hholds
    rw [hneg, hadd.normalised.2 (hview ▸ hz)]

/-- Settles O55: the shape completes with what signed subtract answers in its mode. -/
theorem signedSubtractCompletes : Obligations.SignedSubtractCompletes := by
  intro k cs rd rs s hk h hcs w A B
  obtain ⟨R, c, hR⟩ := exists_sSub_false s.params.ssubMode k A B
  have hsub := subtractsSigned_of_sSub (view_lt s.block w rd) (view_lt s.block w rs) hR
  obtain ⟨b, hexec, hholds, rfl, hframe⟩ := signedCarry2_completes (cs := cs) hk h
    (show sSub s.params.ssubMode k A B (s.block.carryIn cs) = .ok (R, c) by rw [hcs, hR]) hsub.normalised
  refine ⟨b, hexec, hsub.carry, fun hc hmode => ?_, fun hc hmode => ?_, fun hc => ?_, fun hz => ?_, hframe⟩
  · rw [hholds.signed_eq hsub.normalised, hsub.exact hc, hmode, modeDifference]
  · rw [hholds.signed_eq hsub.normalised, hsub.exact hc, hmode, modeDifference]
  · rw [hsub.wrapped hc] at hholds
    obtain ⟨hview, hneg⟩ := hholds.sNorm
    refine ⟨hview, fun hne => ?_⟩
    rw [hneg, if_neg hne]
    cases s.params.ssubMode <;> rfl
  · obtain ⟨hview, hneg⟩ := hholds
    rw [hneg, hsub.normalised.2 (hview ▸ hz)]

/-- Settles O56: the shape completes with the low half of the product. -/
theorem signedMultiplyCompletes : Obligations.SignedMultiplyCompletes := by
  intro k rd rs s hk h w A B
  obtain ⟨b, hexec, hholds, hframe⟩ := signedBinary_completes (sMul k) hk h fun A B _ _ => sMul_normalised k A B
  obtain ⟨hview, hneg⟩ := Block.Holds.sNorm hholds
  refine ⟨b, hexec, hview, hneg, fun hfits => ?_, hframe⟩
  rw [hholds.signed_eq (sMul_normalised ..), sMul_val_of_fits hfits]

/-- Settles O57: quotient and remainder with their signs, written to two registers. -/
theorem signedDivideCompletes : Obligations.SignedDivideCompletes := by
  intro k rd rs rt s hk hds hdt hst hne w A B
  obtain ⟨b, hexec, hq, ⟨hrem, hnonneg⟩, hframe⟩ := sdiv_completes hk hds hdt hst hne
  obtain ⟨⟨hfit, hzero⟩, _⟩ := sDiv_normalised (view_lt s.block w rd) (sDiv_of_ne_zero A (B := B) hne)
  obtain ⟨hquot, hneg⟩ := hq.sNorm
  refine ⟨b, hexec, ?_, fun hz => ?_, ?_, ?_, hnonneg, hframe⟩
  · rw [hq.signed_eq ⟨hfit, hzero⟩, sDiv_quotient_val]
  · rw [hneg, if_pos hz]
  · rw [hquot, hrem]
    exact Nat.div_add_mod' A.mag B.mag
  · rw [hrem]
    exact Nat.mod_lt _ (Nat.pos_of_ne_zero hne)

/-- Settles O58: the shape completes with the shifted magnitude under the sign kept. -/
theorem signedSingleShiftsComplete : Obligations.SignedSingleShiftsComplete := by
  intro k cs rd s hk w A c
  obtain ⟨b, hexec, hholds, hcf, hframe⟩ := signedCarry1_completes (sShl1 k) cs rd hk fun A c _ => sShl1_normalised k A c
  obtain ⟨b', hexec', hholds', hcf', hframe'⟩ := signedCarry1_completes (sShr1 k) cs rd hk fun _ c hA => sShr1_normalised hA c
  obtain ⟨hview, hneg⟩ := Block.Holds.sNorm hholds
  obtain ⟨hview', hneg'⟩ := Block.Holds.sNorm hholds'
  exact ⟨⟨b, hexec, hview, hcf, hneg, hframe⟩, ⟨b', hexec', hview', hcf', hneg', hframe'⟩⟩

/-- Settles O59: the shape completes with the closed forms under the sign kept. -/
theorem signedMultiBitShiftsComplete : Obligations.SignedMultiBitShiftsComplete := by
  intro k rd imm s hk w A n
  obtain ⟨b, hexec, hholds, hcf, hframe⟩ := signedShift_completes (sShln k) rd imm hk fun A n _ => sShln_normalised k A n
  obtain ⟨b', hexec', hholds', hcf', hframe'⟩ := signedShift_completes (sShrn k) rd imm hk fun _ n hA => sShrn_normalised hA n
  obtain ⟨hview, hneg⟩ := Block.Holds.sNorm hholds
  obtain ⟨hview', hneg'⟩ := Block.Holds.sNorm hholds'
  exact ⟨⟨b, hexec, hview.trans (lShln_value ..), hneg, hcf.trans (lShln_out_getD ..), hframe⟩,
    ⟨b', hexec', hview'.trans (lShrn_value k _ (view_lt ..)), hneg', hcf'.trans (lShrn_out_getD ..), hframe'⟩⟩

/-- Settles O60: the shape completes, bit by bit on the magnitudes, under the sign kept. -/
theorem signedBitwiseCompletes : Obligations.SignedBitwiseCompletes := by
  intro k rd rs s hk h w A B
  obtain ⟨b, hand, hholds, hframe⟩ := signedBinary_completes sAnd hk h fun _ _ _ hB => sAnd_normalised hB
  obtain ⟨b', hor, hholds', hframe'⟩ := signedBinary_completes sOr hk h fun _ _ hA hB => sOr_normalised hA hB
  obtain ⟨b'', hxor, hholds'', hframe''⟩ := signedBinary_completes sXor hk h fun _ _ hA hB => sXor_normalised hA hB
  obtain ⟨hview, hneg⟩ := Block.Holds.sNorm hholds
  obtain ⟨hview', hneg'⟩ := Block.Holds.sNorm hholds'
  obtain ⟨hview'', hneg''⟩ := Block.Holds.sNorm hholds''
  refine ⟨⟨b, hand, fun j => ?_, hneg, hframe⟩, ⟨b', hor, fun j => ?_, hneg', hframe'⟩,
    ⟨b'', hxor, fun j => ?_, hneg'', hframe''⟩⟩
  · rw [hview, lAnd, Nat.testBit_and]
    rfl
  · rw [hview', lOr, Nat.testBit_or]
    rfl
  · rw [hview'', lXor, Nat.testBit_xor]
    rfl

end Sys2Proof.Machine
end

section
/-! SUPPORT. Sequences of two commands (spec 30_encoding.md R62, R64): what the first leaves for the second, and the registers
that neither writes. -/

namespace Sys2Proof.Machine

/-! Any sequence. -/

/-- A register that no command of a sequence writes keeps its magnitude and its sign, wherever the sequence stops. -/
theorem execAll_keeps {is : List Instr} {r : Reg} (h : ∀ i ∈ is, r ∉ i.regsWritten ∧ r ∉ i.signsWritten) (s : State) :
    (execAll is s).block.mag r = s.block.mag r ∧ (execAll is s).block.neg r = s.block.neg r := by
  induction is generalizing s with
  | nil => exact ⟨rfl, rfl⟩
  | cons i is ih =>
    rw [List.forall_mem_cons] at h
    obtain ⟨⟨hreg, hsign⟩, hrest⟩ := h
    obtain ⟨t, ht, _⟩ := exec_cases i s
    obtain ⟨hmag, _, hneg, _⟩ := exec_changesOnly ht
    rw [← hmag r hreg, ← hneg r hsign]
    by_cases hok : t.status = some .ok
    · simpa [execAll, ht, hok] using ih hrest t
    · simp [execAll, ht, hok]

theorem execAll_singleton_block {i : Instr} {s : State} {b : Block} (h : exec i s = .next (s.complete b)) :
    (execAll [i] s).block = b := by
  rw [execAll_cons_complete h, execAll, complete_block]

/-! Sequences of one more command. -/

section
variable {k : Level} {a b c t : Reg} {s : State}

theorem view_eq_of_changesOnly {d e : Block} {w : Nat} {regs signs : List Reg} {cf cmp : Bool}
    (h : d.changesOnly e w regs signs cf cmp) {r : Reg} (hr : r ∉ regs) (u : Nat) : e.view u r = d.view u r := by
  obtain ⟨hmag, _⟩ := h
  rw [Block.view, Block.view, hmag r hr]

theorem signed_eq_of_changesOnly {d e : Block} {w : Nat} {regs signs : List Reg} {cf cmp : Bool}
    (h : d.changesOnly e w regs signs cf cmp) {r : Reg} (hr : r ∉ regs) (hs : r ∉ signs) (u : Nat) :
    e.signed u r = d.signed u r := by
  have hview := view_eq_of_changesOnly h hr u
  obtain ⟨_, _, hneg, _⟩ := h
  rw [Block.signed, Block.signed, Block.effNeg, Block.effNeg, hview, hneg r hs]

/-- A bitwise command with a small integer loaded into a scratch register (30_encoding.md R64). -/
theorem execAll_lds_bitwise_view {f : Nat → Nat → Nat} {i : Instr} (hi : ∀ s, exec i s = levelBitwise f k a t s)
    (hf : ∀ x y, x < 2 ^ width k → y < 2 ^ width k → f x y < 2 ^ width k) (n : BitVec 32) (hk : k.val ≤ s.params.kmax)
    (h : a ≠ t) :
    (execAll [.lds k t n, i] s).block.view (width k) a = f (s.block.view (width k) a) n.toNat := by
  obtain ⟨d, hload, ⟨hscratch, _⟩, hframe⟩ := lds_completes t n hk
  obtain ⟨e, hexec, hview, _⟩ := levelBitwise_completes (s := s.complete d) f hk h hf
  rw [execAll_cons_complete hload, execAll_singleton_block ((hi _).trans hexec), hview, complete_block, hscratch,
    view_eq_of_changesOnly hframe (by simpa using h)]

/-- COPY hands the source on: the rest of the sequence runs on the value in `c` and on the other operand as it was. -/
theorem execAll_copy (hk : k.val ≤ s.params.kmax) (hca : c ≠ a) (hcb : c ≠ b) :
    ∃ s', (∀ is, execAll (.copy k c a :: is) s = execAll is s') ∧ s'.params = s.params ∧
      s'.block.signed (width k) c = s.block.signed (width k) a ∧
      s'.block.signed (width k) b = s.block.signed (width k) b := by
  have hsource := signed_normalised s.block (le_refl (width k)) a
  obtain ⟨d, hexec, hholds, hframe⟩ := moveShape_completes (f := fun b => b.signed (width k) a) hk hca hsource
  exact ⟨s.complete d, execAll_cons_complete (i := .copy k c a) hexec, rfl, hholds.signed_eq hsource,
    signed_eq_of_changesOnly hframe (by simpa using hcb.symm) (by simpa using hcb.symm) _⟩

/-- A pseudo-operator's first command, for the unsigned commands: the views of its operands. -/
theorem execAll_copy_views (hk : k.val ≤ s.params.kmax) (hca : c ≠ a) (hcb : c ≠ b) :
    ∃ s', (∀ is, execAll (.copy k c a :: is) s = execAll is s') ∧ k.val ≤ s'.params.kmax ∧
      s'.block.view (width k) c = s.block.view (width k) a ∧ s'.block.view (width k) b = s.block.view (width k) b := by
  obtain ⟨s', hrun, hparams, hX, hY⟩ := execAll_copy (k := k) (s := s) hk hca hcb
  exact ⟨s', hrun, by rwa [hparams], congrArg Signed.mag hX, congrArg Signed.mag hY⟩

/-! The unsigned operators. -/

theorem pseudoAdd_view (hk : k.val ≤ s.params.kmax) (hca : c ≠ a) (hcb : c ≠ b) :
    (execAll (pseudoAdd k c a b) s).block.view (width k) c =
      (s.block.view (width k) a + s.block.view (width k) b) % 2 ^ width k := by
  obtain ⟨s', hrun, hk', hA, hB⟩ := execAll_copy_views (k := k) (s := s) hk hca hcb
  obtain ⟨d, hexec, hview, _⟩ := levelCarry2_completes (lAdd k) .zero hk' hcb (lAdd_lt k)
  rw [pseudoAdd, hrun, execAll_singleton_block (i := .add k .zero c b) hexec, hview, hA, hB]
  rfl

/-- The wrapped difference as a natural number. -/
theorem lSub_value {k a b : Nat} (ha : a < 2 ^ width k) (hb : b < 2 ^ width k) :
    (lSub k a b false).1 = (a + 2 ^ width k - b) % 2 ^ width k := by
  obtain ⟨hlt, hdiff⟩ := lSub_differsBy ha hb false
  cases hborrow : (lSub k a b false).2 <;>
    simp only [hborrow, Bool.toNat_false, Bool.toNat_true, Nat.zero_mul, Nat.one_mul, Nat.add_zero] at hdiff
  · rw [show a + 2 ^ width k - b = (lSub k a b false).1 + 2 ^ width k by omega, Nat.add_mod_right, Nat.mod_eq_of_lt hlt]
  · rw [show a + 2 ^ width k - b = (lSub k a b false).1 by omega, Nat.mod_eq_of_lt hlt]

theorem pseudoSub_view (hk : k.val ≤ s.params.kmax) (hca : c ≠ a) (hcb : c ≠ b) :
    (execAll (pseudoSub k c a b) s).block.view (width k) c =
      (s.block.view (width k) a + 2 ^ width k - s.block.view (width k) b) % 2 ^ width k := by
  obtain ⟨s', hrun, hk', hA, hB⟩ := execAll_copy_views (k := k) (s := s) hk hca hcb
  obtain ⟨d, hexec, hview, _⟩ := levelCarry2_completes (lSub k) .zero hk' hcb (lSub_lt k)
  rw [pseudoSub, hrun, execAll_singleton_block (i := .sub k .zero c b) hexec, hview, hA, hB]
  exact lSub_value (view_lt ..) (view_lt ..)

theorem pseudoMul_view (hk : k.val ≤ s.params.kmax) (hca : c ≠ a) (hcb : c ≠ b) (hct : c ≠ t) (hbt : b ≠ t) :
    (execAll (pseudoMul k c a b t) s).block.view (width k) c =
      s.block.view (width k) a * s.block.view (width k) b % 2 ^ width k := by
  obtain ⟨s', hrun, hk', hA, hB⟩ := execAll_copy_views (k := k) (s := s) hk hca hcb
  obtain ⟨d, hexec, hlow, _⟩ := mulw_completes hk' hcb hct hbt
  rw [pseudoMul, hrun, execAll_singleton_block hexec, hlow, hA, hB]
  rfl

theorem pseudoDiv_view (hk : k.val ≤ s.params.kmax) (hca : c ≠ a) (hcb : c ≠ b) (hct : c ≠ t) (hbt : b ≠ t)
    (hne : s.block.view (width k) b ≠ 0) :
    (execAll (pseudoDiv k c a b t) s).block.view (width k) c =
      s.block.view (width k) a / s.block.view (width k) b := by
  obtain ⟨s', hrun, hk', hA, hB⟩ := execAll_copy_views (k := k) (s := s) hk hca hcb
  obtain ⟨d, hexec, hquot, _⟩ := divmod_completes hk' hcb hct hbt (hB ▸ hne)
  rw [pseudoDiv, hrun, execAll_singleton_block hexec, hquot, hA, hB]

theorem pseudoMod_view (hk : k.val ≤ s.params.kmax) (hta : t ≠ a) (htb : t ≠ b) (htc : t ≠ c) (hbc : b ≠ c)
    (hne : s.block.view (width k) b ≠ 0) :
    (execAll (pseudoMod k c a b t) s).block.view (width k) c =
      s.block.view (width k) a % s.block.view (width k) b := by
  obtain ⟨s', hrun, hk', hA, hB⟩ := execAll_copy_views (k := k) (s := s) hk hta htb
  obtain ⟨d, hexec, _, hrem, _⟩ := divmod_completes hk' htb htc hbc (hB ▸ hne)
  rw [pseudoMod, hrun, execAll_singleton_block hexec, hrem, hA, hB]

/-! The signed operators. -/

theorem pseudoSadd_signed {R : Signed} {f : Bool} (hk : k.val ≤ s.params.kmax) (hca : c ≠ a) (hcb : c ≠ b)
    (h : sAdd k (s.block.signed (width k) a) (s.block.signed (width k) b) false = .ok (R, f)) :
    (execAll (pseudoSadd k c a b) s).block.signed (width k) c = R ∧ (execAll (pseudoSadd k c a b) s).block.cf = f := by
  obtain ⟨s', hrun, hparams, hX, hY⟩ := execAll_copy (k := k) (s := s) hk hca hcb
  rw [← hX, ← hY] at h
  have hnorm := sAdd_normalised h
  obtain ⟨d, hexec, hholds, hcf, _⟩ := signedCarry2_completes (cs := .zero) (by rwa [hparams]) hcb h hnorm
  rw [pseudoSadd, hrun, execAll_singleton_block (i := .sadd k .zero c b) hexec]
  exact ⟨hholds.signed_eq hnorm, hcf⟩

theorem pseudoSsub_signed {R : Signed} {f : Bool} (hk : k.val ≤ s.params.kmax) (hca : c ≠ a) (hcb : c ≠ b)
    (h : sSub s.params.ssubMode k (s.block.signed (width k) a) (s.block.signed (width k) b) false = .ok (R, f)) :
    (execAll (pseudoSsub k c a b) s).block.signed (width k) c = R ∧ (execAll (pseudoSsub k c a b) s).block.cf = f := by
  obtain ⟨s', hrun, hparams, hX, hY⟩ := execAll_copy (k := k) (s := s) hk hca hcb
  rw [← hX, ← hY, ← hparams] at h
  have hnorm := sSub_normalised h
  obtain ⟨d, hexec, hholds, hcf, _⟩ := signedCarry2_completes (cs := .zero) (by rwa [hparams]) hcb h hnorm
  rw [pseudoSsub, hrun, execAll_singleton_block (i := .ssub k .zero c b) hexec]
  exact ⟨hholds.signed_eq hnorm, hcf⟩

theorem pseudoSmul_signed (hk : k.val ≤ s.params.kmax) (hca : c ≠ a) (hcb : c ≠ b) :
    (execAll (pseudoSmul k c a b) s).block.signed (width k) c =
      sMul k (s.block.signed (width k) a) (s.block.signed (width k) b) := by
  obtain ⟨s', hrun, hparams, hX, hY⟩ := execAll_copy (k := k) (s := s) hk hca hcb
  obtain ⟨d, hexec, hholds, _⟩ := signedBinary_completes (s := s') (sMul k) (by rwa [hparams]) hcb
    fun A B _ _ => sMul_normalised k A B
  rw [pseudoSmul, hrun, execAll_singleton_block (i := .smul k c b) hexec, hholds.signed_eq (sMul_normalised ..), hX, hY]

theorem pseudoSdiv_val (hk : k.val ≤ s.params.kmax) (hca : c ≠ a) (hcb : c ≠ b) (hct : c ≠ t) (hbt : b ≠ t)
    (hne : s.block.view (width k) b ≠ 0) :
    ((execAll (pseudoSdiv k c a b t) s).block.signed (width k) c).val =
      (s.block.signed (width k) a).val.tdiv (s.block.signed (width k) b).val := by
  obtain ⟨s', hrun, hparams, hX, hY⟩ := execAll_copy (k := k) (s := s) hk hca hcb
  have hne' : (s'.block.signed (width k) b).mag ≠ 0 := by rwa [hY]
  obtain ⟨d, hexec, hquot, _⟩ := sdiv_completes (s := s') (by rwa [hparams]) hcb hct hbt hne'
  obtain ⟨hnorm, _⟩ := sDiv_normalised (view_lt s'.block (width k) c)
    (sDiv_of_ne_zero (s'.block.signed (width k) c) hne')
  rw [pseudoSdiv, hrun, execAll_singleton_block hexec, hquot.signed_eq hnorm, sDiv_quotient_val, hX, hY]

theorem pseudoSmod_view (hk : k.val ≤ s.params.kmax) (hta : t ≠ a) (htb : t ≠ b) (htc : t ≠ c) (hbc : b ≠ c)
    (hne : s.block.view (width k) b ≠ 0) :
    (execAll (pseudoSmod k c a b t) s).block.Holds (width k) c
      ⟨s.block.view (width k) a % s.block.view (width k) b, false⟩ := by
  obtain ⟨s', hrun, hparams, hX, hY⟩ := execAll_copy (k := k) (s := s) hk hta htb
  have hne' : (s'.block.signed (width k) b).mag ≠ 0 := by rwa [hY]
  obtain ⟨d, hexec, _, hrem, _⟩ := sdiv_completes (s := s') (by rwa [hparams]) htb htc hbc hne'
  rw [pseudoSmod, hrun, execAll_singleton_block hexec]
  rwa [hX, hY] at hrem

end

/-- The value-returning operators write their result and their scratch register only (30_encoding.md R62). -/
theorem operators_write {k : Level} {a b c t r : Reg} (hrc : r ≠ c) (hrt : r ≠ t) :
    ∀ p ∈ [pseudoAdd k c a b, pseudoSub k c a b, pseudoMul k c a b t, pseudoDiv k c a b t, pseudoMod k c a b t,
        pseudoSadd k c a b, pseudoSsub k c a b, pseudoSmul k c a b, pseudoSdiv k c a b t, pseudoSmod k c a b t],
      ∀ i ∈ p, r ∉ i.regsWritten ∧ r ∉ i.signsWritten := by
  simp [pseudoAdd, pseudoSub, pseudoMul, pseudoDiv, pseudoMod, pseudoSadd, pseudoSsub, pseudoSmul, pseudoSdiv,
    pseudoSmod, Instr.regsWritten, Instr.usedFields, Instr.signsWritten, hrc, hrt]

end Sys2Proof.Machine
end

section
/-! PROOFS. The value-returning operators (30_encoding.md R62) and the operations with a small integer (R61, R64). -/

namespace Sys2Proof.Machine

/-- Settles O38: COPY hands the source on to the command of the operator, and neither writes a source. -/
theorem valueReturningOperatorsCompute : Obligations.ValueReturningOperatorsCompute := by
  intro k c a b t s hk hca hcb hab hta htb htc w A B X Y after
  have hX := view_lt s.block w a
  have hY := view_lt s.block w b
  refine ⟨pseudoAdd_view hk hca hcb, pseudoSub_view hk hca hcb, pseudoMul_view hk hca hcb htc.symm htb.symm,
    pseudoDiv_view hk hca hcb htc.symm htb.symm, pseudoMod_view hk hta htb htc hcb.symm,
    fun R f h => pseudoSadd_signed hk hca hcb h, fun hfits => ?_, fun R f h => pseudoSsub_signed hk hca hcb h,
    fun hfits => ?_, pseudoSmul_signed hk hca hcb, fun hfits => ?_, pseudoSdiv_val hk hca hcb htc.symm htb.symm,
    pseudoSmod_view hk hta htb htc hcb.symm, fun p hp => ?_⟩
  · have hadd : AddsSigned k X Y _ _ := sAddBranches_addsSigned hX hY
    obtain ⟨hsum, _⟩ := pseudoSadd_signed hk hca hcb (sAdd_false k X Y)
    have hcarry : (sAddBranches k X Y).2 = false := by
      rw [Bool.eq_false_iff, ne_eq, hadd.carry, not_and_or, not_le]
      exact hfits
    exact (congrArg Signed.val hsum).trans (hadd.exact hcarry)
  · obtain ⟨R, f, h⟩ := exists_sSub_false s.params.ssubMode k X Y
    have hsub := subtractsSigned_of_sSub hX hY h
    obtain ⟨hdiff, _⟩ := pseudoSsub_signed hk hca hcb h
    have hcarry : f = false := by
      rw [Bool.eq_false_iff, ne_eq, hsub.carry, not_and_or, not_le, not_ne_iff]
      exact hfits
    refine (congrArg Signed.val hdiff).trans ((hsub.exact hcarry).trans ?_)
    cases s.params.ssubMode <;> rfl
  · exact (congrArg Signed.val (pseudoSmul_signed hk hca hcb)).trans (sMul_val_of_fits hfits)
  · obtain ⟨hmaga, hnega⟩ := execAll_keeps (operators_write hca.symm hta.symm p hp) s
    obtain ⟨hmagb, hnegb⟩ := execAll_keeps (operators_write hcb.symm htb.symm p hp) s
    exact ⟨hmaga, hmagb, hnega, hnegb⟩

/-- Settles O40: the small integer is loaded zero-extended, and the bitwise command reads it. -/
theorem smallIntegerBitwiseComputes : Obligations.SmallIntegerBitwiseComputes := by
  intro k a t n s hk h
  obtain ⟨d, hload, ⟨hview, hneg⟩, _⟩ := lds_completes a 0 hk
  refine ⟨execAll_lds_bitwise_view (f := lAnd) (fun _ => rfl) (fun x _ _ hy => Nat.and_lt_two_pow x hy) n hk h,
    execAll_lds_bitwise_view (f := lOr) (fun _ => rfl) (fun _ _ hx hy => Nat.or_lt_two_pow hx hy) n hk h,
    execAll_lds_bitwise_view (f := lXor) (fun _ => rfl) (fun _ _ hx hy => Nat.xor_lt_two_pow hx hy) n hk h, ?_, ?_⟩
  · rw [pseudoZero, execAll_singleton_block hload, hview]
    rfl
  · rw [pseudoZero, execAll_singleton_block hload, hneg]

end Sys2Proof.Machine
end
